-- ==== Sys2Proof/Word.lean ====
section
/-! DEFINITION. The word types of the block (00_scope.md R9: bit 0 is the least significant bit, a word is 32 bits). -/

namespace Sys2Proof

/-- A 32-bit word: a command, payload or response word, a register, a memory entry, a sample (R9). -/
abbrev Word := BitVec 32

/-- One byte of a byte-serial transport (20_memory.md R103). -/
abbrev Byte := BitVec 8

end Sys2Proof
end

