-- ==== Sys2Proof/Syntax.lean ====
section
/-! DEFINITION. The commands of the command port: one constructor for each row of spec/opcode_table.json
(30_encoding.md R143). A field a command does not use is no argument of its constructor (R141). -/

namespace Sys2Proof

/-- A decoded command with its payload words (30_encoding.md R141 to R145). -/
inductive Instr where
  /-- NOP (46_control.md R381). -/
  | nop
  /-- RESET (R382). -/
  | reset
  /-- SET_REG: register number, value (R383). -/
  | setReg (reg : BitVec 16) (value : Word)
  /-- GET_REG: register number (R384). -/
  | getReg (reg : BitVec 16)
  /-- BQ_WRITE: channel, band and five coefficients (R385). -/
  | bqWrite (ch band : BitVec 4) (b0 b1 b2 a1 a2 : Word)
  /-- BQ_READ: channel, band (R386). -/
  | bqRead (ch band : BitVec 4)
  /-- LOUD_WRITE: shelf, volume step and five coefficients (R387). -/
  | loudWrite (shelf : BitVec 4) (volStep : BitVec 16) (b0 b1 b2 a1 a2 : Word)
  /-- LOUD_FLIP (R388). -/
  | loudFlip
  /-- XF_WRITE: the three crossfeed coefficients (R389). -/
  | xfWrite (lpA0 lpB1 apA : Word)
  /-- SET_RATE: the rate in Hz (R390). -/
  | setRate (rate : Word)
  /-- PACKET: frame count N, gap in microseconds, frame words (41_ingest.md R200). -/
  | packet (n : BitVec 16) (gapUs : Word) (frames : List Word)
  /-- PDM_MARK (R391). -/
  | pdmMark
deriving DecidableEq, Repr

end Sys2Proof
end

