-- ==== Sys2Proof/WellFormed.lean ====
section
/-! DEFINITION. Which terms of Instr stand for a command of the port. Every field value is encodable, so the one check is
that a PACKET carries as many frame words as its N says, whatever N is (30_encoding.md R143, R145). -/

namespace Sys2Proof

/-- The command has an encoding (30_encoding.md R145). -/
def Instr.wellFormed : Instr → Bool
  | .nop => true
  | .reset => true
  | .setReg _ _ => true
  | .getReg _ => true
  | .bqWrite _ _ _ _ _ _ _ => true
  | .bqRead _ _ => true
  | .loudWrite _ _ _ _ _ _ _ => true
  | .loudFlip => true
  | .xfWrite _ _ _ => true
  | .setRate _ => true
  | .packet n _ frames => decide (frames.length = n.toNat)
  | .pdmMark => true

end Sys2Proof
end

