-- ==== Sys2Proof/Decode.lean ====
section
/-! DEFINITION. The command port's encoding (30_encoding.md R140 to R146): fields, opcode map, decoder and, after it, the
encoder; and the byte order of a byte-serial transport (20_memory.md R103). -/

namespace Sys2Proof

/-- OP, bits [31:24] of a command word (30_encoding.md R141, R142). -/
def opField (w : Word) : BitVec 8 := w.extractLsb' 24 8

/-- CH, bits [23:20] (R141, R142). -/
def chField (w : Word) : BitVec 4 := w.extractLsb' 20 4

/-- SEL, bits [19:16] (R141, R142). -/
def selField (w : Word) : BitVec 4 := w.extractLsb' 16 4

/-- IMM, bits [15:0] (R141, R142). -/
def immField (w : Word) : BitVec 16 := w.extractLsb' 0 16

/-- The twelve defined opcodes (R143). -/
inductive Opcode where
  | nop
  | reset
  | setReg
  | getReg
  | bqWrite
  | bqRead
  | loudWrite
  | loudFlip
  | xfWrite
  | setRate
  | packet
  | pdmMark
deriving DecidableEq, Repr

/-- The OP value of each opcode (R143). -/
def Opcode.code : Opcode → BitVec 8
  | .nop       => 0x00#8
  | .reset     => 0x01#8
  | .setReg    => 0x02#8
  | .getReg    => 0x03#8
  | .bqWrite   => 0x10#8
  | .bqRead    => 0x11#8
  | .loudWrite => 0x20#8
  | .loudFlip  => 0x21#8
  | .xfWrite   => 0x28#8
  | .setRate   => 0x30#8
  | .packet    => 0x40#8
  | .pdmMark   => 0x48#8

/-- The rows of the opcode map, in its order (R143). -/
def opcodeTable : List Opcode :=
  [.nop, .reset, .setReg, .getReg, .bqWrite, .bqRead, .loudWrite, .loudFlip, .xfWrite, .setRate, .packet, .pdmMark]

/-- The opcode an OP value stands for; the other 244 values stand for none (R143, R146). -/
def opcodeOf (op : BitVec 8) : Option Opcode := opcodeTable.find? (fun o => o.code == op)

/-- How many payload words follow a command word, from the command word alone; none for an undefined OP (R145). -/
def payloadWords (w : Word) : Nat :=
  match opcodeOf (opField w) with
  | none            => 0
  | some .nop       => 0
  | some .reset     => 0
  | some .setReg    => 1
  | some .getReg    => 0
  | some .bqWrite   => 5
  | some .bqRead    => 0
  | some .loudWrite => 5
  | some .loudFlip  => 0
  | some .xfWrite   => 3
  | some .setRate   => 1
  | some .packet    => 1 + (immField w).toNat
  | some .pdmMark   => 0

/-- What the words on the command port hold at their head. -/
inductive Decoded where
  /-- A whole command, and the words after it. -/
  | command (i : Instr) (rest : List Word)
  /-- An undefined OP: one word to consume, and the words after it (R146). -/
  | undefinedOp (op : BitVec 8) (rest : List Word)
  /-- Not yet a whole command (46_control.md R380). -/
  | incomplete
deriving DecidableEq, Repr

/-- The command with a given opcode, command word and following words (R143 to R145). -/
def decodeAs (op : Opcode) (w : Word) (ws : List Word) : Decoded :=
  match op with
  | .nop => .command .nop ws
  | .reset => .command .reset ws
  | .setReg =>
    match ws with
    | v :: rest => .command (.setReg (immField w) v) rest
    | _ => .incomplete
  | .getReg => .command (.getReg (immField w)) ws
  | .bqWrite =>
    match ws with
    | b0 :: b1 :: b2 :: a1 :: a2 :: rest =>
      .command (.bqWrite (chField w) (selField w) b0 b1 b2 a1 a2) rest
    | _ => .incomplete
  | .bqRead => .command (.bqRead (chField w) (selField w)) ws
  | .loudWrite =>
    match ws with
    | b0 :: b1 :: b2 :: a1 :: a2 :: rest =>
      .command (.loudWrite (selField w) (immField w) b0 b1 b2 a1 a2) rest
    | _ => .incomplete
  | .loudFlip => .command .loudFlip ws
  | .xfWrite =>
    match ws with
    | lpA0 :: lpB1 :: apA :: rest => .command (.xfWrite lpA0 lpB1 apA) rest
    | _ => .incomplete
  | .setRate =>
    match ws with
    | r :: rest => .command (.setRate r) rest
    | _ => .incomplete
  | .packet =>
    match ws with
    | gap :: rest =>
      if (immField w).toNat ≤ rest.length then
        .command (.packet (immField w) gap (rest.take (immField w).toNat)) (rest.drop (immField w).toNat)
      else .incomplete
    | _ => .incomplete
  | .pdmMark => .command .pdmMark ws

/-- The decoder of the command port: words are consumed strictly in order, and a payload word is never read as a command
word (R140, R145, R146). -/
def decode : List Word → Decoded
  | [] => .incomplete
  | w :: ws =>
    match opcodeOf (opField w) with
    | none => .undefinedOp (opField w) ws
    | some op => decodeAs op w ws

/-! The encoder, from the same tables. -/

/-- A command word from its four fields (R141). -/
def commandWord (op : Opcode) (ch sel : BitVec 4) (imm : BitVec 16) : Word :=
  op.code ++ ch ++ sel ++ imm

/-- The words of a command; unused fields are written 0 (R141, R143, R144). -/
def encode : Instr → List Word
  | .nop => [commandWord .nop 0 0 0]
  | .reset => [commandWord .reset 0 0 0]
  | .setReg reg v => [commandWord .setReg 0 0 reg, v]
  | .getReg reg => [commandWord .getReg 0 0 reg]
  | .bqWrite ch band b0 b1 b2 a1 a2 => [commandWord .bqWrite ch band 0, b0, b1, b2, a1, a2]
  | .bqRead ch band => [commandWord .bqRead ch band 0]
  | .loudWrite shelf k b0 b1 b2 a1 a2 => [commandWord .loudWrite 0 shelf k, b0, b1, b2, a1, a2]
  | .loudFlip => [commandWord .loudFlip 0 0 0]
  | .xfWrite lpA0 lpB1 apA => [commandWord .xfWrite 0 0 0, lpA0, lpB1, apA]
  | .setRate r => [commandWord .setRate 0 0 0, r]
  | .packet n gap frames => commandWord .packet 0 0 n :: gap :: frames
  | .pdmMark => [commandWord .pdmMark 0 0 0]

/-! A byte-serial transport, and the numbered bits of a table row. -/

/-- The bytes of a word on a byte-serial transport, least significant first (20_memory.md R103). -/
def bytesOfWord (w : Word) : List Byte :=
  [w.extractLsb' 0 8, w.extractLsb' 8 8, w.extractLsb' 16 8, w.extractLsb' 24 8]

/-- The word four bytes stand for: b0 | b1<<8 | b2<<16 | b3<<24 (20_memory.md R102, R103). -/
def wordOfBytes (b0 b1 b2 b3 : Byte) : Word := b3 ++ b2 ++ b1 ++ b0

/-- The whole words of a byte sequence; bytes that fill no word never reach the block (20_memory.md R107). -/
def wordsOfBytes : List Byte → List Word
  | b0 :: b1 :: b2 :: b3 :: rest => wordOfBytes b0 b1 b2 b3 :: wordsOfBytes rest
  | _ => []

/-- The first `k` words of the number `w`, its least significant word first. -/
def wordsOfNat : Nat → Nat → List Word
  | 0, _ => []
  | k + 1, w => BitVec.ofNat 32 w :: wordsOfNat k (w / 2 ^ 32)

/-- The words of a command whose first `nbits` bits are `w` and whose other bits are 0: as many as its own length says
(R145). A command has one word at least. Log 19. -/
def instructionWords (nbits w : Nat) : List Word :=
  let given := wordsOfNat (max 1 ((nbits + 31) / 32)) (w % 2 ^ nbits)
  match given with
  | [] => []
  | c :: _ => given ++ List.replicate (1 + payloadWords c - given.length) 0#32

/-- The command the decoder reads from a row's bits, laid out as a byte-serial transport carries them. -/
def decodeTableWord (nbits w : Nat) : Option Instr :=
  match decode (wordsOfBytes ((instructionWords nbits w).flatMap bytesOfWord)) with
  | .command i _ => some i
  | .undefinedOp _ _ => none
  | .incomplete => none

end Sys2Proof
end

