-- ==== Sys2Proof/Config.lean ====
section
/-! DEFINITION. What an implementation fixes (00_scope.md R7, R8) and the free values: the constants the source gives,
the parameters a model takes as arguments, and the opaque constants for what stays open. -/

namespace Sys2Proof

/-- The five logical EQ channels, numbered 0 to 4 (00_scope.md R7, NCH; 30_encoding.md R141). -/
inductive Channel where
  | masterL
  | masterR
  | outL
  | outR
  | sub
deriving DecidableEq, Repr

namespace Config

/-- COEF_FRAC: the fractional bits of every coefficient and multiplier (R7). -/
def coefFrac : Nat := 28

/-- IN_SHIFT: the shift from the 16-bit scale to the signal scale (R7; 90_conflicts.md C1). -/
def inShift : Nat := 14

/-- MAXB: the biquad slots stored for each channel (R7). -/
def maxBands : Nat := 10

/-- LOUD_STEPS: the rows of a loudness table (R7). -/
def loudSteps : Nat := 91

/-- DELAY_LEN: the words of a delay line (R7). -/
def delayLen : Nat := 8192

/-- SPDIF_NBUF: the buffers of the S/PDIF pool (R7). -/
def spdifBufs : Nat := 8

/-- SPDIF_BLOCK: the stereo frames of one S/PDIF buffer (R7). -/
def spdifBlock : Nat := 192

/-- The words of one S/PDIF buffer: 192 frames of four words (10_state.md R60). -/
def spdifWords : Nat := 768

/-- QLEN: the entries of the PCM->PDM queue (R7). -/
def queueLen : Nat := 256

/-- PDM_RING: the words of the PDM ring (R7). -/
def ringLen : Nat := 2048

/-- LEAK_SHIFT: the shift of the integrator leak (R7). -/
def leakShift : Nat := 16

/-- The PDM silence word, 50% duty (30_encoding.md R155). -/
def silenceWord : Word := 0xAAAAAAAA#32

/-- The Q28 coefficient 1.0 (10_state.md R37). -/
def unityQ28 : Word := 0x10000000#32

/-- Which agent takes the `n`th free turn: any of the four, by its number (20_memory.md R112; 93_implementation_defined.md
I8). A free value: log 1. -/
opaque scheduleChoice : Nat → BitVec 2

/-- The `n`th value of the external dither sequence, before it is limited to DITHER_MAX (45_pdm.md R349). A free value: log 5. -/
opaque ditherDraw : Nat → BitVec 32

/-- DITHER_MAX, which the spec leaves OPEN (R7, D27). A free value: log 5. -/
opaque ditherMax : Nat

/-- SYS_CLK_HZ_441, which the spec leaves OPEN (R7, D33). A free value: log 7. -/
opaque sysClkHz441 : Nat

/-- SYS_CLK_HZ_48, which the spec leaves OPEN (R7, D33). A free value: log 7. -/
opaque sysClkHz48 : Nat

/-- PDM_SM_CYCLES_PER_BIT, which the spec leaves OPEN (R7, D33). A free value: log 7. -/
opaque pdmSmCyclesPerBit : Nat

/-- What a divider register holds when the formula of 10_state.md R52 has a zero divisor or a value that 16.8 form cannot
hold, as a function of the system clock and the divisor. A free value: log 8. -/
opaque freeDivider : Nat → Nat → BitVec 24

end Config

/-- The parameters a model takes as arguments (00_scope.md R7). They are fixed for one machine: no step changes them. -/
structure Params where
  /-- BANDS of MasterL, MasterR, OutL, OutR and Sub. -/
  bandsMasterL : Nat
  bandsMasterR : Nat
  bandsOutL    : Nat
  bandsOutR    : Nat
  bandsSub     : Nat
  /-- SUB_ALIGN, the extra delay of the Sub line in samples. -/
  subAlign     : Nat
  /-- PDM_CLIP_THRESH. -/
  clip         : Nat
  /-- TARGET_LEAD in ring words. -/
  targetLead   : Nat
  /-- DITHER_MAX. -/
  ditherMax    : Nat
  /-- SYS_CLK_HZ_441, SYS_CLK_HZ_48 and PDM_SM_CYCLES_PER_BIT. -/
  sysClk441    : Nat
  sysClk48     : Nat
  pdmCycles    : Nat
deriving DecidableEq, Repr

/-- BANDS[ch] (R7). -/
def Params.bands (p : Params) : Channel → Nat
  | .masterL => p.bandsMasterL
  | .masterR => p.bandsMasterR
  | .outL    => p.bandsOutL
  | .outR    => p.bandsOutR
  | .sub     => p.bandsSub

/-- The constraints on the parameters (R8). -/
def Params.ok (p : Params) : Bool :=
  decide (p.bandsMasterL ≤ 10) && decide (p.bandsMasterR ≤ 10)
    && decide (2 ≤ p.bandsOutL) && decide (p.bandsOutL ≤ 10)
    && decide (2 ≤ p.bandsOutR) && decide (p.bandsOutR ≤ 10)
    && decide (2 ≤ p.bandsSub) && decide (p.bandsSub ≤ 10)
    && decide (p.subAlign ≤ 8191)
    && decide (0 < p.clip) && decide (p.clip ≤ 32767)
    && decide (8 ≤ p.targetLead) && decide (p.targetLead < 1024) && decide (p.targetLead % 8 = 0)

/-- The spec's default of every decided parameter and the opaque constant of every OPEN one (R7; log 6). -/
def Params.default : Params where
  bandsMasterL := 10
  bandsMasterR := 10
  bandsOutL    := 10
  bandsOutR    := 10
  bandsSub     := 10
  subAlign     := 128
  clip         := 29491
  targetLead   := 512
  ditherMax    := Config.ditherMax
  sysClk441    := Config.sysClkHz441
  sysClk48     := Config.sysClkHz48
  pdmCycles    := Config.pdmSmCyclesPerBit

end Sys2Proof
end

