-- ==== Sys2Proof/Machine/Arith.lean ====
section
/-! DEFINITION. The arithmetic primitives (00_scope.md R10, R11): mathematical integers, fitted to a width by exactly one of
wrap, saturate, clamp and arithmetic shift. -/

namespace Sys2Proof.Machine

/-- `wrapN(v)`: two's-complement wrap to `n` bits (R10). -/
def wrap (n : Nat) (v : Int) : BitVec n := BitVec.ofInt n v

/-- `clamp(v, lo, hi)` (R10). -/
def clamp (v lo hi : Int) : Int := min (max v lo) hi

/-- The largest signed value of `n` bits (R10). -/
def maxSigned (n : Nat) : Int := 2 ^ (n - 1) - 1

/-- The smallest signed value of `n` bits (R10). -/
def minSigned (n : Nat) : Int := -(2 ^ (n - 1))

/-- `satN(v)`: the nearest signed `n`-bit value (R10). -/
def sat (n : Nat) (v : Int) : BitVec n := BitVec.ofInt n (clamp v (minSigned n) (maxSigned n))

/-- `asr(v, k) = floor(v / 2^k)` (R10). -/
def asr (v : Int) (k : Nat) : Int := v / (2 ^ k : Nat)

/-- `mulq(x, c)`: the scalar multiply by a Q28 multiplier (R11). -/
def mulq (x c : Word) : Word := sat 32 (asr (x.toInt * c.toInt) Config.coefFrac)

end Sys2Proof.Machine
end

