-- ==== Sys2Proof/Machine/Clock.lean ====
section
/-! DEFINITION. The clock dividers the rate manager programs into the two serialisers (10_state.md R52). They are timing only:
no functional rule reads them. -/

namespace Sys2Proof.Machine

/-- SYS_CLK(r) (10_state.md R52). -/
def sysClk (p : Params) (rate : Nat) : Nat := if rate = 44100 then p.sysClk441 else p.sysClk48

/-- `div256(r, K) = ceil(SYS_CLK(r) * 256 / (r * K))` in 16.8 form (10_state.md R52, 30_encoding.md R157). Where the divisor is
0 or the value needs more than 24 bits the spec states no value: a free one (log 8). -/
def div256 (p : Params) (rate k : Nat) : BitVec 24 :=
  let d := rate * k
  let v := (sysClk p rate * 256 + (d - 1)) / d
  if d = 0 then Config.freeDivider (sysClk p rate) d
  else if v < 2 ^ 24 then BitVec.ofNat 24 v
  else Config.freeDivider (sysClk p rate) d

/-- SPDIF_DIV at a rate: 128 line cells a frame (10_state.md R52). -/
def spdifDivider (p : Params) (rate : Nat) : BitVec 24 := div256 p rate 128

/-- PDM_DIV at a rate (10_state.md R52). -/
def pdmDivider (p : Params) (rate : Nat) : BitVec 24 := div256 p rate (256 * p.pdmCycles)

end Sys2Proof.Machine
end

