-- ==== Sys2Proof/Machine/Mem.lean ====
section
/-! DEFINITION. The block's named memories (20_memory.md R100): each is indexed by entry and none is byte-addressed. A
memory is a list of (index, entry) pairs in one canonical form: indices strictly rising, and no entry equal to what an
unlisted index reads as, which is the entry's reset contents (10_state.md R65; log 9). -/

namespace Sys2Proof.Machine

/-- A memory with entries of type `α`. -/
abbrev Mem (α : Type) := List (Nat × α)

/-- The fixed facts of one memory: how many entries it has, and what each holds after reset. -/
structure MemShape (α : Type) where
  size   : Nat
  reset  : Nat → α

/-- Read one entry; an unlisted index reads its reset contents. -/
def Mem.read {α : Type} (sh : MemShape α) : Mem α → Nat → α
  | [], a => sh.reset a
  | (k, v) :: m, a => if k = a then v else Mem.read sh m a

/-- The memory without a listed entry at `a`. -/
def Mem.erase {α : Type} : Mem α → Nat → Mem α
  | [], _ => []
  | (k, v) :: m, a => if k = a then Mem.erase m a else (k, v) :: Mem.erase m a

/-- The memory with `v` listed at `a`, in rising order. -/
def Mem.insert {α : Type} : Mem α → Nat → α → Mem α
  | [], a, v => [(a, v)]
  | (k, w) :: m, a, v =>
    if a < k then (a, v) :: (k, w) :: m
    else if a = k then (a, v) :: m
    else (k, w) :: Mem.insert m a v

/-- Write one entry, keeping the canonical form: writing the reset contents removes the listed entry. -/
def Mem.write {α : Type} [DecidableEq α] (sh : MemShape α) (m : Mem α) (a : Nat) (v : α) : Mem α :=
  if v = sh.reset a then Mem.erase m a else Mem.insert m a v

/-- Write the entries `f 0`, `f 1`, ..., `f (n - 1)` at `base`, `base + 1`, ..., in that order. -/
def Mem.writeRun {α : Type} [DecidableEq α] (sh : MemShape α) (base : Nat) (f : Nat → α) : Nat → Mem α → Mem α
  | 0, m => m
  | n + 1, m => Mem.write sh (Mem.writeRun sh base f n m) (base + n) (f n)

/-- Canonical from the index `lo` on: indices rise, lie inside the memory, and no entry repeats its reset contents. -/
def Mem.wfFrom {α : Type} [DecidableEq α] (sh : MemShape α) : Nat → Mem α → Bool
  | _, [] => true
  | lo, (k, v) :: m => decide (lo ≤ k) && decide (k < sh.size) && decide (v ≠ sh.reset k) && Mem.wfFrom sh (k + 1) m

/-- The canonical form. -/
def Mem.wf {α : Type} [DecidableEq α] (sh : MemShape α) (m : Mem α) : Bool := Mem.wfFrom sh 0 m

end Sys2Proof.Machine
end

