-- ==== Sys2Proof/Machine/State.lean ====
section
/-! DEFINITION. Everything the spec gives the machine to hold (10_state.md R33), as plain data, and the state after reset
(70_reset_and_hazards.md R460). -/

namespace Sys2Proof.Machine

/-- The control registers of the map that have storage of their own (10_state.md R34 to R46, R52). Only the bits a field
names are stored; the others read 0 (log 10). -/
structure Regs where
  /-- RATE (R36). -/
  rate       : Word
  /-- PREAMP (R37). -/
  preamp     : Word
  /-- VOL_MULT (R38). -/
  volMult    : Word
  /-- VOL_INDEX (R39). -/
  volIndex   : BitVec 7
  /-- FLAGS: bit 0 LOUD_EN, bit 1 XF_EN, bit 2 MUTE (R40). -/
  flags      : BitVec 3
  /-- CH_BYPASS, one bit a channel (R41). -/
  chBypass   : BitVec 5
  /-- CH_MUTE: bit 0 OutL, bit 1 OutR, bit 2 Sub (R42). -/
  chMute     : BitVec 3
  /-- GAIN_L, GAIN_R, GAIN_SUB (R43). -/
  gainL      : Word
  gainR      : Word
  gainSub    : Word
  /-- DELAY_L, DELAY_R, DELAY_SUB (R44). -/
  delayL     : BitVec 13
  delayR     : BitVec 13
  delaySub   : BitVec 13
  /-- CHSTAT (R45). -/
  chstat     : Word
  /-- LOUD_ACTIVE (R46). -/
  loudActive : BitVec 1
  /-- SPDIF_DIV and PDM_DIV: div_int in [23:8], div_frac in [7:0] (R52). -/
  spdifDiv   : BitVec 24
  pdmDiv     : BitVec 24
deriving DecidableEq, Repr

/-- The packet counter and the six event counters (10_state.md R47). -/
structure Counters where
  pktCount      : Word
  spdifOverrun  : Word
  usbUnderrun   : Word
  ringOverrun   : Word
  pdmUnderrun   : Word
  spdifUnderrun : Word
  cmdInvalid    : Word
deriving DecidableEq, Repr

/-- Five 16-bit peak values: the registers PEAK_* (10_state.md R48) or the accumulators PACC[0..4] (R62). -/
structure Peaks where
  masterL : BitVec 16
  masterR : BitVec 16
  outL    : BitVec 16
  outR    : BitVec 16
  sub     : BitVec 16
deriving DecidableEq, Repr

/-- A set of five Q28 coefficients (10_state.md R55, R56). -/
structure Coefs where
  b0 : Word
  b1 : Word
  b2 : Word
  a1 : Word
  a2 : Word
deriving DecidableEq, Repr

/-- A coefficient set with its bypass bit: a LOUD entry (10_state.md R56), or the filter of a BQ slot (R55). -/
structure Filter where
  coefs  : Coefs
  bypass : Bool
deriving DecidableEq, Repr

/-- The two 64-bit state accumulators of a biquad, at product scale (10_state.md R55). -/
structure BqState where
  s1 : BitVec 64
  s2 : BitVec 64
deriving DecidableEq, Repr

/-- One biquad slot BQ[ch][b] (10_state.md R55). -/
structure BqSlot where
  filter : Filter
  st     : BqState
deriving DecidableEq, Repr

/-- LSTATE[c][j]: signal channel L or R, low shelf or high shelf (10_state.md R56). -/
structure LoudStates where
  lowL  : BqState
  highL : BqState
  lowR  : BqState
  highR : BqState
deriving DecidableEq, Repr

/-- The crossfeed state XF with XLP[0..1] and XAP[0..1] (10_state.md R57). -/
structure Crossfeed where
  lpA0 : Word
  lpB1 : Word
  apA  : Word
  lpL  : Word
  lpR  : Word
  apL  : BitVec 64
  apR  : BitVec 64
deriving DecidableEq, Repr

/-- MOD.mode (10_state.md R58). -/
inductive ModMode where
  | modulate
  | silence
deriving DecidableEq, Repr

/-- The PDM state (10_state.md R58) and the ring (R66). -/
structure Pdm where
  err1   : Word
  err2   : Word
  /-- PWI, the modulator's write index. -/
  pwi    : BitVec 11
  /-- PRI, the index of the next word PDM_DMA reads. -/
  pri    : BitVec 11
  target : BitVec 16
  mode   : ModMode
  ring   : Mem Word
deriving DecidableEq, Repr

/-- A message of the PCM->PDM queue (30_encoding.md R156). -/
structure Msg where
  sample : Word
  reset  : Bool
deriving DecidableEq, Repr

/-- The PCM->PDM queue (10_state.md R59). -/
structure Queue where
  buf  : Mem Msg
  head : BitVec 8
  tail : BitVec 8
deriving DecidableEq, Repr

/-- The S/PDIF pool and transmitter state (10_state.md R60). Buffer `id` is at the indices 768 * id and on of `pool`. -/
structure Spdif where
  pool    : Mem Word
  free    : List (Fin 8)
  ready   : List (Fin 8)
  /-- The buffer CMD is filling and how many frames it holds. -/
  fill    : Option (Fin 8 × Fin 192)
  silblk  : Mem Word
  /-- TX_RUNNING. -/
  running : Bool
deriving DecidableEq, Repr

/-- The delay lines DL[0..2] and the shared write index DW (10_state.md R61). -/
structure Delay where
  lineL   : Mem Word
  lineR   : Mem Word
  lineSub : Mem Word
  dw      : BitVec 13
deriving DecidableEq, Repr

/-- The packet context (10_state.md R62). -/
structure Packet where
  first   : Bool
  n       : BitVec 16
  gapUs   : Word
  frames  : List Word
  act     : BitVec 1
  vi      : BitVec 7
  dropped : Bool
  pacc    : Peaks
deriving DecidableEq, Repr

/-- CMD.seq (10_state.md R31). -/
inductive CmdSeq where
  | idle
  | pktFrame (k : Nat)
  | pktEnd
deriving DecidableEq, Repr

/-- What SPDIF_TX is sending: a pool buffer, or the silence block SIL (10_state.md R31). -/
inductive TxSrc where
  | buffer (id : Fin 8)
  | sil
deriving DecidableEq, Repr

/-- TX.seq (10_state.md R31). -/
inductive TxSeq where
  | idle
  | run (src : TxSrc) (p : Fin 768)
deriving DecidableEq, Repr

/-- MOD.seq (10_state.md R31). -/
inductive ModSeq where
  | start
  | chunk (c : Fin 8)
deriving DecidableEq, Repr

/-- The three append-only streams a host observes, oldest first (10_state.md R64). -/
structure Outputs where
  /-- The S/PDIF line cells. -/
  spdif : List Bool
  /-- The PDM bits. -/
  pdm   : List Bool
  /-- The response words. -/
  resp  : List Word
deriving DecidableEq, Repr

/-- The four agents (10_state.md R30). -/
inductive Agent where
  | cmd
  | spdifTx
  | pdmMod
  | pdmDma
deriving DecidableEq, Repr

/-- The whole machine (10_state.md R33). The last six fields are the model's own: the arguments of the model and the
inputs that come from outside the block (logs 1, 4, 5, 6). -/
structure State where
  regs     : Regs
  cnt      : Counters
  peaks    : Peaks
  /-- BQ; slot b of channel ch is at the index 10 * ch + b (R55). -/
  bq       : Mem BqSlot
  /-- LOUD; entry (t, k, j) is at the index (91 * t + k) * 2 + j (R56). -/
  loud     : Mem Filter
  lstate   : LoudStates
  xf       : Crossfeed
  pdm      : Pdm
  queue    : Queue
  spdif    : Spdif
  delay    : Delay
  pkt      : Packet
  cmdSeq   : CmdSeq
  txSeq    : TxSeq
  modSeq   : ModSeq
  out      : Outputs
  /-- Command-port words delivered and not yet consumed (20_memory.md R101). -/
  port     : List Word
  /-- The parameters (00_scope.md R7). -/
  par      : Params
  /-- Agent turns already decided from outside. -/
  sched    : List Agent
  /-- Turns taken from the free schedule so far. -/
  turn     : Nat
  /-- Dither values already supplied from outside. -/
  ditherIn : List (BitVec 32)
  /-- Values taken from the free dither sequence so far. -/
  draws    : Nat
deriving DecidableEq, Repr

/-- Nothing stops the block: there is no trap, and every abnormal condition is a counted event after which the step goes
on (60_exceptions.md R430, R434). So there is no fault to raise, and the type has no constructor (log 16). -/
inductive Fault where
deriving DecidableEq, Repr

/-- Why a step has no meaning. -/
inductive Refusal where
  /-- Raised only by an arm of `exec` whose command has no meaning yet; no arm is one. Safe: the machine stops. -/
  | notModelled (mnemonic : String)
deriving DecidableEq, Repr

/-- What a meaning or a step answers. -/
abbrev Result := Host.Outcome State Fault Refusal

/-! The state after reset (70_reset_and_hazards.md R460). -/

/-- No peak (10_state.md R48, R62). -/
def Peaks.zero : Peaks := ⟨0#16, 0#16, 0#16, 0#16, 0#16⟩

/-- A biquad at rest (10_state.md R55). -/
def BqState.zero : BqState := ⟨0#64, 0#64⟩

/-- The identity coefficients (10_state.md R55). -/
def Coefs.identity : Coefs := ⟨Config.unityQ28, 0#32, 0#32, 0#32, 0#32⟩

/-- The identity filter with its bypass bit, which every BQ slot and LOUD entry holds after reset (10_state.md R55, R56). -/
def Filter.identity : Filter := ⟨Coefs.identity, true⟩

/-- A BQ slot after reset (10_state.md R55). -/
def BqSlot.identity : BqSlot := ⟨Filter.identity, BqState.zero⟩

/-- The control registers after reset (70_reset_and_hazards.md R460). -/
def Regs.reset (p : Params) : Regs where
  rate       := 44100#32
  preamp     := Config.unityQ28
  volMult    := Config.unityQ28
  volIndex   := 0#7
  flags      := 0#3
  chBypass   := 0#5
  chMute     := 0#3
  gainL      := Config.unityQ28
  gainR      := Config.unityQ28
  gainSub    := Config.unityQ28
  delayL     := 0#13
  delayR     := 0#13
  delaySub   := 0#13
  chstat     := 0x00000004#32
  loudActive := 0#1
  spdifDiv   := spdifDivider p 44100
  pdmDiv     := pdmDivider p 44100

/-- The counters after reset (R460). -/
def Counters.zero : Counters := ⟨0#32, 0#32, 0#32, 0#32, 0#32, 0#32, 0#32⟩

/-- The PDM state after reset: PWI at TARGET_LEAD, so that the prefilled words are the first cushion (10_state.md R58). -/
def Pdm.reset (p : Params) : Pdm where
  err1   := 0#32
  err2   := 0#32
  pwi    := BitVec.ofNat 11 p.targetLead
  pri    := 0#11
  target := 32768#16
  mode   := .modulate
  ring   := []

/-- The S/PDIF state after reset (10_state.md R60). -/
def Spdif.reset : Spdif where
  pool    := []
  free    := [0, 1, 2, 3, 4, 5, 6, 7]
  ready   := []
  fill    := none
  silblk  := []
  running := false

/-- The packet context after reset (10_state.md R62). -/
def Packet.reset : Packet where
  first   := true
  n       := 0#16
  gapUs   := 0#32
  frames  := []
  act     := 0#1
  vi      := 0#7
  dropped := false
  pacc    := Peaks.zero

/-- The state after power-on with the parameters `p` (70_reset_and_hazards.md R460): every memory holds its reset contents,
so none lists an entry, and the streams, the port and the outside inputs are empty. -/
def State.resetWith (p : Params) : State where
  regs     := Regs.reset p
  cnt      := Counters.zero
  peaks    := Peaks.zero
  bq       := []
  loud     := []
  lstate   := ⟨BqState.zero, BqState.zero, BqState.zero, BqState.zero⟩
  xf       := ⟨0#32, 0#32, 0#32, 0#32, 0#32, 0#64, 0#64⟩
  pdm      := Pdm.reset p
  queue    := ⟨[], 0#8, 0#8⟩
  spdif    := Spdif.reset
  delay    := ⟨[], [], [], 0#13⟩
  pkt      := Packet.reset
  cmdSeq   := .idle
  txSeq    := .idle
  modSeq   := .start
  out      := ⟨[], [], []⟩
  port     := []
  par      := p
  sched    := []
  turn     := 0
  ditherIn := []
  draws    := 0

/-- The machine right after power-on, with the spec's default parameters (00_scope.md R7; log 6). -/
def State.reset : State := State.resetWith Params.default

end Sys2Proof.Machine
end

