-- ==== Sys2Proof/Machine/Flags.lean ====
section
/-! DEFINITION. Every flag the block computes or reads (10_state.md R63). -/

namespace Sys2Proof.Machine

/-- The number of a channel (00_scope.md R7). -/
def channelIndex : Channel → Nat
  | .masterL => 0
  | .masterR => 1
  | .outL    => 2
  | .outR    => 3
  | .sub     => 4

/-- LOUD_EN (10_state.md R40). -/
def loudEnabled (r : Regs) : Bool := r.flags.getLsbD 0

/-- XF_EN (10_state.md R40). -/
def xfEnabled (r : Regs) : Bool := r.flags.getLsbD 1

/-- MUTE (10_state.md R40). -/
def masterMuted (r : Regs) : Bool := r.flags.getLsbD 2

/-- The channel-level bypass flag of a channel (10_state.md R41). -/
def channelBypassed (r : Regs) (ch : Channel) : Bool := r.chBypass.getLsbD (channelIndex ch)

/-- The mute flags of OutL, OutR and Sub (10_state.md R42). -/
def mutedL (r : Regs) : Bool := r.chMute.getLsbD 0
def mutedR (r : Regs) : Bool := r.chMute.getLsbD 1
def mutedSub (r : Regs) : Bool := r.chMute.getLsbD 2

/-- The bypass bit of written coefficients: 1 exactly for the identity (46_control.md R385, R387; 90_conflicts.md C9). -/
def bypassOf (c : Coefs) : Bool := decide (c = Coefs.identity)

/-- A filter with its bypass bit computed (46_control.md R385, R387). -/
def filterOf (c : Coefs) : Filter := ⟨c, bypassOf c⟩

/-- The queue flag empty (44_pcm_pdm_queue.md R323). -/
def queueEmpty (q : Queue) : Bool := q.head == q.tail

/-- The queue flag full (44_pcm_pdm_queue.md R323). -/
def queueFull (q : Queue) : Bool := q.head + 1#8 == q.tail

/-- The number of stored messages (44_pcm_pdm_queue.md R323). -/
def queueCount (q : Queue) : Nat := (q.head - q.tail).toNat

/-- lead: the ring words written ahead of the DMA read index (45_pdm.md R342). -/
def lead (p : Pdm) : Nat := (p.pwi - p.pri).toNat

/-- The underrun condition of MOD_START; a lead of exactly 1024 is none (45_pdm.md R343). -/
def leadUnderrun (p : Pdm) : Bool := decide (1024 < lead p)

end Sys2Proof.Machine
end

