-- ==== Sys2Proof/Machine/Operands.lean ====
section
/-! DEFINITION. Every operand form of the commands: the register map with its numbers, access, legalisation, reads and
writes (10_state.md R34; 46_control.md R393), channel, band, shelf and step operands, and frame words. -/

namespace Sys2Proof.Machine

/-- The registers of the map (10_state.md R34). -/
inductive RegId where
  | id
  | rate
  | preamp
  | volMult
  | volIndex
  | flags
  | chBypass
  | chMute
  | gainL
  | gainR
  | gainSub
  | delayL
  | delayR
  | delaySub
  | chstat
  | loudActive
  | pktCount
  | spdifOverrun
  | usbUnderrun
  | ringOverrun
  | pdmUnderrun
  | spdifUnderrun
  | cmdInvalid
  | peakML
  | peakMR
  | peakOL
  | peakOR
  | peakSub
  | qstate
  | pdmPtrs
  | spdifPool
  | spdifDiv
  | pdmDiv
deriving DecidableEq, Repr

/-- The register numbers (10_state.md R34). -/
def regNum : RegId → BitVec 16
  | .id            => 0x00#16
  | .rate          => 0x01#16
  | .preamp        => 0x02#16
  | .volMult       => 0x03#16
  | .volIndex      => 0x04#16
  | .flags         => 0x05#16
  | .chBypass      => 0x06#16
  | .chMute        => 0x07#16
  | .gainL         => 0x08#16
  | .gainR         => 0x09#16
  | .gainSub       => 0x0A#16
  | .delayL        => 0x0B#16
  | .delayR        => 0x0C#16
  | .delaySub      => 0x0D#16
  | .chstat        => 0x0E#16
  | .loudActive    => 0x0F#16
  | .pktCount      => 0x10#16
  | .spdifOverrun  => 0x11#16
  | .usbUnderrun   => 0x12#16
  | .ringOverrun   => 0x13#16
  | .pdmUnderrun   => 0x14#16
  | .spdifUnderrun => 0x15#16
  | .cmdInvalid    => 0x16#16
  | .peakML        => 0x18#16
  | .peakMR        => 0x19#16
  | .peakOL        => 0x1A#16
  | .peakOR        => 0x1B#16
  | .peakSub       => 0x1C#16
  | .qstate        => 0x1D#16
  | .pdmPtrs       => 0x1E#16
  | .spdifPool     => 0x1F#16
  | .spdifDiv      => 0x20#16
  | .pdmDiv        => 0x21#16

/-- The rows of the register map, in its order (10_state.md R34). -/
def regTable : List RegId :=
  [.id, .rate, .preamp, .volMult, .volIndex, .flags, .chBypass, .chMute, .gainL, .gainR, .gainSub,
   .delayL, .delayR, .delaySub, .chstat, .loudActive, .pktCount, .spdifOverrun, .usbUnderrun, .ringOverrun,
   .pdmUnderrun, .spdifUnderrun, .cmdInvalid, .peakML, .peakMR, .peakOL, .peakOR, .peakSub,
   .qstate, .pdmPtrs, .spdifPool, .spdifDiv, .pdmDiv]

/-- The register a number names; the other numbers are reserved (10_state.md R34, R53). -/
def regOf (n : BitVec 16) : Option RegId := regTable.find? (fun r => regNum r == n)

/-- RW in the register map; every other register is RO (10_state.md R34). -/
def regWritable : RegId → Bool
  | .preamp | .volMult | .volIndex | .flags | .chBypass | .chMute
  | .gainL | .gainR | .gainSub | .delayL | .delayR | .delaySub | .chstat => true
  | .id | .rate | .loudActive | .pktCount | .spdifOverrun | .usbUnderrun | .ringOverrun | .pdmUnderrun
  | .spdifUnderrun | .cmdInvalid | .peakML | .peakMR | .peakOL | .peakOR | .peakSub
  | .qstate | .pdmPtrs | .spdifPool | .spdifDiv | .pdmDiv => false

/-- `min(v, hi)` of an unsigned word. -/
def minWord (v hi : Word) : Word := if v ≤ hi then v else hi

/-- LEGAL(n, v), the value a SET_REG stores; registers without a row of the table keep v, and SET_REG refuses them
(46_control.md R393). -/
def legal (r : RegId) (v : Word) : Word :=
  match r with
  | .volIndex => minWord v 90#32
  | .flags    => v &&& 0x7#32
  | .chBypass => v &&& 0x1F#32
  | .chMute   => v &&& 0x7#32
  | .delayL   => minWord v 8191#32
  | .delayR   => minWord v 8191#32
  | .delaySub => minWord v 8191#32
  | .id | .rate | .preamp | .volMult | .gainL | .gainR | .gainSub | .chstat | .loudActive
  | .pktCount | .spdifOverrun | .usbUnderrun | .ringOverrun | .pdmUnderrun | .spdifUnderrun | .cmdInvalid
  | .peakML | .peakMR | .peakOL | .peakOR | .peakSub | .qstate | .pdmPtrs | .spdifPool | .spdifDiv | .pdmDiv => v

/-- Store a legalised value in an RW register; an RO register is not written (10_state.md R34, 46_control.md R383). -/
def writeReg (r : RegId) (v : Word) (g : Regs) : Regs :=
  match r with
  | .preamp   => { g with preamp := v }
  | .volMult  => { g with volMult := v }
  | .volIndex => { g with volIndex := v.setWidth 7 }
  | .flags    => { g with flags := v.setWidth 3 }
  | .chBypass => { g with chBypass := v.setWidth 5 }
  | .chMute   => { g with chMute := v.setWidth 3 }
  | .gainL    => { g with gainL := v }
  | .gainR    => { g with gainR := v }
  | .gainSub  => { g with gainSub := v }
  | .delayL   => { g with delayL := v.setWidth 13 }
  | .delayR   => { g with delayR := v.setWidth 13 }
  | .delaySub => { g with delaySub := v.setWidth 13 }
  | .chstat   => { g with chstat := v }
  | .id | .rate | .loudActive | .pktCount | .spdifOverrun | .usbUnderrun | .ringOverrun | .pdmUnderrun
  | .spdifUnderrun | .cmdInvalid | .peakML | .peakMR | .peakOL | .peakOR | .peakSub
  | .qstate | .pdmPtrs | .spdifPool | .spdifDiv | .pdmDiv => g

/-- QSTATE: [7:0] QHEAD, [15:8] QTAIL (10_state.md R49). -/
def qstateView (q : Queue) : Word := (0#16 ++ q.tail ++ q.head : BitVec (16 + 8 + 8))

/-- PDM_PTRS: [10:0] PWI, [26:16] PRI (10_state.md R50). -/
def pdmPtrsView (p : Pdm) : Word := (0#5 ++ p.pri ++ 0#5 ++ p.pwi : BitVec (5 + 11 + 5 + 11))

/-- FILL.count, or 0 when no fill buffer is held (10_state.md R51). -/
def fillCount (d : Spdif) : Nat :=
  match d.fill with
  | none => 0
  | some f => f.2.val

/-- TX.seq = TX_RUN(SIL, p) (10_state.md R51). -/
def onSilence : TxSeq → Bool
  | .run .sil _ => true
  | .run (.buffer _) _ => false
  | .idle => false

/-- SPDIF_POOL: [3:0] |FREE|, [7:4] |READY|, [15:8] fill count, [16] fill valid, [17] TX_RUNNING, [18] on silence
(10_state.md R51). -/
def spdifPoolView (d : Spdif) (tx : TxSeq) : Word :=
  (0#13 ++ BitVec.ofBool (onSilence tx) ++ BitVec.ofBool d.running ++ BitVec.ofBool d.fill.isSome
    ++ BitVec.ofNat 8 (fillCount d) ++ BitVec.ofNat 4 d.ready.length ++ BitVec.ofNat 4 d.free.length
    : BitVec (13 + 1 + 1 + 1 + 8 + 4 + 4))

/-- REG[n]: what GET_REG answers; the views are computed at the read, and a bit no field names reads 0 (10_state.md R34). -/
def readReg (s : State) (r : RegId) : Word :=
  match r with
  | .id            => 0x44535069#32
  | .rate          => s.regs.rate
  | .preamp        => s.regs.preamp
  | .volMult       => s.regs.volMult
  | .volIndex      => s.regs.volIndex.setWidth 32
  | .flags         => s.regs.flags.setWidth 32
  | .chBypass      => s.regs.chBypass.setWidth 32
  | .chMute        => s.regs.chMute.setWidth 32
  | .gainL         => s.regs.gainL
  | .gainR         => s.regs.gainR
  | .gainSub       => s.regs.gainSub
  | .delayL        => s.regs.delayL.setWidth 32
  | .delayR        => s.regs.delayR.setWidth 32
  | .delaySub      => s.regs.delaySub.setWidth 32
  | .chstat        => s.regs.chstat
  | .loudActive    => s.regs.loudActive.setWidth 32
  | .pktCount      => s.cnt.pktCount
  | .spdifOverrun  => s.cnt.spdifOverrun
  | .usbUnderrun   => s.cnt.usbUnderrun
  | .ringOverrun   => s.cnt.ringOverrun
  | .pdmUnderrun   => s.cnt.pdmUnderrun
  | .spdifUnderrun => s.cnt.spdifUnderrun
  | .cmdInvalid    => s.cnt.cmdInvalid
  | .peakML        => s.peaks.masterL.setWidth 32
  | .peakMR        => s.peaks.masterR.setWidth 32
  | .peakOL        => s.peaks.outL.setWidth 32
  | .peakOR        => s.peaks.outR.setWidth 32
  | .peakSub       => s.peaks.sub.setWidth 32
  | .qstate        => qstateView s.queue
  | .pdmPtrs       => pdmPtrsView s.pdm
  | .spdifPool     => spdifPoolView s.spdif s.txSeq
  | .spdifDiv      => s.regs.spdifDiv.setWidth 32
  | .pdmDiv        => s.regs.pdmDiv.setWidth 32

/-- The channel a CH field names; 5 to 15 name none (30_encoding.md R141, R147). -/
def channelOf (ch : BitVec 4) : Option Channel :=
  if ch = 0#4 then some .masterL
  else if ch = 1#4 then some .masterR
  else if ch = 2#4 then some .outL
  else if ch = 3#4 then some .outR
  else if ch = 4#4 then some .sub
  else none

/-- The slot operand of BQ_WRITE and BQ_READ: a channel and a band below BANDS[ch], or none (46_control.md R385, R386). -/
def slotOf (p : Params) (ch band : BitVec 4) : Option (Channel × Nat) :=
  match channelOf ch with
  | none => none
  | some c => if band.toNat < p.bands c then some (c, band.toNat) else none

/-- The entry operand of LOUD_WRITE: shelf 0 or 1 and step 0 to 90, or none (46_control.md R387). -/
def loudEntryOf (shelf : BitVec 4) (volStep : BitVec 16) : Option (Nat × Nat) :=
  if shelf.toNat ≤ 1 ∧ volStep.toNat ≤ 90 then some (volStep.toNat, shelf.toNat) else none

/-- A PACKET's frame count is in 32..96 (41_ingest.md R205). -/
def packetCountOk (n : BitVec 16) : Bool := decide (32 ≤ n.toNat) && decide (n.toNat ≤ 96)

/-- The rate SET_RATE stores: an unsupported request is coerced to 44100 (46_control.md R390). -/
def supportedRate (r : Word) : Word :=
  if r = 44100#32 ∨ r = 48000#32 ∨ r = 96000#32 then r else 44100#32

/-- RATECODE(r), the sample-frequency code of channel status (10_state.md R45). -/
def rateCode (r : Word) : BitVec 4 :=
  if r = 48000#32 then 0x2#4 else if r = 96000#32 then 0xA#4 else 0x0#4

/-- CHSTAT with the rate code in bits [27:24] (46_control.md R390). -/
def withRateCode (chstat : Word) (code : BitVec 4) : Word :=
  (chstat.extractLsb' 28 4 ++ code ++ chstat.extractLsb' 0 24 : BitVec (4 + 4 + 24))

/-- The left sample of a frame word (20_memory.md R102, 41_ingest.md R204). -/
def frameLeft (w : Word) : BitVec 16 := w.extractLsb' 0 16

/-- The right sample of a frame word (20_memory.md R102, 41_ingest.md R204). -/
def frameRight (w : Word) : BitVec 16 := w.extractLsb' 16 16

end Sys2Proof.Machine
end

