-- ==== Sys2Proof/Machine/SpdifEnc.lean ====
section
/-! DEFINITION. The S/PDIF subframe formatter (43_spdif.md R270 to R278; 30_encoding.md R151 to R154), and the order in which
a word's bits leave on a pin (20_memory.md R104, R105). A cell or bit is a Bool; lists are in transmission order. -/

namespace Sys2Proof.Machine

/-- The preambles (30_encoding.md R152). -/
inductive Preamble where
  | z
  | x
  | y
deriving DecidableEq, Repr

/-- The eight cells of a preamble, for a preceding cell of 0 (30_encoding.md R152). -/
def preambleCells : Preamble → List Bool
  | .z => [true, true, true, false, true, false, false, false]
  | .x => [true, true, true, false, false, false, true, false]
  | .y => [true, true, true, false, false, true, false, false]

/-- The preamble of channel A in frame `k` of a block (43_spdif.md R276). -/
def preambleA (k : Nat) : Preamble := if k = 0 then .z else .x

/-- Slots 4 to 30: aux and the four low sample bits 0, the sample from slot 12 on, V, U, and C (43_spdif.md R270, R271). -/
def dataSlots (s : BitVec 16) (c : Bool) : List Bool :=
  List.replicate 8 false ++ (List.range 16).map (fun i => s.getLsbD i) ++ [false, false, c]

/-- P: the exclusive or of slots 4 to 30 (43_spdif.md R275). -/
def parityOf (slots : List Bool) : Bool := slots.foldl xor false

/-- Slots 4 to 31 (43_spdif.md R270). -/
def subframeSlots (s : BitVec 16) (c : Bool) : List Bool :=
  dataSlots s c ++ [parityOf (dataSlots s c)]

/-- Biphase-mark coding after a cell `lvl`: the first cell of a slot differs from the cell before it, and the second differs
from the first exactly for a 1 (43_spdif.md R273). -/
def bmc : Bool → List Bool → List Bool
  | _, [] => []
  | lvl, b :: bs => (!lvl) :: xor (!lvl) b :: bmc (xor (!lvl) b) bs

/-- ENC_SUBFRAME(s, pre, c): the 64 line cells (43_spdif.md R270). -/
def encSubframe (s : BitVec 16) (pre : Preamble) (c : Bool) : List Bool :=
  preambleCells pre ++ bmc false (subframeSlots s c)

/-- PACK: the first cell is bit 31 (43_spdif.md R277); a PDM word's first decision is bit 31 too (45_pdm.md R351). -/
def packWord (cells : List Bool) : Word :=
  BitVec.ofNat 32 (cells.foldl (fun a b => 2 * a + b.toNat) 0)

/-- A word's bits in the order they leave on a pin, bit 31 first (20_memory.md R104, R105). -/
def bitsOfWord (w : Word) : List Bool := (List.range 32).map (fun j => w.getLsbD (31 - j))

/-- cs(k): the channel-status bit of frame `k` of a block (43_spdif.md R272). -/
def csBit (chstat : Word) (k : Nat) : Bool := if k < 32 then chstat.getLsbD k else false

/-- Word `j` of the four words of a frame: channel A words 0 and 1, then channel B (43_spdif.md R277). -/
def encFrameWord (chstat : Word) (k : Nat) (l16 r16 : BitVec 16) : Nat → Word
  | 0 => packWord ((encSubframe l16 (preambleA k) (csBit chstat k)).take 32)
  | 1 => packWord ((encSubframe l16 (preambleA k) (csBit chstat k)).drop 32)
  | 2 => packWord ((encSubframe r16 .y (csBit chstat k)).take 32)
  | _ => packWord ((encSubframe r16 .y (csBit chstat k)).drop 32)

/-- ENC_FRAME(k, l16, r16) under CHSTAT (43_spdif.md R277). -/
def encFrame (chstat : Word) (k : Nat) (l16 r16 : BitVec 16) : List Word :=
  (List.range 4).map (encFrameWord chstat k l16 r16)

/-- Word `p` of ENC_ZERO_BLOCK under CHSTAT (43_spdif.md R278). -/
def zeroBlockWord (chstat : Word) (p : Nat) : Word := encFrameWord chstat (p / 4) 0#16 0#16 (p % 4)

/-- CHSTAT after reset, under which POOL and SILBLK hold the zero block (10_state.md R45, R60). -/
def resetChstat : Word := 0x00000004#32

end Sys2Proof.Machine
end

