-- ==== Sys2Proof/Machine/Ops.lean ====
section
/-! DEFINITION. The named operations over the block's state: raising an event, the response port and the pins, the memories,
the PCM->PDM queue, the S/PDIF pool's producer side, the dither source and the RESET of the whole block. -/

namespace Sys2Proof.Machine

/-! Events. The block takes no exception: this is its one shared way to treat an abnormal condition. -/

/-- The six events (60_exceptions.md R431). -/
inductive Event where
  | spdifOverrun
  | usbUnderrun
  | ringOverrun
  | pdmUnderrun
  | spdifUnderrun
  | cmdInvalid
deriving DecidableEq, Repr

/-- The counters with the one of an event advanced by 1 modulo 2^32 (60_exceptions.md R432). -/
def bump (e : Event) (c : Counters) : Counters :=
  match e with
  | .spdifOverrun  => { c with spdifOverrun := c.spdifOverrun + 1#32 }
  | .usbUnderrun   => { c with usbUnderrun := c.usbUnderrun + 1#32 }
  | .ringOverrun   => { c with ringOverrun := c.ringOverrun + 1#32 }
  | .pdmUnderrun   => { c with pdmUnderrun := c.pdmUnderrun + 1#32 }
  | .spdifUnderrun => { c with spdifUnderrun := c.spdifUnderrun + 1#32 }
  | .cmdInvalid    => { c with cmdInvalid := c.cmdInvalid + 1#32 }

/-- `raise Event(E)`: count it and go on; nothing is saved and control goes nowhere (60_exceptions.md R430, R432). -/
def raise (e : Event) (s : State) : State := { s with cnt := bump e s.cnt }

/-! The response port and the pins (00_scope.md R12, 10_state.md R64). -/

/-- `respond` for each word in order (00_scope.md R12, 30_encoding.md R148). -/
def respond (ws : List Word) (s : State) : State := { s with out := { s.out with resp := s.out.resp ++ ws } }

/-- `emit_spdif` of a word's 32 cells, bit 31 first (43_spdif.md R284). -/
def emitSpdif (w : Word) (s : State) : State := { s with out := { s.out with spdif := s.out.spdif ++ bitsOfWord w } }

/-- `emit_pdm` of a word's 32 bits, bit 31 first (45_pdm.md R354). -/
def emitPdm (w : Word) (s : State) : State := { s with out := { s.out with pdm := s.out.pdm ++ bitsOfWord w } }

/-- A refused command: CMD_INVALID, its full response length in zero words, and no other effect (30_encoding.md R147). -/
def refuseCommand (responseWords : Nat) (s : State) : State :=
  raise .cmdInvalid (respond (List.replicate responseWords 0#32) s)

/-! The memories (20_memory.md R100) and their reset contents. -/

/-- BQ: five channels of ten slots (10_state.md R55). -/
def bqShape : MemShape BqSlot := ⟨50, fun _ => BqSlot.identity⟩

/-- LOUD: two tables of 91 steps of two shelves (10_state.md R56). -/
def loudShape : MemShape Filter := ⟨364, fun _ => Filter.identity⟩

/-- A delay line DL[i] (10_state.md R61). -/
def lineShape : MemShape Word := ⟨8192, fun _ => 0#32⟩

/-- RING (10_state.md R66). -/
def ringShape : MemShape Word := ⟨2048, fun _ => Config.silenceWord⟩

/-- QBUF (10_state.md R59). -/
def queueShape : MemShape Msg := ⟨256, fun _ => ⟨0#32, false⟩⟩

/-- POOL: eight buffers of 768 words, each the zero block under the reset CHSTAT (10_state.md R60). -/
def poolShape : MemShape Word := ⟨6144, fun a => zeroBlockWord resetChstat (a % 768)⟩

/-- SILBLK: the zero block under the reset CHSTAT (10_state.md R60). -/
def silShape : MemShape Word := ⟨768, zeroBlockWord resetChstat⟩

/-- Where BQ[ch][b] is in the bank. -/
def bqIndex (ch : Channel) (b : Nat) : Nat := 10 * channelIndex ch + b

/-- Where LOUD[t][k][j] is in the table. -/
def loudIndex (t : BitVec 1) (k j : Nat) : Nat := (91 * t.toNat + k) * 2 + j

/-- Where POOL[id][p] is in the pool. -/
def poolIndex (id : Fin 8) (p : Nat) : Nat := 768 * id.val + p

/-- BQ[ch][b] (10_state.md R55). -/
def readBq (m : Mem BqSlot) (ch : Channel) (b : Nat) : BqSlot := Mem.read bqShape m (bqIndex ch b)

/-- BQ[ch][b] <- v (10_state.md R55). -/
def writeBq (m : Mem BqSlot) (ch : Channel) (b : Nat) (v : BqSlot) : Mem BqSlot := Mem.write bqShape m (bqIndex ch b) v

/-- LOUD[t][k][j] (10_state.md R56). -/
def readLoud (m : Mem Filter) (t : BitVec 1) (k j : Nat) : Filter := Mem.read loudShape m (loudIndex t k j)

/-- LOUD[t][k][j] <- v (10_state.md R56). -/
def writeLoud (m : Mem Filter) (t : BitVec 1) (k j : Nat) (v : Filter) : Mem Filter :=
  Mem.write loudShape m (loudIndex t k j) v

/-- DL[i][a] (10_state.md R61). -/
def readLine (m : Mem Word) (a : BitVec 13) : Word := Mem.read lineShape m a.toNat

/-- DL[i][a] <- v (10_state.md R61). -/
def writeLine (m : Mem Word) (a : BitVec 13) (v : Word) : Mem Word := Mem.write lineShape m a.toNat v

/-- RING[a] (10_state.md R66). -/
def readRing (m : Mem Word) (a : BitVec 11) : Word := Mem.read ringShape m a.toNat

/-- RING[a] <- v (10_state.md R66). -/
def writeRing (m : Mem Word) (a : BitVec 11) (v : Word) : Mem Word := Mem.write ringShape m a.toNat v

/-- QBUF[a] (10_state.md R59). -/
def readQueue (m : Mem Msg) (a : BitVec 8) : Msg := Mem.read queueShape m a.toNat

/-- QBUF[a] <- v (10_state.md R59). -/
def writeQueue (m : Mem Msg) (a : BitVec 8) (v : Msg) : Mem Msg := Mem.write queueShape m a.toNat v

/-- POOL[id][p] (10_state.md R60). -/
def readPool (m : Mem Word) (id : Fin 8) (p : Fin 768) : Word := Mem.read poolShape m (poolIndex id p.val)

/-- SILBLK[p] (10_state.md R60). -/
def readSil (m : Mem Word) (p : Fin 768) : Word := Mem.read silShape m p.val

/-- SILBLK <- ENC_ZERO_BLOCK(CHSTAT), all 768 words (43_spdif.md R286). -/
def rewriteSilblk (chstat : Word) (m : Mem Word) : Mem Word := Mem.writeRun silShape 0 (zeroBlockWord chstat) 768 m

/-- POOL[id][0..767] <- ENC_ZERO_BLOCK(CHSTAT) (43_spdif.md R282). -/
def writeZeroBlock (chstat : Word) (id : Fin 8) (m : Mem Word) : Mem Word :=
  Mem.writeRun poolShape (poolIndex id 0) (zeroBlockWord chstat) 768 m

/-- POOL[id][4k..4k+3] <- ENC_FRAME(k, l16, r16) under CHSTAT (43_spdif.md R280). -/
def writeFrame (chstat : Word) (id : Fin 8) (k : Fin 192) (l16 r16 : BitVec 16) (m : Mem Word) : Mem Word :=
  Mem.writeRun poolShape (poolIndex id (4 * k.val)) (encFrameWord chstat k.val l16 r16) 4 m

/-! The PCM->PDM queue (44_pcm_pdm_queue.md). -/

/-- QUEUE_PUSH(s, r): a full queue drops the message and raises RING_OVERRUN (R320, R321). -/
def queuePush (m : Msg) (s : State) : State :=
  if queueFull s.queue then raise .ringOverrun s
  else { s with queue := { s.queue with buf := writeQueue s.queue.buf s.queue.head m, head := s.queue.head + 1#8 } }

/-- The message QUEUE_POP returns (R322). -/
def queueFront (s : State) : Msg := readQueue s.queue.buf s.queue.tail

/-- QUEUE_POP's advance of the tail; the entry left behind is not cleared (R322). -/
def queueAdvance (s : State) : State := { s with queue := { s.queue with tail := s.queue.tail + 1#8 } }

/-! The S/PDIF pool's producer side (43_spdif.md R280 to R282). -/

/-- Encode a frame into buffer `id` as its frame `k`; the 192nd frame makes the buffer ready (R280). -/
def storeFrame (chstat : Word) (l16 r16 : BitVec 16) (id : Fin 8) (k : Fin 192) (d : Spdif) : Spdif :=
  if h : k.val + 1 < 192 then
    { d with pool := writeFrame chstat id k l16 r16 d.pool, fill := some (id, ⟨k.val + 1, h⟩) }
  else
    { d with pool := writeFrame chstat id k l16 r16 d.pool, fill := none, ready := d.ready ++ [id] }

/-- The pool after a frame is appended, or none when no fill buffer is held and FREE is empty (R280, R281). -/
def appendFrame (chstat : Word) (l16 r16 : BitVec 16) (d : Spdif) : Option Spdif :=
  match d.fill with
  | some f => some (storeFrame chstat l16 r16 f.1 f.2 d)
  | none =>
    match d.free with
    | [] => none
    | id :: rest => some (storeFrame chstat l16 r16 id 0 { d with free := rest })

/-- SPDIF_APPEND(l16, r16) under the current CHSTAT; a frame that finds no buffer is dropped (R280, R281). -/
def spdifAppend (l16 r16 : BitVec 16) (s : State) : State :=
  match appendFrame s.regs.chstat l16 r16 s.spdif with
  | none => { s with pkt := { s.pkt with dropped := true } }
  | some d => { s with spdif := d }

/-- One silent buffer from FREE to READY; nothing where FREE is empty (R282). -/
def prefillOne (chstat : Word) (d : Spdif) : Spdif :=
  match d.free with
  | [] => d
  | id :: rest => { d with free := rest, pool := writeZeroBlock chstat id d.pool, ready := d.ready ++ [id] }

/-- SPDIF_PREFILL(n) (R282). -/
def prefill (chstat : Word) : Nat → Spdif → Spdif
  | 0, d => d
  | n + 1, d => prefill chstat n (prefillOne chstat d)

/-- SPDIF_PREFILL(n) under the current CHSTAT (R282). -/
def spdifPrefill (n : Nat) (s : State) : State := { s with spdif := prefill s.regs.chstat n s.spdif }

/-! The dither source (45_pdm.md R349). -/

/-- The value `draw_dither()` returns: the next one supplied from outside, else the next of the free sequence, within
[-DITHER_MAX, DITHER_MAX] (R349; log 5). -/
def ditherValue (s : State) : Int :=
  let raw := match s.ditherIn with
    | [] => Config.ditherDraw s.draws
    | d :: _ => d
  clamp raw.toInt (-(s.par.ditherMax : Int)) s.par.ditherMax

/-- The sequence has moved on by one value (R349). -/
def ditherAdvance (s : State) : State :=
  match s.ditherIn with
  | [] => { s with draws := s.draws + 1 }
  | _ :: rest => { s with ditherIn := rest }

/-! RESET (46_control.md R382). -/

/-- Every element of state at its reset value but the three things RESET keeps: the output streams with the responses, and
the position in the command port. The arguments of the model and the outside inputs are no state of the block and stay
(R382; log 12). -/
def resetBlock (s : State) : State :=
  { State.resetWith s.par with
    out := s.out, port := s.port, sched := s.sched, turn := s.turn, ditherIn := s.ditherIn, draws := s.draws }

end Sys2Proof.Machine
end

