-- ==== Sys2Proof/Machine/Control.lean ====
section
/-! DEFINITION. The control commands (46_control.md): one meaning for each. Every one is a single atomic step that leaves
CMD.seq as it is (R380), and an operand out of range refuses the command (30_encoding.md R147). -/

namespace Sys2Proof.Machine

/-- NOP: no effect on any state (46_control.md R381). -/
def execNop (s : State) : Result := .next s

/-- RESET (R382). -/
def execReset (s : State) : Result := .next (resetBlock s)

/-- The control registers after CHSTAT changed are joined by a rewritten silence block (43_spdif.md R286). -/
def syncSilblk (s : State) : State :=
  { s with spdif := { s.spdif with silblk := rewriteSilblk s.regs.chstat s.spdif.silblk } }

/-- SET_REG of an RW register (R383). -/
def storeReg (r : RegId) (v : Word) (s : State) : State :=
  let t := { s with regs := writeReg r (legal r v) s.regs }
  if r = .chstat then syncSilblk t else t

/-- SET_REG: a reserved or RO register refuses it (R383, R393). -/
def execSetReg (reg : BitVec 16) (v : Word) (s : State) : Result :=
  match regOf reg with
  | none => .next (refuseCommand 0 s)
  | some r => if regWritable r then .next (storeReg r v s) else .next (refuseCommand 0 s)

/-- GET_REG: a reserved register answers 0 and raises CMD_INVALID (R384). -/
def execGetReg (reg : BitVec 16) (s : State) : Result :=
  match regOf reg with
  | none => .next (refuseCommand 1 s)
  | some r => .next (respond [readReg s r] s)

/-- BQ_WRITE: the coefficients, the bypass bit they give, and cleared states (R385). -/
def execBqWrite (ch band : BitVec 4) (b0 b1 b2 a1 a2 : Word) (s : State) : Result :=
  match slotOf s.par ch band with
  | none => .next (refuseCommand 0 s)
  | some p =>
    .next { s with bq := writeBq s.bq p.1 p.2 ⟨filterOf ⟨b0, b1, b2, a1, a2⟩, BqState.zero⟩ }

/-- The six response words of BQ_READ (R386). -/
def bqResponse (q : Filter) : List Word :=
  [q.coefs.b0, q.coefs.b1, q.coefs.b2, q.coefs.a1, q.coefs.a2, (BitVec.ofBool q.bypass).setWidth 32]

/-- BQ_READ (R386). -/
def execBqRead (ch band : BitVec 4) (s : State) : Result :=
  match slotOf s.par ch band with
  | none => .next (refuseCommand 6 s)
  | some p => .next (respond (bqResponse (readBq s.bq p.1 p.2).filter) s)

/-- LOUD_WRITE: one entry of the inactive table; LSTATE is not cleared (R387). -/
def execLoudWrite (shelf : BitVec 4) (volStep : BitVec 16) (b0 b1 b2 a1 a2 : Word) (s : State) : Result :=
  match loudEntryOf shelf volStep with
  | none => .next (refuseCommand 0 s)
  | some e =>
    .next { s with loud := writeLoud s.loud (1#1 - s.regs.loudActive) e.1 e.2 (filterOf ⟨b0, b1, b2, a1, a2⟩) }

/-- LOUD_FLIP (R388). -/
def execLoudFlip (s : State) : Result :=
  .next { s with regs := { s.regs with loudActive := 1#1 - s.regs.loudActive } }

/-- XF_WRITE: the three coefficients, and all four states cleared (R389). -/
def execXfWrite (lpA0 lpB1 apA : Word) (s : State) : Result :=
  .next { s with xf := ⟨lpA0, lpB1, apA, 0#32, 0#32, 0#64, 0#64⟩ }

/-- The control registers SET_RATE writes, for a supported rate (R390). -/
def rateRegs (p : Params) (r : Word) (g : Regs) : Regs :=
  { g with
    rate := r
    chstat := withRateCode g.chstat (rateCode r)
    spdifDiv := spdifDivider p r.toNat
    pdmDiv := pdmDivider p r.toNat }

/-- SET_RATE: an unsupported rate is coerced to 44100 with no event (R390). -/
def execSetRate (r : Word) (s : State) : Result :=
  .next (syncSilblk { s with regs := rateRegs s.par (supportedRate r) s.regs })

/-- PDM_MARK: QUEUE_PUSH(0, 1) (R391). -/
def execPdmMark (s : State) : Result := .next (queuePush ⟨0#32, true⟩ s)

/-- An undefined OP: CMD_INVALID, and no other effect; CMD has consumed its one word (30_encoding.md R146, R392). -/
def undefinedOp (s : State) : State := raise .cmdInvalid s

end Sys2Proof.Machine
end

