-- ==== Sys2Proof/Machine/Dsp.lean ====
section
/-! DEFINITION. The per-frame signal path (42_dsp_pipeline.md R220 to R239): one definition per stage, each a map of the
samples in flight and the state. -/

namespace Sys2Proof.Machine

/-- The working values of one frame step: the samples in flight and the state so far. They exist only inside one step
(10_state.md R32). -/
structure Flight where
  l   : Word
  r   : Word
  sub : Word
  st  : State
deriving DecidableEq, Repr

/-- NORM(v) = v * 2^IN_SHIFT (42_dsp_pipeline.md R222). -/
def normSample (v : BitVec 16) : Word := BitVec.ofInt 32 (v.toInt * 2 ^ Config.inShift)

/-- OUT16(x) (R237). -/
def out16 (x : Word) : BitVec 16 := sat 16 (asr x.toInt Config.inShift)

/-- The output of the biquad kernel (R225). -/
def kernelOut (c : Coefs) (st : BqState) (x : Word) : Word :=
  sat 32 (asr (c.b0.toInt * x.toInt + st.s1.toInt) Config.coefFrac)

/-- The states the biquad kernel leaves, from the saturated output and the old s2 (R225). -/
def kernelState (c : Coefs) (st : BqState) (x : Word) : BqState where
  s1 := wrap 64 (c.b1.toInt * x.toInt - c.a1.toInt * (kernelOut c st x).toInt + st.s2.toInt)
  s2 := wrap 64 (c.b2.toInt * x.toInt - c.a2.toInt * (kernelOut c st x).toInt)

/-- The output of BQ_STEP(q, st, x); a bypassed filter returns its input (R225, R226). -/
def bqOut (q : Filter) (st : BqState) (x : Word) : Word := if q.bypass then x else kernelOut q.coefs st x

/-- The states BQ_STEP(q, st, x) leaves; a bypassed filter touches none (R225, R226). -/
def bqState (q : Filter) (st : BqState) (x : Word) : BqState := if q.bypass then st else kernelState q.coefs st x

/-- The `n` bands of a channel from band `b` on, in increasing order: the bank and the sample after them (R227). -/
def runBands (ch : Channel) : Nat → Nat → Mem BqSlot → Word → Mem BqSlot × Word
  | 0, _, m, x => (m, x)
  | n + 1, b, m, x =>
    let slot := readBq m ch b
    if slot.filter.bypass then runBands ch n (b + 1) m x
    else
      runBands ch n (b + 1) (writeBq m ch b { slot with st := bqState slot.filter slot.st x })
        (bqOut slot.filter slot.st x)

/-- CHAIN(ch, x): the bank and the sample after the channel's cascade (R227). -/
def chain (ch : Channel) (s : State) (x : Word) : Mem BqSlot × Word :=
  if channelBypassed s.regs ch then (s.bq, x) else runBands ch (s.par.bands ch) 0 s.bq x

/-- The five observation points of the peak meters (R238). -/
inductive PeakPoint where
  | masterL
  | masterR
  | outL
  | outR
  | sub
deriving DecidableEq, Repr

/-- The 16-bit-scale magnitude of a sample: min(32767, asr(|x|, IN_SHIFT)) (R238). -/
def peakOf (x : Word) : BitVec 16 := BitVec.ofNat 16 (min 32767 (x.toInt.natAbs / 2 ^ Config.inShift))

/-- The larger of two unsigned peak values. -/
def maxPeak (a b : BitVec 16) : BitVec 16 := if a ≤ b then b else a

/-- The peak accumulators after PEAK_UPDATE(i, x) (R238). -/
def peakUpdate (i : PeakPoint) (x : Word) (p : Peaks) : Peaks :=
  match i with
  | .masterL => { p with masterL := maxPeak p.masterL (peakOf x) }
  | .masterR => { p with masterR := maxPeak p.masterR (peakOf x) }
  | .outL    => { p with outL := maxPeak p.outL (peakOf x) }
  | .outR    => { p with outR := maxPeak p.outR (peakOf x) }
  | .sub     => { p with sub := maxPeak p.sub (peakOf x) }

/-- Step 1: the frame word's samples at the signal scale (R220, R222; 41_ingest.md R204). -/
def stageNorm (w : Word) (s : State) : Flight where
  l   := normSample (frameLeft w)
  r   := normSample (frameRight w)
  sub := 0#32
  st  := s

/-- Step 2: the preamp (R223). -/
def stagePreamp (f : Flight) : Flight :=
  { f with l := mulq f.l f.st.regs.preamp, r := mulq f.r f.st.regs.preamp }

/-- LOUDNESS(L, R): low shelf, then high shelf, with the table and row latched at packet start (R224). -/
def loudness (f : Flight) : Flight :=
  let low := readLoud f.st.loud f.st.pkt.act f.st.pkt.vi.toNat 0
  let high := readLoud f.st.loud f.st.pkt.act f.st.pkt.vi.toNat 1
  let l1 := bqOut low f.st.lstate.lowL f.l
  let r1 := bqOut low f.st.lstate.lowR f.r
  { f with
    l := bqOut high f.st.lstate.highL l1
    r := bqOut high f.st.lstate.highR r1
    st := { f.st with
      lstate :=
        { lowL := bqState low f.st.lstate.lowL f.l
          highL := bqState high f.st.lstate.highL l1
          lowR := bqState low f.st.lstate.lowR f.r
          highR := bqState high f.st.lstate.highR r1 } } }

/-- Step 3: loudness, if enabled (R220, R224). -/
def stageLoudness (f : Flight) : Flight := if loudEnabled f.st.regs then loudness f else f

/-- One channel's cascade on the left sample. -/
def chainL (ch : Channel) (f : Flight) : Flight :=
  { f with l := (chain ch f.st f.l).2, st := { f.st with bq := (chain ch f.st f.l).1 } }

/-- One channel's cascade on the right sample. -/
def chainR (ch : Channel) (f : Flight) : Flight :=
  { f with r := (chain ch f.st f.r).2, st := { f.st with bq := (chain ch f.st f.r).1 } }

/-- One channel's cascade on the Sub sample. -/
def chainSub (ch : Channel) (f : Flight) : Flight :=
  { f with sub := (chain ch f.st f.sub).2, st := { f.st with bq := (chain ch f.st f.sub).1 } }

/-- Step 4: the master EQ (R228). -/
def stageMasterEq (f : Flight) : Flight := chainR .masterR (chainL .masterL f)

/-- PACC after PEAK_UPDATE(i, x) (R238). -/
def meter (i : PeakPoint) (x : Word) (s : State) : State :=
  { s with pkt := { s.pkt with pacc := peakUpdate i x s.pkt.pacc } }

/-- The master observation points (R220, R238). -/
def stageMeterMaster (f : Flight) : Flight :=
  { f with st := meter .masterR f.r (meter .masterL f.l f.st) }

/-- LP(c, x): the lowpass output, which is also the new state XLP[c] (R229). -/
def lpOut (x : Crossfeed) (state v : Word) : Word :=
  sat 32 (asr (x.lpA0.toInt * v.toInt + x.lpB1.toInt * state.toInt) Config.coefFrac)

/-- AP(c, x): the all-pass output (R230). -/
def apOut (x : Crossfeed) (state : BitVec 64) (v : Word) : Word :=
  sat 32 (asr (x.apA.toInt * v.toInt + state.toInt) Config.coefFrac)

/-- AP(c, x): the new state XAP[c] (R230). -/
def apState (x : Crossfeed) (state : BitVec 64) (v : Word) : BitVec 64 :=
  wrap 64 (v.toInt * 2 ^ Config.coefFrac - x.apA.toInt * (apOut x state v).toInt)

/-- CROSSFEED(L, R) (R231). -/
def crossfeed (f : Flight) : Flight :=
  let x := f.st.xf
  let lL := lpOut x x.lpL f.l
  let lR := lpOut x x.lpR f.r
  let cL := apOut x x.apL lL
  let cR := apOut x x.apR lR
  { f with
    l := sat 32 (f.l.toInt - lL.toInt + cR.toInt)
    r := sat 32 (f.r.toInt - lR.toInt + cL.toInt)
    st := { f.st with
      xf := { x with lpL := lL, lpR := lR, apL := apState x x.apL lL, apR := apState x x.apR lR } } }

/-- Step 5: crossfeed, if enabled (R220, R231). -/
def stageCrossfeed (f : Flight) : Flight := if xfEnabled f.st.regs then crossfeed f else f

/-- S <- asr(L + R, 1), from the exact sum (R232). -/
def splitSub (l r : Word) : Word := BitVec.ofInt 32 (asr (l.toInt + r.toInt) 1)

/-- Step 6: the output split (R232). -/
def stageSplit (f : Flight) : Flight := { f with sub := splitSub f.l f.r }

/-- Step 7: the output EQ (R233). -/
def stageOutputEq (f : Flight) : Flight := chainSub .sub (chainR .outR (chainL .outL f))

/-- A muted output emits zero, any other its product with the gain (R234, R235). -/
def muteOrScale (muted : Bool) (gain x : Word) : Word := if muted then 0#32 else mulq x gain

/-- Step 8: the per-output gains and mutes (R234). -/
def stageGainMute (f : Flight) : Flight :=
  { f with
    l := muteOrScale (mutedL f.st.regs) f.st.regs.gainL f.l
    r := muteOrScale (mutedR f.st.regs) f.st.regs.gainR f.r
    sub := muteOrScale (mutedSub f.st.regs) f.st.regs.gainSub f.sub }

/-- Step 9: the master volume and the master mute (R235). -/
def stageMasterVolume (f : Flight) : Flight :=
  { f with
    l := muteOrScale (masterMuted f.st.regs) f.st.regs.volMult f.l
    r := muteOrScale (masterMuted f.st.regs) f.st.regs.volMult f.r
    sub := muteOrScale (masterMuted f.st.regs) f.st.regs.volMult f.sub }

/-- dS: the Sub delay with its alignment offset (R236). -/
def subDelay (s : State) : BitVec 13 := BitVec.ofNat 13 (min 8191 (s.regs.delaySub.toNat + s.par.subAlign))

/-- One delay line after the write of a frame (R236). -/
def lineAfter (m : Mem Word) (dw : BitVec 13) (x : Word) : Mem Word := writeLine m dw x

/-- What a delay line returns for a frame: the write comes before the read (R236). -/
def lineOut (m : Mem Word) (dw d : BitVec 13) (x : Word) : Word := readLine (lineAfter m dw x) (dw - d)

/-- Step 10: the delay lines (R236). -/
def stageDelay (f : Flight) : Flight :=
  let e := f.st.delay
  { l := lineOut e.lineL e.dw f.st.regs.delayL f.l
    r := lineOut e.lineR e.dw f.st.regs.delayR f.r
    sub := lineOut e.lineSub e.dw (subDelay f.st) f.sub
    st := { f.st with
      delay :=
        { lineL := lineAfter e.lineL e.dw f.l
          lineR := lineAfter e.lineR e.dw f.r
          lineSub := lineAfter e.lineSub e.dw f.sub
          dw := e.dw + 1#13 } } }

/-- The output observation points (R220, R238). -/
def stageMeterOut (f : Flight) : Flight :=
  { f with st := meter .sub f.sub (meter .outR f.r (meter .outL f.l f.st)) }

/-- The samples and the state when the frame reaches its two handoffs (R220). -/
def signalPath (w : Word) (s : State) : Flight :=
  stageMeterOut (stageDelay (stageMasterVolume (stageGainMute (stageOutputEq (stageSplit (stageCrossfeed
    (stageMeterMaster (stageMasterEq (stageLoudness (stagePreamp (stageNorm w s)))))))))))

/-- The two handoffs: append the frame to the S/PDIF fill buffer, then push the Sub sample (R237, R239). -/
def handoff (f : Flight) : State :=
  queuePush ⟨f.sub, false⟩ (spdifAppend (out16 f.l) (out16 f.r) f.st)

/-- FRAME(w): the whole per-frame signal path (R220). -/
def frame (w : Word) (s : State) : State := handoff (signalPath w s)

end Sys2Proof.Machine
end

