-- ==== Sys2Proof/Machine/Ingest.lean ====
section
/-! DEFINITION. Packet ingest (41_ingest.md): the PACKET command, whose meaning is the packet start step, and the frame and end
steps CMD takes after it. -/

namespace Sys2Proof.Machine

/-- The gap part of the packet start step: prefill on the first packet or after more than 50 ms, else count a gap of 2 ms to
50 ms (41_ingest.md R201). -/
def packetGap (gapUs : Word) (s : State) : State :=
  if s.pkt.first = true ∨ 50000 < gapUs.toNat then
    let t := spdifPrefill 2 s
    { t with pkt := { t.pkt with first := false } }
  else if 2000 ≤ gapUs.toNat then raise .usbUnderrun s
  else s

/-- PKT_COUNT advanced by 1 modulo 2^32 (41_ingest.md R201). -/
def countPacket (s : State) : State := { s with cnt := { s.cnt with pktCount := s.cnt.pktCount + 1#32 } }

/-- The packet's words, table and row latched, its drop flag and peaks cleared, and CMD.seq at the first frame
(41_ingest.md R200, R201). -/
def latchPacket (n : BitVec 16) (gapUs : Word) (frames : List Word) (s : State) : State :=
  { s with
    pkt := { s.pkt with
      n := n, gapUs := gapUs, frames := frames, act := s.regs.loudActive, vi := s.regs.volIndex,
      dropped := false, pacc := Peaks.zero }
    cmdSeq := .pktFrame 0 }

/-- PACKET: the packet start step, or the refusal of a frame count outside 32..96 (41_ingest.md R200, R201, R205). -/
def execPacket (n : BitVec 16) (gapUs : Word) (frames : List Word) (s : State) : Result :=
  if packetCountOk n then .next (latchPacket n gapUs frames (packetGap gapUs (countPacket s)))
  else .next (refuseCommand 0 s)

/-- Frame word f[k] of the current packet (10_state.md R62); beyond the packet's words, where no run goes, a zero word
(log 15). -/
def frameWord (p : Packet) (k : Nat) : Word := p.frames.getD k 0#32

/-- The frame step PKT_FRAME(k) (41_ingest.md R202). -/
def frameStep (k : Nat) (s : State) : State :=
  { frame (frameWord s.pkt k) s with
    cmdSeq := if k + 1 < s.pkt.n.toNat then .pktFrame (k + 1) else .pktEnd }

/-- The packet's peaks published (41_ingest.md R203). -/
def publishPeaks (s : State) : State := { s with peaks := s.pkt.pacc }

/-- The packet end step PKT_END (41_ingest.md R203). -/
def endStep (s : State) : State :=
  let t := publishPeaks s
  let u := if t.pkt.dropped then raise .spdifOverrun t else t
  { u with cmdSeq := .idle }

end Sys2Proof.Machine
end

