-- ==== Sys2Proof/Machine/Dispatch.lean ====
section
/-! DEFINITION. One arm for each command of spec/opcode_table.json. -/

namespace Sys2Proof.Machine

open Sys2Proof

def exec (i : Instr) (s : State) : Host.Outcome State Fault Refusal :=
  match i with
  | .nop => Sys2Proof.Machine.execNop s
  | .reset => Sys2Proof.Machine.execReset s
  | .setReg reg v => Sys2Proof.Machine.execSetReg reg v s
  | .getReg reg => Sys2Proof.Machine.execGetReg reg s
  | .bqWrite ch band b0 b1 b2 a1 a2 => Sys2Proof.Machine.execBqWrite ch band b0 b1 b2 a1 a2 s
  | .bqRead ch band => Sys2Proof.Machine.execBqRead ch band s
  | .loudWrite shelf k b0 b1 b2 a1 a2 => Sys2Proof.Machine.execLoudWrite shelf k b0 b1 b2 a1 a2 s
  | .loudFlip => Sys2Proof.Machine.execLoudFlip s
  | .xfWrite lpA0 lpB1 apA => Sys2Proof.Machine.execXfWrite lpA0 lpB1 apA s
  | .setRate r => Sys2Proof.Machine.execSetRate r s
  | .packet n gap frames => Sys2Proof.Machine.execPacket n gap frames s
  | .pdmMark => Sys2Proof.Machine.execPdmMark s

end Sys2Proof.Machine
end

