-- ==== Sys2Proof/Machine/Modulator.lean ====
section
/-! DEFINITION. The modulator agent PDM_MOD and the ring reader PDM_DMA (45_pdm.md). -/

namespace Sys2Proof.Machine

/-- Underrun recovery: integrators zeroed, PWI at PRI + TARGET_LEAD, PDM_UNDERRUN raised (45_pdm.md R343). -/
def recoverUnderrun (s : State) : State :=
  raise .pdmUnderrun
    { s with pdm := { s.pdm with
        err1 := 0#32, err2 := 0#32, pwi := s.pdm.pri + BitVec.ofNat 11 s.par.targetLead } }

/-- pcm: the queue sample on the 16-bit scale, limited to +-CLIP (R340, R346). -/
def pcmOf (p : Params) (sample : Word) : Int :=
  clamp (asr sample.toInt Config.inShift) (-(p.clip : Int)) p.clip

/-- target = pcm + 32768 (R347). -/
def targetOf (p : Params) (sample : Word) : BitVec 16 := BitVec.ofInt 16 (pcmOf p sample + 32768)

/-- A sample is acquired: its target and mode are latched and its first chunk comes next (R344). -/
def beginSample (target : BitVec 16) (mode : ModMode) (s : State) : State :=
  { s with pdm := { s.pdm with target := target, mode := mode }, modSeq := .chunk 0 }

/-- RESET_MSG(): integrators zeroed and one sample of silence (R345). -/
def resetMessage (s : State) : State :=
  beginSample 32768#16 .silence { s with pdm := { s.pdm with err1 := 0#32, err2 := 0#32 } }

/-- What MOD_START does with the message it popped (R344). -/
def takeMessage (m : Msg) (s : State) : State :=
  if m.reset then resetMessage s else beginSample (targetOf s.par m.sample) .modulate s

/-- MOD_START after the underrun test: pop, or synthesize a zero below the cushion, or acquire nothing; `l` is the lead the
rest of the step uses (R344). -/
def acquire (l : Nat) (s : State) : State :=
  if queueEmpty s.queue then
    if l < s.par.targetLead then beginSample 32768#16 .modulate s else s
  else takeMessage (queueFront s) (queueAdvance s)

/-- The MOD_START step (R344); after a recovery the lead counts as TARGET_LEAD (R343). -/
def modStart (s : State) : State :=
  if leadUnderrun s.pdm then acquire s.par.targetLead (recoverUnderrun s) else acquire (lead s.pdm) s

/-- MOD_START is enabled (R344). -/
def modStartEnabled (s : State) : Bool :=
  !queueEmpty s.queue || decide (lead s.pdm < s.par.targetLead) || leadUnderrun s.pdm

/-- The comparator: 1 exactly when err2 + d >= 0, on the exact sum (R350). -/
def comparator (err2 : Word) (d : Int) : Bool := decide (0 ≤ err2.toInt + d)

/-- The feedback level of a decision (R350). -/
def feedback (bit : Bool) : Int := if bit then 65535 else 0

/-- The first integrator after a decision (R350). -/
def nextErr1 (target : BitVec 16) (err1 : Word) (bit : Bool) : Word :=
  wrap 32 (err1.toInt + target.toNat - feedback bit)

/-- The second integrator after a decision, from the first one just written (R350; 00_scope.md R13). -/
def nextErr2 (target : BitVec 16) (err1 err2 : Word) (bit : Bool) : Word :=
  wrap 32 (err2.toInt + (nextErr1 target err1 bit).toInt - feedback bit)

/-- The decisions of a chunk in time order, and the integrators after them. -/
structure Decisions where
  bits : List Bool
  err1 : Word
  err2 : Word
deriving DecidableEq, Repr

/-- `n` decisions with one dither value (R348, R350). -/
def decisions (target : BitVec 16) (d : Int) : Nat → Word → Word → Decisions
  | 0, e1, e2 => ⟨[], e1, e2⟩
  | n + 1, e1, e2 =>
    let bit := comparator e2 d
    let rest := decisions target d n (nextErr1 target e1 bit) (nextErr2 target e1 e2 bit)
    ⟨bit :: rest.bits, rest.err1, rest.err2⟩

/-- One leak of an integrator value: v - asr(v, 16) (R352). -/
def leakValue (v : Word) : Word := wrap 32 (v.toInt - asr v.toInt Config.leakShift)

/-- LEAK() (R352). -/
def leak (s : State) : State :=
  { s with pdm := { s.pdm with err1 := leakValue s.pdm.err1, err2 := leakValue s.pdm.err2 } }

/-- RING[PWI] <- w and PWI advanced (R351). -/
def storeChunk (w : Word) (s : State) : State :=
  { s with pdm := { s.pdm with ring := writeRing s.pdm.ring s.pdm.pwi w, pwi := s.pdm.pwi + 1#11 } }

/-- The chunk's word: 32 decisions and the integrators they leave, or the silence word with no draw and no update
(R345, R348). -/
def produceChunk (s : State) : State :=
  match s.pdm.mode with
  | .silence => storeChunk Config.silenceWord s
  | .modulate =>
    let r := decisions s.pdm.target (ditherValue s) 32 s.pdm.err1 s.pdm.err2
    let t := ditherAdvance s
    storeChunk (packWord r.bits) { t with pdm := { t.pdm with err1 := r.err1, err2 := r.err2 } }

/-- After the eighth chunk: the leak of a modulated sample, and back to MOD_START (R348, R352, R353). -/
def finishSample (s : State) : State :=
  { (match s.pdm.mode with
     | .modulate => leak s
     | .silence => s) with modSeq := .start }

/-- The MOD_CHUNK(c) step (R348). -/
def modChunk (c : Fin 8) (s : State) : State :=
  if h : c.val + 1 < 8 then { produceChunk s with modSeq := .chunk ⟨c.val + 1, h⟩ }
  else finishSample (produceChunk s)

/-- The PDM_MOD step (R344, R348). -/
def modStep (s : State) : State :=
  match s.modSeq with
  | .start => modStart s
  | .chunk c => modChunk c s

/-- The PDM_DMA step: 32 bits on the pin, and PRI advanced (R354). -/
def dmaStep (s : State) : State :=
  let t := emitPdm (readRing s.pdm.ring s.pdm.pri) s
  { t with pdm := { t.pdm with pri := t.pdm.pri + 1#11 } }

end Sys2Proof.Machine
end

