-- ==== Sys2Proof/Machine/Transmit.lean ====
section
/-! DEFINITION. The transmitter agent SPDIF_TX (43_spdif.md R283 to R285). -/

namespace Sys2Proof.Machine

/-- The TX_IDLE step; with READY empty it is not enabled and nothing changes (43_spdif.md R283). -/
def txStart (s : State) : State :=
  match s.spdif.ready with
  | [] => s
  | id :: rest =>
    { s with spdif := { s.spdif with ready := rest, running := true }, txSeq := .run (.buffer id) 0 }

/-- The finished buffer goes back to FREE; the silence block is no buffer (R285). -/
def releaseSource (src : TxSrc) (s : State) : State :=
  match src with
  | .sil => s
  | .buffer id => { s with spdif := { s.spdif with free := s.spdif.free ++ [id] } }

/-- The next block: the head of READY, or the silence block with SPDIF_UNDERRUN (R285). -/
def nextBlock (s : State) : State :=
  match s.spdif.ready with
  | [] => { raise .spdifUnderrun s with txSeq := .run .sil 0 }
  | id :: rest => { s with spdif := { s.spdif with ready := rest }, txSeq := .run (.buffer id) 0 }

/-- BLOCK_DONE(src) (R285). -/
def blockDone (src : TxSrc) (s : State) : State := nextBlock (releaseSource src s)

/-- The word TX_RUN(src, p) sends (R284). -/
def txWord (src : TxSrc) (p : Fin 768) (s : State) : Word :=
  match src with
  | .sil => readSil s.spdif.silblk p
  | .buffer id => readPool s.spdif.pool id p

/-- The TX_RUN(src, p) step (R284). -/
def txRun (src : TxSrc) (p : Fin 768) (s : State) : State :=
  let t := emitSpdif (txWord src p s) s
  if h : p.val + 1 < 768 then { t with txSeq := .run src ⟨p.val + 1, h⟩ } else blockDone src t

/-- The SPDIF_TX step (R283, R284). -/
def txStep (s : State) : State :=
  match s.txSeq with
  | .idle => txStart s
  | .run src p => txRun src p s

end Sys2Proof.Machine
end

