-- ==== Sys2Proof/Machine/Agents.lean ====
section
/-! DEFINITION. The four agents: when each is enabled, what one step of each does, and whose turn it is (10_state.md R30;
20_memory.md R112; 60_exceptions.md R440, R441). -/

namespace Sys2Proof.Machine

/-- The command port's words are waiting in IDLE: an undefined OP or a whole command (46_control.md R380). -/
def commandReady (ws : List Word) : Bool :=
  match decode ws with
  | .command _ _ => true
  | .undefinedOp _ _ => true
  | .incomplete => false

/-- CMD in IDLE: consume one command's words and run it, or wait (46_control.md R380; 60_exceptions.md R443). -/
def cmdIdle (s : State) : Result :=
  match decode s.port with
  | .command i rest => exec i { s with port := rest }
  | .undefinedOp _ rest => .next (undefinedOp { s with port := rest })
  | .incomplete => .next s

/-- The CMD step (10_state.md R31; 41_ingest.md R200). -/
def cmdStep (s : State) : Result :=
  match s.cmdSeq with
  | .idle => cmdIdle s
  | .pktFrame k => .next (frameStep k s)
  | .pktEnd => .next (endStep s)

/-- The agent has an enabled step (60_exceptions.md R441). -/
def enabled (a : Agent) (s : State) : Bool :=
  match a with
  | .cmd =>
    match s.cmdSeq with
    | .idle => commandReady s.port
    | .pktFrame _ => true
    | .pktEnd => true
  | .spdifTx =>
    match s.txSeq with
    | .idle => !s.spdif.ready.isEmpty
    | .run _ _ => true
  | .pdmMod =>
    match s.modSeq with
    | .start => modStartEnabled s
    | .chunk _ => true
  | .pdmDma => true

/-- The step of an agent; one with no enabled step waits and loses no state (60_exceptions.md R443; log 2). -/
def agentStep (a : Agent) (s : State) : Result :=
  if enabled a s then
    match a with
    | .cmd => cmdStep s
    | .spdifTx => .next (txStep s)
    | .pdmMod => .next (modStep s)
    | .pdmDma => .next (dmaStep s)
  else .next s

/-- The agent a number of the free schedule stands for. -/
def agentOf (c : BitVec 2) : Agent :=
  if c = 0#2 then .cmd else if c = 1#2 then .spdifTx else if c = 2#2 then .pdmMod else .pdmDma

/-- Whose turn it is: any agent may be next (20_memory.md R112; log 1). -/
def nextAgent (s : State) : Agent :=
  match s.sched with
  | [] => agentOf (Config.scheduleChoice s.turn)
  | a :: _ => a

/-- The turn is taken (log 1). -/
def takeTurn (s : State) : State :=
  match s.sched with
  | [] => { s with turn := s.turn + 1 }
  | _ :: rest => { s with sched := rest }

/-- The host delivers words on the command port: not a step of the machine (20_memory.md R101; log 4). -/
def State.deliver (s : State) (ws : List Word) : State := { s with port := s.port ++ ws }

end Sys2Proof.Machine
end

