-- ==== Sys2Proof/Machine/Step.lean ====
section
/-! DEFINITION. One step of the block: the agent whose turn it is takes one atomic step (20_memory.md R112). -/

namespace Sys2Proof.Machine

/-- One step (20_memory.md R112). -/
def step (s : State) : Host.Outcome State Fault Refusal := agentStep (nextAgent s) (takeTurn s)

/-- The state in which CMD has the next turn, is in IDLE, and finds the command with the bits `w` at the head of its port,
followed by what the port held (log 19). -/
def State.withFetchWord (s : State) (nbits w : Nat) : State :=
  { s with port := instructionWords nbits w ++ s.port, cmdSeq := .idle, sched := .cmd :: s.sched }

end Sys2Proof.Machine
end

