-- ==== Sys2Proof/Safety.lean ====
section
/-! DEFINITION. What counts as a good state of the block and the words the statements use: the invariants the spec states of
its state, what a run of turns does, and the abstract readings of the queue and of the line cells. -/

namespace Sys2Proof.Machine

/-! The invariants. -/

/-- Every memory is in its canonical form (log 9). -/
def memoriesWf (s : State) : Prop :=
  Mem.wf bqShape s.bq = true ∧ Mem.wf loudShape s.loud = true ∧ Mem.wf ringShape s.pdm.ring = true
    ∧ Mem.wf queueShape s.queue.buf = true ∧ Mem.wf poolShape s.spdif.pool = true
    ∧ Mem.wf silShape s.spdif.silblk = true ∧ Mem.wf lineShape s.delay.lineL = true
    ∧ Mem.wf lineShape s.delay.lineR = true ∧ Mem.wf lineShape s.delay.lineSub = true

/-- The buffer CMD is filling, as a list. -/
def fillOwner (s : State) : List (Fin 8) :=
  match s.spdif.fill with
  | none => []
  | some f => [f.1]

/-- The buffer SPDIF_TX is sending, as a list. -/
def txOwner (s : State) : List (Fin 8) :=
  match s.txSeq with
  | .idle => []
  | .run .sil _ => []
  | .run (.buffer id) _ => [id]

/-- Every place that holds a buffer id: FREE, READY, FILL and TX.seq (10_state.md R60). -/
def bufferOwners (s : State) : List (Fin 8) := s.spdif.free ++ s.spdif.ready ++ fillOwner s ++ txOwner s

/-- Each buffer id is in exactly one of FREE, READY, FILL or TX.seq (10_state.md R60, 43_spdif.md R288). -/
def poolPartition (s : State) : Prop := ∀ id : Fin 8, (bufferOwners s).count id = 1

/-- TX_RUNNING is set exactly when the transmitter has left TX_IDLE (43_spdif.md R283). -/
def txFlagOk (s : State) : Prop := s.spdif.running = true ↔ s.txSeq ≠ .idle

/-- SILBLK equals ENC_ZERO_BLOCK under the current CHSTAT (43_spdif.md R286). -/
def silblkCurrent (s : State) : Prop := ∀ p : Fin 768, readSil s.spdif.silblk p = zeroBlockWord s.regs.chstat p.val

/-- bypass == true exactly for the identity coefficients (10_state.md R55, R56). -/
def bypassExact (s : State) : Prop :=
  (∀ a, (Mem.read bqShape s.bq a).filter.bypass = true ↔ (Mem.read bqShape s.bq a).filter.coefs = Coefs.identity)
    ∧ ∀ a, (Mem.read loudShape s.loud a).bypass = true ↔ (Mem.read loudShape s.loud a).coefs = Coefs.identity

/-- No peak exceeds 32767 (10_state.md R48). -/
def peaksOk (p : Peaks) : Prop :=
  p.masterL.toNat ≤ 32767 ∧ p.masterR.toNat ≤ 32767 ∧ p.outL.toNat ≤ 32767 ∧ p.outR.toNat ≤ 32767 ∧ p.sub.toNat ≤ 32767

/-- The registers with fewer legal values than bits hold a legal one: RATE, VOL_INDEX and its latched copy, MOD.target and
the peaks (10_state.md R36, R39, R48, R58). -/
def rangesOk (s : State) : Prop :=
  (s.regs.rate = 44100#32 ∨ s.regs.rate = 48000#32 ∨ s.regs.rate = 96000#32)
    ∧ s.regs.volIndex.toNat ≤ 90 ∧ s.pkt.vi.toNat ≤ 90 ∧ s.pdm.target ≠ 0#16 ∧ peaksOk s.peaks ∧ peaksOk s.pkt.pacc

/-- A packet in progress has an accepted frame count and that many frame words, and its frame index is below the count
(10_state.md R31, R62; 41_ingest.md R205). -/
def packetOk (s : State) : Prop :=
  match s.cmdSeq with
  | .idle => True
  | .pktFrame k => k < s.pkt.n.toNat ∧ packetCountOk s.pkt.n = true ∧ s.pkt.frames.length = s.pkt.n.toNat
  | .pktEnd => packetCountOk s.pkt.n = true ∧ s.pkt.frames.length = s.pkt.n.toNat

/-- While the silence of a reset message is emitted, and until a sample is modulated again, the integrators are 0
(45_pdm.md R345). -/
def silenceAtRest (s : State) : Prop := s.pdm.mode = .silence → s.pdm.err1 = 0#32 ∧ s.pdm.err2 = 0#32

/-- A good state: every invariant at once. -/
structure Inv (s : State) : Prop where
  params    : s.par.ok = true
  memories  : memoriesWf s
  partition : poolPartition s
  txFlag    : txFlagOk s
  silblk    : silblkCurrent s
  bypass    : bypassExact s
  ranges    : rangesOk s
  packet    : packetOk s
  silence   : silenceAtRest s

/-! Runs. -/

/-- `n` turns of one agent. -/
def turns (a : Agent) : Nat → State → Result
  | 0, s => .next s
  | n + 1, s =>
    match agentStep a s with
    | .next t => turns a n t
    | .fault r => .fault r
    | .refused r => .refused r

/-- The frames of a list of frame words, in order. -/
def runFrames : List Word → State → State
  | [], s => s
  | w :: ws, s => runFrames ws (frame w s)

/-- The samples of a frame when they reach the delay lines (42_dsp_pipeline.md R220, step 10). -/
def beforeDelay (w : Word) (s : State) : Flight :=
  stageMasterVolume (stageGainMute (stageOutputEq (stageSplit (stageCrossfeed
    (stageMeterMaster (stageMasterEq (stageLoudness (stagePreamp (stageNorm w s)))))))))

/-! Events and the stability of the loop. -/

/-- From `s` to `t` at most one event is counted, it is one of those named, and no other counter moves
(60_exceptions.md R433). -/
def countsAtMost (es : List Event) (s t : State) : Prop := t.cnt = s.cnt ∨ ∃ e ∈ es, t.cnt = bump e s.cnt

/-- The integrators after the sample of a held target: 256 decisions with zero dither, then the leak
(45_pdm.md R348, R350, R352). -/
def heldSample (target : BitVec 16) (e : Word × Word) : Word × Word :=
  (leakValue (decisions target 0 256 e.1 e.2).err1, leakValue (decisions target 0 256 e.1 e.2).err2)

/-- The integrators, from rest, after `n` samples of a held target with zero dither. -/
def heldSamples (target : BitVec 16) : Nat → Word × Word
  | 0 => (0#32, 0#32)
  | n + 1 => heldSample target (heldSamples target n)

/-- The property to check of 45_pdm.md R359: from rest, with the target held and zero dither, neither integrator's magnitude
exceeds `bound` after any decision of any sample, nor after the leak. -/
def boundedWhileHeld (target : BitVec 16) (bound : Int) : Prop :=
  ∀ n b : Nat, b ≤ 256 → ∀ d : Decisions,
    d = decisions target 0 b (heldSamples target n).1 (heldSamples target n).2 →
      -bound ≤ d.err1.toInt ∧ d.err1.toInt ≤ bound ∧ -bound ≤ d.err2.toInt ∧ d.err2.toInt ≤ bound

/-! The crossfeed at DC. -/

/-- Crossfeed is on, its input is mono, and its lowpass and all-pass states have settled: another frame of the same input leaves
all four as they are (42_dsp_pipeline.md R242). -/
def crossfeedSettled (f : Flight) : Prop :=
  xfEnabled f.st.regs = true ∧ f.l = f.r ∧ (stageCrossfeed f).st.xf = f.st.xf

/-- A settled lowpass output is x * g with g = lp_a0 / (1 - lp_b1), up to the truncation of one shift, unless its sum was cut
off at 32 bits (42_dsp_pipeline.md R242). -/
def lowpassAtDc (x : Crossfeed) (input lp : Int) : Prop :=
  -(2 ^ 31) ≤ (x.lpA0.toInt * input + x.lpB1.toInt * lp) / 2 ^ 28 →
    (x.lpA0.toInt * input + x.lpB1.toInt * lp) / 2 ^ 28 < 2 ^ 31 →
      0 ≤ x.lpA0.toInt * input - (2 ^ 28 - x.lpB1.toInt) * lp
        ∧ x.lpA0.toInt * input - (2 ^ 28 - x.lpB1.toInt) * lp < 2 ^ 28

/-- An output, the input less its own lowpass and plus the all-pass of the other side's lowpass, equals the input up to the
truncation of the all-pass's shift, whose loop gain is 1 + ap_a, and up to the difference of the two settled lowpass values
(42_dsp_pipeline.md R242; the bound: log 26). -/
def outputAtDc (x : Crossfeed) (input own other output : Int) : Prop :=
  min (own - other) 0 ≤ input - output ∧ (2 ^ 28 + x.apA.toInt) * (input - output - max (own - other) 0) < 2 ^ 28

/-- The property to check of 42_dsp_pipeline.md R242, the crossfeed DC law: at a settled state with ap_a above -1, both lowpass
states and both outputs are what the law says. -/
def crossfeedDcLaw (f : Flight) : Prop :=
  crossfeedSettled f → -(2 ^ 28) < f.st.xf.apA.toInt →
    lowpassAtDc f.st.xf f.l.toInt f.st.xf.lpL.toInt ∧ lowpassAtDc f.st.xf f.r.toInt f.st.xf.lpR.toInt
      ∧ outputAtDc f.st.xf f.l.toInt f.st.xf.lpL.toInt f.st.xf.lpR.toInt (stageCrossfeed f).l.toInt
      ∧ outputAtDc f.st.xf f.r.toInt f.st.xf.lpR.toInt f.st.xf.lpL.toInt (stageCrossfeed f).r.toInt

/-! Abstract readings. -/

/-- `n` messages of the queue from index `a` on. -/
def queueFrom (m : Mem Msg) : Nat → BitVec 8 → List Msg
  | 0, _ => []
  | n + 1, a => readQueue m a :: queueFrom m n (a + 1#8)

/-- The messages stored in the queue, oldest first (44_pcm_pdm_queue.md R323, R326). -/
def queueMessages (q : Queue) : List Msg := queueFrom q.buf (queueCount q) q.tail

/-- The words of an S/PDIF frame in transmission order, as line cells. -/
def frameCells (ws : List Word) : List Bool := ws.flatMap bitsOfWord

/-- The value of slot `4 + i` that the cells of a subframe carry: 1 exactly when the slot's two cells differ
(43_spdif.md R273). -/
def slotValue (cells : List Bool) (i : Nat) : Bool := xor (cells.getD (8 + 2 * i) false) (cells.getD (9 + 2 * i) false)

/-- The identity configuration of 42_dsp_pipeline.md R240, but for the delays: every biquad bypassed, LOUD_EN = XF_EN = MUTE
= 0, no output muted, unit preamp, gains and volume. -/
def identityConfig (s : State) : Prop :=
  (∀ ch b, (readBq s.bq ch b).filter.bypass = true) ∧ s.regs.flags = 0#3 ∧ s.regs.chMute = 0#3
    ∧ s.regs.preamp = Config.unityQ28 ∧ s.regs.gainL = Config.unityQ28 ∧ s.regs.gainR = Config.unityQ28
    ∧ s.regs.gainSub = Config.unityQ28 ∧ s.regs.volMult = Config.unityQ28

end Sys2Proof.Machine
end

