-- ==== Sys2Proof/Certificates/Slice0/Obligations.lean ====
section
/-! DEFINITION. The statements for the provers, each from the numbered rules of spec/ or, where it says so, from what the spec
derives from them. -/

open Sys2Proof Sys2Proof.Machine

/-! The command port. -/

/-- Decode and encode agree: a well-formed command's words, followed by any words, decode to that command and leave the words
after it (30_encoding.md sections 1 and 2). -/
def Obligations.EncodeThenDecodeGivesTheCommand : Prop :=
  ∀ (i : Instr) (rest : List Word), i.wellFormed = true → decode (encode i ++ rest) = .command i rest

/-- A command's length follows from its command word alone: the decoder consumes 1 + payload(OP) words, 1 for an undefined OP,
and it waits exactly while fewer are there; what it reads is well formed (30_encoding.md section 1). -/
def Obligations.DecodeConsumesTheLengthOfTheCommandWord : Prop :=
  ∀ (w : Word) (ws : List Word),
    (decode (w :: ws) = .incomplete ↔ ws.length < payloadWords w)
      ∧ (∀ i rest, decode (w :: ws) = .command i rest →
          rest = ws.drop (payloadWords w) ∧ i.wellFormed = true ∧ (encode i).length = 1 + payloadWords w)
      ∧ (∀ op rest, decode (w :: ws) = .undefinedOp op rest → op = opField w ∧ rest = ws ∧ payloadWords w = 0)

/-- Words written out from the encoding decode to the commands they stand for (30_encoding.md section 1). -/
def Obligations.SampleWordsDecode : Prop :=
  decode [0x00000000#32] = .command .nop []
    ∧ decode [0x02000002#32, 0x08000000#32] = .command (.setReg 0x2#16 0x08000000#32) []
    ∧ decode [0x10030000#32, 0x10000000#32, 0#32, 0#32, 0#32, 0#32]
        = .command (.bqWrite 0#4 3#4 0x10000000#32 0#32 0#32 0#32 0#32) []
    ∧ decode [0x11400000#32] = .command (.bqRead 4#4 0#4) []
    ∧ decode [0x2000005A#32, 1#32, 2#32, 3#32, 4#32, 5#32] = .command (.loudWrite 0#4 90#16 1#32 2#32 3#32 4#32 5#32) []
    ∧ decode [0x48000000#32] = .command .pdmMark []
    ∧ decode [0xFF000000#32] = .undefinedOp 0xFF#8 []

/-- A step runs the decoded command: when CMD has the turn in IDLE and the port's words decode to a command, the step is that
command's meaning at the state whose turn is taken and whose words are consumed. While the port does not hold a whole
command, empty or with words missing, CMD waits in IDLE and loses no state (that a waiting agent's turn is taken and changes
nothing else is the model's form, log 2). -/
def Obligations.StepRunsTheDecodedCommand : Prop :=
  (∀ (s : State) (i : Instr) (rest : List Word),
    nextAgent s = .cmd → s.cmdSeq = .idle → decode s.port = .command i rest →
      i.wellFormed = true ∧ step s = exec i { takeTurn s with port := rest })
    ∧ ∀ s : State, nextAgent s = .cmd → s.cmdSeq = .idle →
        (s.port = [] ∨ ∃ w ws, s.port = w :: ws ∧ ws.length < payloadWords w) → step s = .next (takeTurn s)

/-- An undefined OP consumes its one word, raises CMD_INVALID, answers no word and changes no other state; the next word is a
command word; the all-zero word is NOP (R146). -/
def Obligations.UndefinedOpcodeConsumesOneWord : Prop :=
  ∀ (s : State) (w : Word) (ws : List Word),
    s.cmdSeq = .idle → s.port = w :: ws → (∀ o ∈ opcodeTable, o.code ≠ opField w) →
      agentStep .cmd s
          = .next { s with port := ws, cnt := { s.cnt with cmdInvalid := s.cnt.cmdInvalid + 1#32 } }
      ∧ decode (0x00000000#32 :: ws) = .command .nop ws

/-! The control commands. -/

/-- NOP has no effect on any state, whatever its unused fields hold, and the all-zero word is NOP (R381). -/
def Obligations.NopChangesNothing : Prop :=
  ∀ (s : State) (w : Word) (rest : List Word),
    exec .nop s = .next s
      ∧ (opField w = 0x00#8 → decode (w :: rest) = .command .nop rest)
      ∧ decode (0x00000000#32 :: rest) = .command .nop rest

/-- RESET, the one-word command with OP 0x01, puts every element of state into its reset value in one step and keeps the output
streams, the response words and the position in the command port (R382). -/
def Obligations.ResetCommandRestoresTheResetState : Prop :=
  (∀ (w : Word) (rest : List Word), opField w = 0x01#8 → decode (w :: rest) = .command .reset rest)
    ∧ ∀ s : State, ∃ t : State, exec .reset s = .next t ∧ t.out = s.out ∧ t.port = s.port
        ∧ { t with out := ⟨[], [], []⟩, port := [], sched := [], turn := 0, ditherIn := [], draws := 0 }
            = State.resetWith s.par

/-- The state after power-on, element by element, with the streams empty; RESET puts the block into the same state and keeps what
has been emitted (R460). The port and the model's own fields are left out of the comparison. -/
def Obligations.PowerOnStateIsTheResetTable : Prop :=
  ∀ p : Params, ∃ s : State, s = State.resetWith p
    ∧ readReg s .id = 0x44535069#32 ∧ s.regs.rate = 44100#32
    ∧ s.regs.preamp = 0x10000000#32 ∧ s.regs.volMult = 0x10000000#32
    ∧ s.regs.gainL = 0x10000000#32 ∧ s.regs.gainR = 0x10000000#32 ∧ s.regs.gainSub = 0x10000000#32
    ∧ s.regs.volIndex = 0#7 ∧ s.regs.flags = 0#3 ∧ s.regs.chBypass = 0#5 ∧ s.regs.chMute = 0#3
    ∧ s.regs.delayL = 0#13 ∧ s.regs.delayR = 0#13 ∧ s.regs.delaySub = 0#13
    ∧ s.regs.chstat = 0x00000004#32 ∧ s.regs.loudActive = 0#1
    ∧ s.cnt = ⟨0#32, 0#32, 0#32, 0#32, 0#32, 0#32, 0#32⟩ ∧ s.peaks = ⟨0#16, 0#16, 0#16, 0#16, 0#16⟩
    ∧ s.regs.spdifDiv = div256 p 44100 128 ∧ s.regs.pdmDiv = div256 p 44100 (256 * p.pdmCycles)
    ∧ (∀ ch b, readBq s.bq ch b = ⟨⟨⟨0x10000000#32, 0#32, 0#32, 0#32, 0#32⟩, true⟩, ⟨0#64, 0#64⟩⟩)
    ∧ (∀ t k j, readLoud s.loud t k j = ⟨⟨0x10000000#32, 0#32, 0#32, 0#32, 0#32⟩, true⟩)
    ∧ s.lstate = ⟨⟨0#64, 0#64⟩, ⟨0#64, 0#64⟩, ⟨0#64, 0#64⟩, ⟨0#64, 0#64⟩⟩
    ∧ s.xf = ⟨0#32, 0#32, 0#32, 0#32, 0#32, 0#64, 0#64⟩
    ∧ s.pdm.err1 = 0#32 ∧ s.pdm.err2 = 0#32 ∧ s.pdm.pwi = BitVec.ofNat 11 p.targetLead ∧ s.pdm.pri = 0#11
    ∧ s.pdm.target = 32768#16 ∧ s.pdm.mode = .modulate ∧ (∀ a, readRing s.pdm.ring a = 0xAAAAAAAA#32)
    ∧ (∀ a, readQueue s.queue.buf a = ⟨0#32, false⟩) ∧ s.queue.head = 0#8 ∧ s.queue.tail = 0#8
    ∧ s.spdif.free = [0, 1, 2, 3, 4, 5, 6, 7] ∧ s.spdif.ready = [] ∧ s.spdif.fill = none
    ∧ (∀ id q, readPool s.spdif.pool id q = zeroBlockWord 0x00000004#32 q.val)
    ∧ (∀ q, readSil s.spdif.silblk q = zeroBlockWord 0x00000004#32 q.val) ∧ s.spdif.running = false
    ∧ (∀ a, readLine s.delay.lineL a = 0#32 ∧ readLine s.delay.lineR a = 0#32 ∧ readLine s.delay.lineSub a = 0#32)
    ∧ s.delay.dw = 0#13 ∧ s.pkt.first = true ∧ s.pkt.n = 0#16 ∧ s.pkt.gapUs = 0#32 ∧ (∀ f ∈ s.pkt.frames, f = 0#32)
    ∧ s.pkt.act = 0#1 ∧ s.pkt.vi = 0#7 ∧ s.pkt.dropped = false ∧ s.pkt.pacc = ⟨0#16, 0#16, 0#16, 0#16, 0#16⟩
    ∧ s.cmdSeq = .idle ∧ s.txSeq = .idle ∧ s.modSeq = .start ∧ s.out = ⟨[], [], []⟩
    ∧ ∀ u : State, u.par = p → ∃ t : State, exec .reset u = .next t ∧ t.out = u.out
        ∧ { t with out := ⟨[], [], []⟩, port := [], sched := [], turn := 0, ditherIn := [], draws := 0 } = s

/-- The legalisation of a SET_REG value, row by row (R393). -/
def Obligations.LegalisationFollowsTheTable : Prop :=
  ∀ v : Word,
    (legal .volIndex v).toNat = min v.toNat 90
      ∧ legal .flags v = v &&& 0x7#32 ∧ legal .chBypass v = v &&& 0x1F#32 ∧ legal .chMute v = v &&& 0x7#32
      ∧ (legal .delayL v).toNat = min v.toNat 8191 ∧ (legal .delayR v).toNat = min v.toNat 8191
      ∧ (legal .delaySub v).toNat = min v.toNat 8191
      ∧ (∀ r ∈ [RegId.preamp, .volMult, .gainL, .gainR, .gainSub, .chstat], legal r v = v)
      ∧ ∀ (s : State) (n : BitVec 16) (r : RegId), regOf n = some r → regWritable r = true →
          ∃ t, exec (.setReg n v) s = .next t ∧ t.cnt = s.cnt

/-- SET_REG, OP 0x02 with one payload word, stores the legalised value, which then reads back, and changes no other register and
no other state, but that a CHSTAT write rewrites the silence block; a reserved or RO register refuses it (R383). -/
def Obligations.SetRegStoresTheLegalValue : Prop :=
  ∀ (s : State) (n : BitVec 16) (v : Word),
    (∀ w rest, opField w = 0x02#8 → immField w = n → decode (w :: v :: rest) = .command (.setReg n v) rest)
      ∧ (∀ r, regOf n = some r → regWritable r = true → ∃ t : State, exec (.setReg n v) s = .next t
        ∧ readReg t r = legal r v
        ∧ (∀ r', r' ≠ r → readReg t r' = readReg s r')
        ∧ (∀ p, readSil t.spdif.silblk p
            = if r = .chstat then zeroBlockWord (legal r v) p.val else readSil s.spdif.silblk p)
        ∧ { t with regs := s.regs, spdif := { t.spdif with silblk := s.spdif.silblk } } = s)
      ∧ ((regOf n = none ∨ ∃ r, regOf n = some r ∧ regWritable r = false) →
          exec (.setReg n v) s = .next { s with cnt := { s.cnt with cmdInvalid := s.cnt.cmdInvalid + 1#32 } })

/-- GET_REG, OP 0x03 with no payload, answers the register's value and changes nothing but the response stream; a reserved
number answers 0 and raises CMD_INVALID (R384). The register map, row by row: which register a number names, whether SET_REG
may write it, and what it reads as (10_state.md section 3); the three views' fields have a statement of their own. -/
def Obligations.GetRegAnswersTheRegister : Prop :=
  ∀ (s : State) (n : BitVec 16),
    (∀ w rest, opField w = 0x03#8 → immField w = n → decode (w :: rest) = .command (.getReg n) rest)
      ∧ (∀ r, regOf n = some r → ∃ t : State, exec (.getReg n) s = .next t
        ∧ t.out.resp = s.out.resp ++ [readReg s r]
        ∧ { t with out := { t.out with resp := s.out.resp } } = s)
      ∧ (regOf n = none → ∃ t : State, exec (.getReg n) s = .next t
        ∧ t.out.resp = s.out.resp ++ [0#32] ∧ t.cnt = { s.cnt with cmdInvalid := s.cnt.cmdInvalid + 1#32 }
        ∧ { t with out := { t.out with resp := s.out.resp }, cnt := s.cnt } = s)
      ∧ ∀ row ∈ ([
          (0x00#16, .id, false, 0x44535069#32), (0x01#16, .rate, false, s.regs.rate),
          (0x02#16, .preamp, true, s.regs.preamp), (0x03#16, .volMult, true, s.regs.volMult),
          (0x04#16, .volIndex, true, s.regs.volIndex.setWidth 32), (0x05#16, .flags, true, s.regs.flags.setWidth 32),
          (0x06#16, .chBypass, true, s.regs.chBypass.setWidth 32), (0x07#16, .chMute, true, s.regs.chMute.setWidth 32),
          (0x08#16, .gainL, true, s.regs.gainL), (0x09#16, .gainR, true, s.regs.gainR),
          (0x0A#16, .gainSub, true, s.regs.gainSub), (0x0B#16, .delayL, true, s.regs.delayL.setWidth 32),
          (0x0C#16, .delayR, true, s.regs.delayR.setWidth 32), (0x0D#16, .delaySub, true, s.regs.delaySub.setWidth 32),
          (0x0E#16, .chstat, true, s.regs.chstat), (0x0F#16, .loudActive, false, s.regs.loudActive.setWidth 32),
          (0x10#16, .pktCount, false, s.cnt.pktCount), (0x11#16, .spdifOverrun, false, s.cnt.spdifOverrun),
          (0x12#16, .usbUnderrun, false, s.cnt.usbUnderrun), (0x13#16, .ringOverrun, false, s.cnt.ringOverrun),
          (0x14#16, .pdmUnderrun, false, s.cnt.pdmUnderrun), (0x15#16, .spdifUnderrun, false, s.cnt.spdifUnderrun),
          (0x16#16, .cmdInvalid, false, s.cnt.cmdInvalid), (0x18#16, .peakML, false, s.peaks.masterL.setWidth 32),
          (0x19#16, .peakMR, false, s.peaks.masterR.setWidth 32), (0x1A#16, .peakOL, false, s.peaks.outL.setWidth 32),
          (0x1B#16, .peakOR, false, s.peaks.outR.setWidth 32), (0x1C#16, .peakSub, false, s.peaks.sub.setWidth 32),
          (0x1D#16, .qstate, false, readReg s .qstate), (0x1E#16, .pdmPtrs, false, readReg s .pdmPtrs),
          (0x1F#16, .spdifPool, false, readReg s .spdifPool), (0x20#16, .spdifDiv, false, s.regs.spdifDiv.setWidth 32),
          (0x21#16, .pdmDiv, false, s.regs.pdmDiv.setWidth 32)] : List (BitVec 16 × RegId × Bool × Word)),
        regOf row.1 = some row.2.1 ∧ regWritable row.2.1 = row.2.2.1 ∧ readReg s row.2.1 = row.2.2.2

/-- The reserved register numbers are 0x17 and 0x22 to 0xFFFF: GET_REG of one answers 0, SET_REG of one has no effect, and
either raises CMD_INVALID (R53). -/
def Obligations.ReservedRegistersAreRefused : Prop :=
  ∀ n : BitVec 16,
    (regOf n = none ↔ n.toNat = 0x17 ∨ 0x22 ≤ n.toNat)
      ∧ ((n.toNat = 0x17 ∨ 0x22 ≤ n.toNat) → ∀ (s : State) (v : Word),
          exec (.setReg n v) s = .next (raise .cmdInvalid s)
            ∧ exec (.getReg n) s = .next (raise .cmdInvalid (respond [0#32] s)))

/-- The read-only views QSTATE, PDM_PTRS and SPDIF_POOL, field by field, and their reset values (R49, R50, R51). -/
def Obligations.ViewRegistersShowIndicesAndCounts : Prop :=
  (∀ s : State,
    (readReg s .qstate).toNat = s.queue.head.toNat + 2 ^ 8 * s.queue.tail.toNat
      ∧ (readReg s .pdmPtrs).toNat = s.pdm.pwi.toNat + 2 ^ 16 * s.pdm.pri.toNat
      ∧ (s.spdif.free.length ≤ 8 → s.spdif.ready.length ≤ 8 →
          (readReg s .spdifPool).toNat = s.spdif.free.length + 2 ^ 4 * s.spdif.ready.length + 2 ^ 8 * fillCount s.spdif
            + 2 ^ 16 * (if s.spdif.fill = none then 0 else 1) + 2 ^ 17 * (if s.spdif.running = true then 1 else 0)
            + 2 ^ 18 * (if ∃ p, s.txSeq = .run .sil p then 1 else 0)))
    ∧ regOf 0x1D#16 = some .qstate ∧ regOf 0x1E#16 = some .pdmPtrs ∧ regOf 0x1F#16 = some .spdifPool
    ∧ regWritable .qstate = false ∧ regWritable .pdmPtrs = false ∧ regWritable .spdifPool = false
    ∧ ∀ p : Params, p.ok = true →
        readReg (State.resetWith p) .qstate = 0#32
          ∧ (readReg (State.resetWith p) .pdmPtrs).toNat = p.targetLead
          ∧ readReg (State.resetWith p) .spdifPool = 0x00000008#32

/-- The divider registers hold the ceiling of SYS_CLK(r) * 256 / (r * K) wherever 16.8 form can hold it, with SYS_CLK(44100) =
SYS_CLK_HZ_441 and SYS_CLK(48000) = SYS_CLK(96000) = SYS_CLK_HZ_48 (10_state.md section 3, R52's formula). -/
def Obligations.DividerIsTheCeiling : Prop :=
  ∀ p : Params,
    (sysClk p 44100 = p.sysClk441 ∧ sysClk p 48000 = p.sysClk48 ∧ sysClk p 96000 = p.sysClk48)
      ∧ ∀ r k : Nat, 0 < r * k → sysClk p r * 256 ≤ (2 ^ 24 - 1) * (r * k) →
          sysClk p r * 256 ≤ (div256 p r k).toNat * (r * k)
            ∧ ∀ v, sysClk p r * 256 ≤ v * (r * k) → (div256 p r k).toNat ≤ v

/-- BQ_WRITE, OP 0x10 with five payload words, stores five coefficients and the bypass bit they give, clears the slot's states
and changes nothing else; a channel above 4 or a band at or above BANDS[ch] refuses it (R385). -/
def Obligations.BqWriteStoresOneSlot : Prop :=
  ∀ (s : State) (ch band : BitVec 4) (b0 b1 b2 a1 a2 : Word),
    (∀ w rest, opField w = 0x10#8 → chField w = ch → selField w = band →
        decode (w :: b0 :: b1 :: b2 :: a1 :: a2 :: rest) = .command (.bqWrite ch band b0 b1 b2 a1 a2) rest)
      ∧ (∀ c : Channel, ch.toNat = channelIndex c → band.toNat < s.par.bands c →
        ∃ t : State, exec (.bqWrite ch band b0 b1 b2 a1 a2) s = .next t
          ∧ (readBq t.bq c band.toNat).filter.coefs = ⟨b0, b1, b2, a1, a2⟩
          ∧ ((readBq t.bq c band.toNat).filter.bypass = true ↔
              b0 = 0x10000000#32 ∧ b1 = 0#32 ∧ b2 = 0#32 ∧ a1 = 0#32 ∧ a2 = 0#32)
          ∧ (readBq t.bq c band.toNat).st = ⟨0#64, 0#64⟩
          ∧ (∀ a, a ≠ bqIndex c band.toNat → Mem.read bqShape t.bq a = Mem.read bqShape s.bq a)
          ∧ { t with bq := s.bq } = s)
      ∧ ((4 < ch.toNat ∨ ∃ c : Channel, ch.toNat = channelIndex c ∧ s.par.bands c ≤ band.toNat) →
          exec (.bqWrite ch band b0 b1 b2 a1 a2) s
            = .next { s with cnt := { s.cnt with cmdInvalid := s.cnt.cmdInvalid + 1#32 } })

/-- BQ_READ, OP 0x11 with no payload, answers the five coefficients and the bypass bit and changes no state; a refused one
answers six zero words and raises CMD_INVALID (R386). -/
def Obligations.BqReadAnswersSixWords : Prop :=
  ∀ (s : State) (ch band : BitVec 4),
    (∀ w rest, opField w = 0x11#8 → chField w = ch → selField w = band →
        decode (w :: rest) = .command (.bqRead ch band) rest)
      ∧ (∀ c : Channel, ch.toNat = channelIndex c → band.toNat < s.par.bands c →
        ∃ (t : State) (q : Filter), exec (.bqRead ch band) s = .next t ∧ q = (readBq s.bq c band.toNat).filter
          ∧ t.out.resp = s.out.resp
              ++ [q.coefs.b0, q.coefs.b1, q.coefs.b2, q.coefs.a1, q.coefs.a2, if q.bypass = true then 1#32 else 0#32]
          ∧ { t with out := { t.out with resp := s.out.resp } } = s)
      ∧ ((4 < ch.toNat ∨ ∃ c : Channel, ch.toNat = channelIndex c ∧ s.par.bands c ≤ band.toNat) →
          ∃ t : State, exec (.bqRead ch band) s = .next t
            ∧ t.out.resp = s.out.resp ++ [0#32, 0#32, 0#32, 0#32, 0#32, 0#32]
            ∧ t.cnt = { s.cnt with cmdInvalid := s.cnt.cmdInvalid + 1#32 }
            ∧ { t with out := { t.out with resp := s.out.resp }, cnt := s.cnt } = s)

/-- LOUD_WRITE, OP 0x20 with five payload words, stores one entry of the inactive table with its bypass bit; the active table,
LSTATE and everything else stay; a shelf above 1 or a step above 90 refuses it (R387). -/
def Obligations.LoudWriteFillsTheInactiveTable : Prop :=
  ∀ (s : State) (shelf : BitVec 4) (k : BitVec 16) (b0 b1 b2 a1 a2 : Word),
    (∀ w rest, opField w = 0x20#8 → selField w = shelf → immField w = k →
        decode (w :: b0 :: b1 :: b2 :: a1 :: a2 :: rest) = .command (.loudWrite shelf k b0 b1 b2 a1 a2) rest)
      ∧ (shelf.toNat ≤ 1 → k.toNat ≤ 90 →
        ∃ (t : State) (i : BitVec 1), i ≠ s.regs.loudActive
          ∧ exec (.loudWrite shelf k b0 b1 b2 a1 a2) s = .next t
          ∧ (readLoud t.loud i k.toNat shelf.toNat).coefs = ⟨b0, b1, b2, a1, a2⟩
          ∧ ((readLoud t.loud i k.toNat shelf.toNat).bypass = true ↔
              b0 = 0x10000000#32 ∧ b1 = 0#32 ∧ b2 = 0#32 ∧ a1 = 0#32 ∧ a2 = 0#32)
          ∧ (∀ a, a ≠ loudIndex i k.toNat shelf.toNat → Mem.read loudShape t.loud a = Mem.read loudShape s.loud a)
          ∧ (∀ k' j', k' ≤ 90 → j' ≤ 1 → readLoud t.loud s.regs.loudActive k' j' = readLoud s.loud s.regs.loudActive k' j')
          ∧ { t with loud := s.loud } = s)
      ∧ ((1 < shelf.toNat ∨ 90 < k.toNat) →
          exec (.loudWrite shelf k b0 b1 b2 a1 a2) s
            = .next { s with cnt := { s.cnt with cmdInvalid := s.cnt.cmdInvalid + 1#32 } })

/-- LOUD_FLIP, the one-word command with OP 0x21, toggles LOUD_ACTIVE and changes nothing else, the latch of a packet in
progress included; the next packet latches the new table at its start step (R388). -/
def Obligations.LoudFlipTogglesTheActiveTable : Prop :=
  (∀ (w : Word) (rest : List Word), opField w = 0x21#8 → decode (w :: rest) = .command .loudFlip rest)
    ∧ ∀ s : State, ∃ t : State, exec .loudFlip s = .next t
    ∧ t.regs.loudActive ≠ s.regs.loudActive
    ∧ { t with regs := { t.regs with loudActive := s.regs.loudActive } } = s
    ∧ ∀ (n : BitVec 16) (gap : Word) (fs : List Word), packetCountOk n = true →
        ∃ u : State, exec (.packet n gap fs) t = .next u ∧ u.pkt.act = t.regs.loudActive

/-- XF_WRITE, OP 0x28 with three payload words, sets the three crossfeed coefficients, clears the four crossfeed states and
changes nothing else, FLAGS.XF_EN included (R389). -/
def Obligations.XfWriteSetsCoefficientsAndClearsStates : Prop :=
  ∀ (s : State) (lpA0 lpB1 apA : Word), ∃ t : State, exec (.xfWrite lpA0 lpB1 apA) s = .next t
    ∧ (∀ w rest, opField w = 0x28#8 → decode (w :: lpA0 :: lpB1 :: apA :: rest) = .command (.xfWrite lpA0 lpB1 apA) rest)
    ∧ t.xf.lpA0 = lpA0 ∧ t.xf.lpB1 = lpB1 ∧ t.xf.apA = apA
    ∧ t.xf.lpL = 0#32 ∧ t.xf.lpR = 0#32 ∧ t.xf.apL = 0#64 ∧ t.xf.apR = 0#64
    ∧ { t with xf := s.xf } = s

/-- SET_RATE, OP 0x30 with one payload word, stores the rate, an unsupported one coerced to 44100 with no event, rewrites
CHSTAT[27:24] and the silence block, sets both dividers, and changes nothing else, FIRST included (R390). -/
def Obligations.SetRateStoresRateAndStatus : Prop :=
  ∀ (s : State) (r : Word), ∃ (t : State) (r' : Word), exec (.setRate r) s = .next t
    ∧ (∀ w rest, opField w = 0x30#8 → decode (w :: r :: rest) = .command (.setRate r) rest)
    ∧ (r = 44100#32 ∨ r = 48000#32 ∨ r = 96000#32 → r' = r)
    ∧ (¬ (r = 44100#32 ∨ r = 48000#32 ∨ r = 96000#32) → r' = 44100#32)
    ∧ t.regs.rate = r'
    ∧ (t.regs.chstat.extractLsb' 24 4).toNat = (if r' = 48000#32 then 0x2 else if r' = 96000#32 then 0xA else 0x0)
    ∧ (∀ i, i < 24 ∨ 28 ≤ i → t.regs.chstat.getLsbD i = s.regs.chstat.getLsbD i)
    ∧ (∀ p, readSil t.spdif.silblk p = zeroBlockWord t.regs.chstat p.val)
    ∧ t.regs.spdifDiv = div256 s.par r'.toNat 128
    ∧ t.regs.pdmDiv = div256 s.par r'.toNat (256 * s.par.pdmCycles)
    ∧ { t with
        regs := { t.regs with
          rate := s.regs.rate, chstat := s.regs.chstat, spdifDiv := s.regs.spdifDiv, pdmDiv := s.regs.pdmDiv },
        spdif := { t.spdif with silblk := s.spdif.silblk } } = s

/-- PDM_MARK, the one-word command with OP 0x48, pushes the message {0, 1}; into a full queue it is dropped and RING_OVERRUN is
raised (46_control.md section 2; 44_pcm_pdm_queue.md). -/
def Obligations.PdmMarkPushesAResetMessage : Prop :=
  (∀ (w : Word) (rest : List Word), opField w = 0x48#8 → decode (w :: rest) = .command .pdmMark rest)
    ∧ ∀ s : State,
    (queueFull s.queue = false → ∃ t : State, exec .pdmMark s = .next t
        ∧ queueMessages t.queue = queueMessages s.queue ++ [⟨0#32, true⟩] ∧ { t with queue := s.queue } = s)
      ∧ (queueFull s.queue = true →
          exec .pdmMark s = .next { s with cnt := { s.cnt with ringOverrun := s.cnt.ringOverrun + 1#32 } })

/-! Packets. -/

/-- A PACKET, OP 0x40 whatever its unused fields hold, with 32 to 96 frames takes its start step: it counts the packet, prefills on the first packet or after more than 50
ms, counts a gap of 2 ms to 50 ms, latches its words, table and row, and changes nothing else (R201). -/
def Obligations.PacketStartStep : Prop :=
  ∀ (s : State) (n : BitVec 16) (gap : Word) (fs : List Word), 32 ≤ n.toNat → n.toNat ≤ 96 →
    ∃ (t : State) (resume underrun : Bool), exec (.packet n gap fs) s = .next t
      ∧ (∀ w rest, opField w = 0x40#8 → immField w = n → fs.length = n.toNat →
          decode (w :: gap :: (fs ++ rest)) = .command (.packet n gap fs) rest)
      ∧ (resume = true ↔ s.pkt.first = true ∨ 50000 < gap.toNat)
      ∧ (underrun = true ↔ resume = false ∧ 2000 ≤ gap.toNat)
      ∧ t.cnt = { s.cnt with
          pktCount := s.cnt.pktCount + 1#32,
          usbUnderrun := if underrun = true then s.cnt.usbUnderrun + 1#32 else s.cnt.usbUnderrun }
      ∧ t.spdif = (if resume = true then prefill s.regs.chstat 2 s.spdif else s.spdif)
      ∧ t.pkt = { first := false, n := n, gapUs := gap, frames := fs, act := s.regs.loudActive, vi := s.regs.volIndex,
                  dropped := false, pacc := ⟨0#16, 0#16, 0#16, 0#16, 0#16⟩ }
      ∧ t.cmdSeq = .pktFrame 0
      ∧ { t with cnt := s.cnt, spdif := s.spdif, pkt := s.pkt, cmdSeq := s.cmdSeq } = s

/-- A PACKET with fewer than 32 or more than 96 frames, whatever its unused fields hold, consumes all its 2 + N words, raises
CMD_INVALID and changes no other state (R205). -/
def Obligations.PacketOutOfRangeIsRefused : Prop :=
  ∀ (s : State) (w : Word) (n : BitVec 16) (gap : Word) (fs rest : List Word),
    opField w = 0x40#8 → immField w = n → n.toNat < 32 ∨ 96 < n.toNat → fs.length = n.toNat → s.cmdSeq = .idle →
      s.port = w :: gap :: (fs ++ rest) →
        (w :: gap :: fs).length = 2 + n.toNat
          ∧ agentStep .cmd s
              = .next { s with port := rest, cnt := { s.cnt with cmdInvalid := s.cnt.cmdInvalid + 1#32 } }

/-- A packet runs as N + 2 CMD steps: the start step, one frame step for each frame word in index order, and the end step; and
each single frame step, whatever the other agents did before it, runs the signal path on its frame word and moves on to the
next frame, or after the last to the end step (41_ingest.md: the pseudocode of R200 to R203). -/
def Obligations.PacketRunsInNPlusTwoSteps : Prop :=
  (∀ (s : State) (w : Word) (n : BitVec 16) (gap : Word) (fs rest : List Word),
    opField w = 0x40#8 → immField w = n → packetCountOk n = true → fs.length = n.toNat → s.cmdSeq = .idle →
      s.port = w :: gap :: (fs ++ rest) →
        ∃ u : State, exec (.packet n gap fs) { s with port := rest } = .next u
          ∧ turns .cmd (n.toNat + 2) s = .next (endStep (runFrames fs u))
          ∧ (endStep (runFrames fs u)).cmdSeq = .idle
          ∧ (endStep (runFrames fs u)).cnt.pktCount = s.cnt.pktCount + 1#32)
    ∧ ∀ (s : State) (k : Nat) (f : Word), s.cmdSeq = .pktFrame k → s.pkt.frames[k]? = some f →
        ∃ t : State, agentStep .cmd s = .next t
          ∧ (k + 1 < s.pkt.n.toNat → t = { frame f s with cmdSeq := .pktFrame (k + 1) })
          ∧ (s.pkt.n.toNat ≤ k + 1 → t = { frame f s with cmdSeq := .pktEnd })

/-- The packet end step publishes the five peaks, counts one SPDIF_OVERRUN for a packet that dropped a frame, returns to IDLE
and changes nothing else (R203). -/
def Obligations.PacketEndStepPublishesThePeaks : Prop :=
  ∀ s : State, s.cmdSeq = .pktEnd → ∃ t : State, agentStep .cmd s = .next t
    ∧ t.peaks = s.pkt.pacc ∧ t.cmdSeq = .idle
    ∧ t.cnt = { s.cnt with
        spdifOverrun := if s.pkt.dropped = true then s.cnt.spdifOverrun + 1#32 else s.cnt.spdifOverrun }
    ∧ { t with peaks := s.peaks, cmdSeq := s.cmdSeq, cnt := s.cnt } = s

/-- A packet prefill moves up to two buffers from FREE to READY, each filled with the zero block under the current CHSTAT, stops
where FREE is empty, and leaves FILL and every other buffer as they are (R282). -/
def Obligations.PrefillMovesSilentBuffers : Prop :=
  ∀ (s : State) (id₁ id₂ : Fin 8) (rest : List (Fin 8)),
    (s.spdif.free = [] → spdifPrefill 2 s = s)
      ∧ (s.spdif.free = [id₁] → ∃ pool : Mem Word,
          spdifPrefill 2 s
            = { s with spdif := { s.spdif with free := [], ready := s.spdif.ready ++ [id₁], pool := pool } }
          ∧ ∀ id p, readPool pool id p = if id = id₁ then zeroBlockWord s.regs.chstat p.val else readPool s.spdif.pool id p)
      ∧ (s.spdif.free = id₁ :: id₂ :: rest → ∃ pool : Mem Word,
          spdifPrefill 2 s
            = { s with spdif := { s.spdif with free := rest, ready := s.spdif.ready ++ [id₁, id₂], pool := pool } }
          ∧ ∀ id p, readPool pool id p
              = if id = id₁ ∨ id = id₂ then zeroBlockWord s.regs.chstat p.val else readPool s.spdif.pool id p)

/-! The signal path. -/

/-- The scalar multiply is the floor of the exact product over 2^28, saturated to 32 bits, so 1.0 is an exact identity and 0
gives 0; the preamp is one (42_dsp_pipeline.md section 2, 00_scope.md section 5). -/
def Obligations.ScalarMultiplyFloorsAndSaturates : Prop :=
  ∀ x c : Word,
    (mulq x c).toInt = min (max (Int.floor ((x.toInt * c.toInt : ℚ) / 2 ^ 28)) (-(2 ^ 31))) (2 ^ 31 - 1)
      ∧ mulq x 0x10000000#32 = x ∧ mulq x 0#32 = 0#32
      ∧ ∀ f : Flight, (stagePreamp f).l = mulq f.l f.st.regs.preamp ∧ (stagePreamp f).r = mulq f.r f.st.regs.preamp
          ∧ (stagePreamp f).sub = f.sub ∧ (stagePreamp f).st = f.st

/-- Normalising a 16-bit sample is an exact multiplication by 2^14; the output conversion is the floor of x / 2^14 saturated to
16 bits, so it undoes the normalisation, and a full-scale or larger sample gives 32767 and never wraps (42_dsp_pipeline.md
sections 2 and 3). -/
def Obligations.NormaliseAndConvertSamples : Prop :=
  (∀ v : BitVec 16, (normSample v).toInt = v.toInt * 2 ^ 14 ∧ out16 (normSample v) = v)
    ∧ ∀ x : Word, (out16 x).toInt = min (max (x.toInt / 2 ^ 14) (-32768)) 32767
        ∧ (2 ^ 29 ≤ x.toInt → (out16 x).toInt = 32767) ∧ (x.toInt ≤ -(2 ^ 29) → (out16 x).toInt = -32768)

/-- The biquad kernel: the floored and saturated output is the one fed back, the states take the exact sums wrapped to 64 bits,
and the old s2 goes into s1 (42_dsp_pipeline.md section 2, the pseudocode of R225). -/
def Obligations.BiquadKernelFeedsBackTheSaturatedOutput : Prop :=
  ∀ (q : Filter) (st : BqState) (x : Word), q.bypass = false → ∃ y : Int,
    y = min (max ((q.coefs.b0.toInt * x.toInt + st.s1.toInt) / 2 ^ 28) (-(2 ^ 31))) (2 ^ 31 - 1)
      ∧ (bqOut q st x).toInt = y
      ∧ ((bqState q st x).s1.toInt - (q.coefs.b1.toInt * x.toInt - q.coefs.a1.toInt * y + st.s2.toInt)) % 2 ^ 64 = 0
      ∧ ((bqState q st x).s2.toInt - (q.coefs.b2.toInt * x.toInt - q.coefs.a2.toInt * y)) % 2 ^ 64 = 0
      ∧ (q.coefs = ⟨0x10000000#32, 0#32, 0#32, 0#32, 0#32⟩ → st = ⟨0#64, 0#64⟩ →
          bqOut q st x = x ∧ bqState q st x = ⟨0#64, 0#64⟩)

/-- A bypassed biquad returns its input and touches no state, and so does a channel whose bypass bit is set or whose bands are
all bypassed (42_dsp_pipeline.md section 2). -/
def Obligations.BypassLeavesSampleAndStates : Prop :=
  (∀ (q : Filter) (st : BqState) (x : Word), q.bypass = true → bqOut q st x = x ∧ bqState q st x = st)
    ∧ (∀ (ch : Channel) (s : State) (x : Word), channelBypassed s.regs ch = true → chain ch s x = (s.bq, x))
    ∧ ∀ (ch : Channel) (s : State) (x : Word), (∀ b, b < s.par.bands ch → (readBq s.bq ch b).filter.bypass = true) →
        chain ch s x = (s.bq, x)

/-- A channel's cascade runs its bands in increasing order: there are values xs from x to the result, each band takes the one
before to the one after and updates its own states from the one before, no filter changes, and every other slot stays; a set
channel bypass bit short-circuits it all (R227). -/
def Obligations.ChainRunsTheBandsInOrder : Prop :=
  ∀ (ch : Channel) (s : State) (x : Word), s.par.ok = true →
    (s.regs.chBypass.getLsbD (channelIndex ch) = true → chain ch s x = (s.bq, x))
      ∧ (s.regs.chBypass.getLsbD (channelIndex ch) = false → ∃ xs : Nat → Word,
          xs 0 = x ∧ (chain ch s x).2 = xs (s.par.bands ch)
          ∧ (∀ b, b < s.par.bands ch →
              xs (b + 1) = bqOut (readBq s.bq ch b).filter (readBq s.bq ch b).st (xs b)
                ∧ readBq (chain ch s x).1 ch b
                    = ⟨(readBq s.bq ch b).filter, bqState (readBq s.bq ch b).filter (readBq s.bq ch b).st (xs b)⟩)
          ∧ ∀ a, (∀ b, b < s.par.bands ch → a ≠ bqIndex ch b) → Mem.read bqShape (chain ch s x).1 a = Mem.read bqShape s.bq a)

/-- Loudness with its enable off touches nothing; with it on, L and R each run through the low shelf and then the high shelf of
the table and row latched at packet start, each with its own states, and nothing else changes; bypassed shelves change
nothing (R224). -/
def Obligations.LoudnessRunsTheLatchedShelves : Prop :=
  ∀ f : Flight,
    (f.st.regs.flags.getLsbD 0 = false → stageLoudness f = f)
      ∧ (f.st.regs.flags.getLsbD 0 = true → ∃ (g : Flight) (low high : Filter), g = stageLoudness f
          ∧ low = readLoud f.st.loud f.st.pkt.act f.st.pkt.vi.toNat 0
          ∧ high = readLoud f.st.loud f.st.pkt.act f.st.pkt.vi.toNat 1
          ∧ g.l = bqOut high f.st.lstate.highL (bqOut low f.st.lstate.lowL f.l)
          ∧ g.r = bqOut high f.st.lstate.highR (bqOut low f.st.lstate.lowR f.r)
          ∧ g.st.lstate.lowL = bqState low f.st.lstate.lowL f.l
          ∧ g.st.lstate.highL = bqState high f.st.lstate.highL (bqOut low f.st.lstate.lowL f.l)
          ∧ g.st.lstate.lowR = bqState low f.st.lstate.lowR f.r
          ∧ g.st.lstate.highR = bqState high f.st.lstate.highR (bqOut low f.st.lstate.lowR f.r)
          ∧ g.sub = f.sub ∧ { g.st with lstate := f.st.lstate } = f.st
          ∧ (low.bypass = true → high.bypass = true → g = f))

/-- Crossfeed with its enable off touches nothing. With it on, each input's lowpass feeds its own direct path and, through the
all-pass, the other output; the four states take the lowpass outputs and the wrapped all-pass sums, and nothing else
changes. With zero coefficients and states it returns its input and stays at rest, and an all-pass with ap_a = 0 is a
one-sample delay (42_dsp_pipeline.md section 2, the pseudocode of R229 to R231). The DC law, which the spec gives as a
property to check: once a mono input's states have settled, both outputs equal the input up to truncation
(42_dsp_pipeline.md section 3). The size of that error, 2^28 / (2^28 + ap_a) and the difference of the two settled lowpass
values (0 where both sides settled alike), and the premise ap_a above -1 are the model's reading of the arithmetic: the spec
names no bound (log 26). -/
def Obligations.CrossfeedMixesTheLowpassedInputs : Prop :=
  (∀ f : Flight, f.st.regs.flags.getLsbD 1 = false → stageCrossfeed f = f)
    ∧ (∀ f : Flight, f.st.regs.flags.getLsbD 1 = true →
        ∃ (g : Flight) (sat32 : Int → Int) (lL lR cL cR : Int), g = stageCrossfeed f
          ∧ (∀ v, sat32 v = min (max v (-(2 ^ 31))) (2 ^ 31 - 1))
          ∧ lL = sat32 ((f.st.xf.lpA0.toInt * f.l.toInt + f.st.xf.lpB1.toInt * f.st.xf.lpL.toInt) / 2 ^ 28)
          ∧ lR = sat32 ((f.st.xf.lpA0.toInt * f.r.toInt + f.st.xf.lpB1.toInt * f.st.xf.lpR.toInt) / 2 ^ 28)
          ∧ cL = sat32 ((f.st.xf.apA.toInt * lL + f.st.xf.apL.toInt) / 2 ^ 28)
          ∧ cR = sat32 ((f.st.xf.apA.toInt * lR + f.st.xf.apR.toInt) / 2 ^ 28)
          ∧ g.l.toInt = sat32 ((f.l.toInt - lL) + cR) ∧ g.r.toInt = sat32 ((f.r.toInt - lR) + cL) ∧ g.sub = f.sub
          ∧ g.st.xf.lpL.toInt = lL ∧ g.st.xf.lpR.toInt = lR
          ∧ (g.st.xf.apL.toInt - (lL * 2 ^ 28 - f.st.xf.apA.toInt * cL)) % 2 ^ 64 = 0
          ∧ (g.st.xf.apR.toInt - (lR * 2 ^ 28 - f.st.xf.apA.toInt * cR)) % 2 ^ 64 = 0
          ∧ { g.st with xf := { g.st.xf with
                lpL := f.st.xf.lpL, lpR := f.st.xf.lpR, apL := f.st.xf.apL, apR := f.st.xf.apR } } = f.st)
    ∧ (∀ f : Flight, f.st.xf = ⟨0#32, 0#32, 0#32, 0#32, 0#32, 0#64, 0#64⟩ → stageCrossfeed f = f)
    ∧ (∀ (x : Crossfeed) (z : BitVec 64) (v w : Word), x.apA = 0#32 → apOut x (apState x z v) w = v)
    ∧ ∀ f : Flight, crossfeedDcLaw f

/-- The output split is the exact 33-bit sum halved toward minus infinity, which always fits 32 bits; then a muted output is
zero, and any other is its product with its gain, and the master mute and the master volume act on all three outputs in the
same way (R232, R234, R235). -/
def Obligations.SplitGainAndMuteStages : Prop :=
  ∀ f : Flight,
    (stageSplit f).sub.toInt = (f.l.toInt + f.r.toInt) / 2
      ∧ (stageSplit f).l = f.l ∧ (stageSplit f).r = f.r ∧ (stageSplit f).st = f.st
      ∧ (stageGainMute f).l = (if f.st.regs.chMute.getLsbD 0 = true then 0#32 else mulq f.l f.st.regs.gainL)
      ∧ (stageGainMute f).r = (if f.st.regs.chMute.getLsbD 1 = true then 0#32 else mulq f.r f.st.regs.gainR)
      ∧ (stageGainMute f).sub = (if f.st.regs.chMute.getLsbD 2 = true then 0#32 else mulq f.sub f.st.regs.gainSub)
      ∧ (stageGainMute f).st = f.st
      ∧ (stageMasterVolume f).l = (if f.st.regs.flags.getLsbD 2 = true then 0#32 else mulq f.l f.st.regs.volMult)
      ∧ (stageMasterVolume f).r = (if f.st.regs.flags.getLsbD 2 = true then 0#32 else mulq f.r f.st.regs.volMult)
      ∧ (stageMasterVolume f).sub = (if f.st.regs.flags.getLsbD 2 = true then 0#32 else mulq f.sub f.st.regs.volMult)
      ∧ (stageMasterVolume f).st = f.st

/-- The delay law: the sample of a frame is the one the frame `d` frames later returns, for each line with its delay register at
`d` (the Sub line with its alignment offset); derived by the spec from the delay stage: "a sample x written to DL[i] at
write index j is returned by the read of the frame that is d frames later" (42_dsp_pipeline.md section 3). -/
def Obligations.DelayLineReturnsTheSampleLater : Prop :=
  ∀ (s : State) (w last : Word) (ws : List Word),
    (s.regs.delayL = 0#13 → (signalPath w s).l = (beforeDelay w s).l)
      ∧ (s.regs.delayR = 0#13 → (signalPath w s).r = (beforeDelay w s).r)
      ∧ (subDelay s = 0#13 → (signalPath w s).sub = (beforeDelay w s).sub)
      ∧ (s.regs.delayL.toNat = ws.length + 1 → (signalPath last (runFrames (w :: ws) s)).l = (beforeDelay w s).l)
      ∧ (s.regs.delayR.toNat = ws.length + 1 → (signalPath last (runFrames (w :: ws) s)).r = (beforeDelay w s).r)
      ∧ ((subDelay s).toNat = ws.length + 1 → (signalPath last (runFrames (w :: ws) s)).sub = (beforeDelay w s).sub)

/-- The identity pipeline: with every biquad bypassed, the enables and mutes off, unit gains and zero delays, a frame's S/PDIF
samples are its input samples, and its Sub sample reaches the delay line as half the exact sum; from an empty Sub line the
first SUB_ALIGN frames queue 0. Derived by the spec: "every frame gives l16 = inL and r16 = inR exactly" (42_dsp_pipeline.md
section 3). -/
def Obligations.IdentityPipelinePassesSamples : Prop :=
  ∀ (s : State) (w : Word), identityConfig s →
    (s.regs.delayL = 0#13 → out16 (signalPath w s).l = frameLeft w)
      ∧ (s.regs.delayR = 0#13 → out16 (signalPath w s).r = frameRight w)
      ∧ (beforeDelay w s).sub.toInt = ((frameLeft w).toInt * 2 ^ 14 + (frameRight w).toInt * 2 ^ 14) / 2
      ∧ ∀ ws : List Word, (∀ a, readLine s.delay.lineSub a = 0#32) → ws.length < (subDelay s).toNat →
          (signalPath w (runFrames ws s)).sub = 0#32

/-- FRAME runs its stages in the spec's order, each from the state the frame started with: preamp, loudness, the chains of
MasterL on L and MasterR on R, crossfeed, the split, the chains of OutL on L, OutR on R and Sub on S, gains and mutes,
master volume, and the delay lines, written before they are read. The peak accumulators take L and R right after the master
EQ, and L, R and S after the delay; each chain updates its own slots, and loudness and crossfeed their own states
(R228, R233, R238; 42_dsp_pipeline.md section 1). -/
def Obligations.FrameRunsTheStagesInOrder : Prop :=
  ∀ (s : State) (w : Word), s.par.ok = true →
    ∃ (a x g h : Flight) (mL mR : Word) (t : State), t = frame w s ∧ h = signalPath w s
      ∧ a = stageLoudness
          ⟨mulq (normSample (frameLeft w)) s.regs.preamp, mulq (normSample (frameRight w)) s.regs.preamp, 0#32, s⟩
      ∧ mL = (chain .masterL s a.l).2 ∧ mR = (chain .masterR s a.r).2
      ∧ x = stageCrossfeed ⟨mL, mR, 0#32, s⟩
      ∧ g = stageMasterVolume (stageGainMute
          ⟨(chain .outL s x.l).2, (chain .outR s x.r).2, (chain .sub s (stageSplit x).sub).2, s⟩)
      ∧ h.l = (if s.regs.delayL = 0#13 then g.l else readLine s.delay.lineL (s.delay.dw - s.regs.delayL))
      ∧ h.r = (if s.regs.delayR = 0#13 then g.r else readLine s.delay.lineR (s.delay.dw - s.regs.delayR))
      ∧ h.sub = (if subDelay s = 0#13 then g.sub else readLine s.delay.lineSub (s.delay.dw - subDelay s))
      ∧ (subDelay s).toNat = min 8191 (s.regs.delaySub.toNat + s.par.subAlign)
      ∧ readLine t.delay.lineL s.delay.dw = g.l ∧ readLine t.delay.lineR s.delay.dw = g.r
      ∧ readLine t.delay.lineSub s.delay.dw = g.sub
      ∧ t.pkt.pacc.masterL.toNat = max s.pkt.pacc.masterL.toNat (min 32767 (mL.toInt.natAbs / 2 ^ 14))
      ∧ t.pkt.pacc.masterR.toNat = max s.pkt.pacc.masterR.toNat (min 32767 (mR.toInt.natAbs / 2 ^ 14))
      ∧ t.pkt.pacc.outL.toNat = max s.pkt.pacc.outL.toNat (min 32767 (h.l.toInt.natAbs / 2 ^ 14))
      ∧ t.pkt.pacc.outR.toNat = max s.pkt.pacc.outR.toNat (min 32767 (h.r.toInt.natAbs / 2 ^ 14))
      ∧ t.pkt.pacc.sub.toNat = max s.pkt.pacc.sub.toNat (min 32767 (h.sub.toInt.natAbs / 2 ^ 14))
      ∧ t.lstate = a.st.lstate ∧ t.xf = x.st.xf
      ∧ ∀ b, b < 10 →
          readBq t.bq .masterL b = readBq (chain .masterL s a.l).1 .masterL b
            ∧ readBq t.bq .masterR b = readBq (chain .masterR s a.r).1 .masterR b
            ∧ readBq t.bq .outL b = readBq (chain .outL s x.l).1 .outL b
            ∧ readBq t.bq .outR b = readBq (chain .outR s x.r).1 .outR b
            ∧ readBq t.bq .sub b = readBq (chain .sub s (stageSplit x).sub).1 .sub b

/-- A frame step ends with the two handoffs: the frame goes to the fill buffer or is dropped, and the unconverted Sub sample
with reset = 0 goes to the queue or is dropped with RING_OVERRUN; the frame writes nothing else of the block but the biquad,
loudness and crossfeed states, one word of each delay line and the packet's drop flag and peaks (42_dsp_pipeline.md sections
1 and 2). -/
def Obligations.FrameHandsOffAndKeepsTheRest : Prop :=
  ∀ (s : State) (w : Word), ∃ f : Flight, f = signalPath w s
    ∧ (frame w s).queue.tail = s.queue.tail
    ∧ (queueFull s.queue = false → queueMessages (frame w s).queue = queueMessages s.queue ++ [⟨f.sub, false⟩]
        ∧ (frame w s).cnt = s.cnt)
    ∧ (queueFull s.queue = true → (frame w s).queue = s.queue
        ∧ (frame w s).cnt = { s.cnt with ringOverrun := s.cnt.ringOverrun + 1#32 })
    ∧ (match appendFrame s.regs.chstat (out16 f.l) (out16 f.r) s.spdif with
        | none => (frame w s).spdif = s.spdif ∧ (frame w s).pkt.dropped = true
        | some d => (frame w s).spdif = d ∧ (frame w s).pkt.dropped = s.pkt.dropped)
    ∧ (∀ a, (Mem.read bqShape (frame w s).bq a).filter = (Mem.read bqShape s.bq a).filter)
    ∧ (frame w s).xf.lpA0 = s.xf.lpA0 ∧ (frame w s).xf.lpB1 = s.xf.lpB1 ∧ (frame w s).xf.apA = s.xf.apA
    ∧ (frame w s).delay.dw = s.delay.dw + 1#13
    ∧ (∀ a, a ≠ s.delay.dw → readLine (frame w s).delay.lineL a = readLine s.delay.lineL a
        ∧ readLine (frame w s).delay.lineR a = readLine s.delay.lineR a
        ∧ readLine (frame w s).delay.lineSub a = readLine s.delay.lineSub a)
    ∧ { frame w s with
        bq := s.bq, lstate := s.lstate, xf := s.xf, queue := s.queue, cnt := s.cnt, spdif := s.spdif,
        delay := s.delay,
        pkt := { (frame w s).pkt with dropped := s.pkt.dropped, pacc := s.pkt.pacc } } = s

/-- A peak update takes the larger of the accumulator and the sample's magnitude on the 16-bit scale, at most 32767, and leaves
the other four accumulators (42_dsp_pipeline.md section 2). -/
def Obligations.PeakUpdateKeepsTheMaximum : Prop :=
  ∀ (x : Word) (p : Peaks),
    (peakUpdate .masterL x p).masterL.toNat = max p.masterL.toNat (min 32767 (x.toInt.natAbs / 2 ^ 14))
      ∧ { peakUpdate .masterL x p with masterL := p.masterL } = p
      ∧ (peakUpdate .masterR x p).masterR.toNat = max p.masterR.toNat (min 32767 (x.toInt.natAbs / 2 ^ 14))
      ∧ { peakUpdate .masterR x p with masterR := p.masterR } = p
      ∧ (peakUpdate .outL x p).outL.toNat = max p.outL.toNat (min 32767 (x.toInt.natAbs / 2 ^ 14))
      ∧ { peakUpdate .outL x p with outL := p.outL } = p
      ∧ (peakUpdate .outR x p).outR.toNat = max p.outR.toNat (min 32767 (x.toInt.natAbs / 2 ^ 14))
      ∧ { peakUpdate .outR x p with outR := p.outR } = p
      ∧ (peakUpdate .sub x p).sub.toNat = max p.sub.toNat (min 32767 (x.toInt.natAbs / 2 ^ 14))
      ∧ { peakUpdate .sub x p with sub := p.sub } = p

/-! The S/PDIF path. -/

/-- Biphase-mark coding: the first cell of every slot differs from the cell before it, and its second cell differs from the
first exactly when the slot's bit is 1 (R273). -/
def Obligations.BiphaseMarkCarriesTheSlots : Prop :=
  ∀ (s : BitVec 16) (pre : Preamble) (c : Bool) (i : Nat), i < 28 →
    (encSubframe s pre c).length = 64
      ∧ (encSubframe s pre c).getD (8 + 2 * i) false ≠ (encSubframe s pre c).getD (7 + 2 * i) false
      ∧ slotValue (encSubframe s pre c) i = (subframeSlots s c).getD i false
      ∧ frameCells [0xCCCC0000#32] = bmc false (List.replicate 8 false) ++ List.replicate 16 false
      ∧ frameCells [0xAAAA0000#32] = bmc false (List.replicate 8 true) ++ List.replicate 16 false

/-- The slots a subframe carries: aux and the four low bits of the sample field 0, the sample from slot 12 to slot 27, V and U
0, C the channel-status bit, and an even number of 1 bits in slots 4 to 31; its first eight cells are the preamble, Z
11101000, X 11100010 or Y 11100100, and its last cell is 0, so that every preamble is sent after a cell of 0, as the spec
derives: "Every subframe ends with cell 63 = 0". The four words of a frame, sent bit 31 first, are the cells of the left
subframe with preamble Z or X and then of the right one with preamble Y, both with the frame's channel-status bit
(43_spdif.md section 1; 30_encoding.md section 3). -/
def Obligations.FramesCarrySamplesAndParity : Prop :=
  (∀ (s : BitVec 16) (pre : Preamble) (c : Bool),
    (encSubframe s .z c).take 8 = [true, true, true, false, true, false, false, false]
      ∧ (encSubframe s .x c).take 8 = [true, true, true, false, false, false, true, false]
      ∧ (encSubframe s .y c).take 8 = [true, true, true, false, false, true, false, false]
      ∧ (∀ i, i < 8 → slotValue (encSubframe s pre c) i = false)
      ∧ (∀ i, i < 16 → slotValue (encSubframe s pre c) (8 + i) = s.getLsbD i)
      ∧ slotValue (encSubframe s pre c) 24 = false ∧ slotValue (encSubframe s pre c) 25 = false
      ∧ slotValue (encSubframe s pre c) 26 = c
      ∧ ((List.range 28).filter (fun i => slotValue (encSubframe s pre c) i)).length % 2 = 0
      ∧ (encSubframe s pre c).getLast? = some false)
    ∧ ∀ (chstat : Word) (k : Nat) (l r : BitVec 16),
        frameCells (encFrame chstat k l r)
          = encSubframe l (if k = 0 then .z else .x) (if k < 32 then chstat.getLsbD k else false)
            ++ encSubframe r .y (if k < 32 then chstat.getLsbD k else false)

/-- A frame is appended to the held fill buffer, else to the head of FREE, at words 4k to 4k+3; the 192nd frame makes the buffer
ready; with no buffer the frame is dropped and only PKT.dropped is set; every other word of the pool stays (R280). -/
def Obligations.AppendStoresOneFrame : Prop :=
  ∀ (s : State) (l r : BitVec 16),
    (s.spdif.fill = none → s.spdif.free = [] →
        spdifAppend l r s = { s with pkt := { s.pkt with dropped := true } })
      ∧ ∀ (id : Fin 8) (k : Fin 192) (free : List (Fin 8)),
          (s.spdif.fill = some (id, k) ∧ free = s.spdif.free) ∨ (s.spdif.fill = none ∧ s.spdif.free = id :: free ∧ k = 0) →
          ∃ (pool : Mem Word) (d : Spdif), spdifAppend l r s = { s with spdif := d }
            ∧ { d with fill := none, ready := [] }
                = { s.spdif with pool := pool, free := free, fill := none, ready := [] }
            ∧ (k.val = 191 → d.fill = none ∧ d.ready = s.spdif.ready ++ [id])
            ∧ (∀ k' : Fin 192, k'.val = k.val + 1 → d.fill = some (id, k') ∧ d.ready = s.spdif.ready)
            ∧ (∀ (j : Nat) (p : Fin 768), j < 4 → p.val = 4 * k.val + j →
                some (readPool pool id p) = (encFrame s.regs.chstat k.val l r)[j]?)
            ∧ ∀ (id' : Fin 8) (p : Fin 768), id' ≠ id ∨ p.val < 4 * k.val ∨ 4 * k.val + 4 ≤ p.val →
                readPool pool id' p = readPool s.spdif.pool id' p

/-- The TX_IDLE step takes the head of READY and sets TX_RUNNING; with READY empty it is not enabled; it emits no cell and
counts no underrun (43_spdif.md section 3). That a turn of a transmitter which is not enabled changes nothing is the model's
form (log 2). -/
def Obligations.TransmitterStartsOnAReadyBuffer : Prop :=
  ∀ s : State, s.txSeq = .idle →
    (s.spdif.ready = [] → enabled .spdifTx s = false ∧ agentStep .spdifTx s = .next s)
      ∧ ∀ id rest, s.spdif.ready = id :: rest → enabled .spdifTx s = true
          ∧ agentStep .spdifTx s
              = .next { s with
                  spdif := { s.spdif with ready := rest, running := true }, txSeq := .run (.buffer id) ⟨0, by omega⟩ }

/-- The TX_RUN step is always enabled and emits one word of 32 cells; the last word of a block frees its buffer and starts the
next ready block, or the silence block with one SPDIF_UNDERRUN (R284, R285). -/
def Obligations.TransmitterSendsOneWord : Prop :=
  ∀ (s : State) (src : TxSrc) (p : Fin 768), s.txSeq = .run src p →
    ∃ (w : Word) (free : List (Fin 8)) (t : State), agentStep .spdifTx s = .next t
      ∧ enabled .spdifTx s = true
      ∧ (src = .sil → w = readSil s.spdif.silblk p) ∧ (∀ id, src = .buffer id → w = readPool s.spdif.pool id p)
      ∧ t.out = { s.out with spdif := s.out.spdif ++ (List.range 32).map (fun j => w.getLsbD (31 - j)) }
      ∧ (src = .sil → free = s.spdif.free) ∧ (∀ id, src = .buffer id → free = s.spdif.free ++ [id])
      ∧ (∀ q : Fin 768, q.val = p.val + 1 → t = { s with out := t.out, txSeq := .run src q })
      ∧ (p.val = 767 → ∀ id rest, s.spdif.ready = id :: rest →
          t = { s with
            out := t.out, txSeq := .run (.buffer id) ⟨0, by omega⟩,
            spdif := { s.spdif with free := free, ready := rest } })
      ∧ (p.val = 767 → s.spdif.ready = [] →
          t = { s with
            out := t.out, txSeq := .run .sil ⟨0, by omega⟩, spdif := { s.spdif with free := free },
            cnt := { s.cnt with spdifUnderrun := s.cnt.spdifUnderrun + 1#32 } })

/-! The queue and the modulator. -/

/-- The queue is first in, first out: a push to a queue that is not full appends the message, a push to a full queue drops it
and counts one RING_OVERRUN, and a pop takes the oldest; it never holds more than 255. Derived by the spec: "The queue
preserves order and neither duplicates nor invents messages" (44_pcm_pdm_queue.md). -/
def Obligations.QueueIsFirstInFirstOut : Prop :=
  ∀ (s : State) (m : Msg),
    (queueMessages s.queue).length ≤ 255
      ∧ (queueFull s.queue = true ↔ (queueMessages s.queue).length = 255)
      ∧ (queueFull s.queue = false → queueMessages (queuePush m s).queue = queueMessages s.queue ++ [m]
          ∧ { queuePush m s with queue := s.queue } = s ∧ (queuePush m s).queue.tail = s.queue.tail)
      ∧ (queueFull s.queue = true → queuePush m s = raise .ringOverrun s)
      ∧ (queueEmpty s.queue = false → queueMessages s.queue = queueFront s :: queueMessages (queueAdvance s).queue)
      ∧ (queueEmpty s.queue = true ↔ queueMessages s.queue = [])

/-- A lead above 1024 is an underrun: MOD_START zeroes the integrators, moves PWI to PRI + TARGET_LEAD, raises PDM_UNDERRUN and
goes on as with a lead of TARGET_LEAD; with the queue empty it then acquires nothing. The ring is not rewritten. A lead of
exactly 1024 is no underrun (R343). -/
def Obligations.UnderrunRecoveryMovesTheWriteIndex : Prop :=
  ∀ s : State, s.modSeq = .start → s.par.ok = true →
    (1024 < (s.pdm.pwi - s.pdm.pri).toNat → ∃ u : State,
        u = { s with
            pdm := { s.pdm with err1 := 0#32, err2 := 0#32, pwi := s.pdm.pri + BitVec.ofNat 11 s.par.targetLead },
            cnt := { s.cnt with pdmUnderrun := s.cnt.pdmUnderrun + 1#32 } }
        ∧ (u.pdm.pwi - u.pdm.pri).toNat = s.par.targetLead
        ∧ agentStep .pdmMod s = agentStep .pdmMod u
        ∧ (queueEmpty s.queue = true → agentStep .pdmMod s = .next u))
      ∧ ((s.pdm.pwi - s.pdm.pri).toNat = 1024 → ∃ t : State, agentStep .pdmMod s = .next t
          ∧ t.cnt = s.cnt ∧ t.pdm.pwi = s.pdm.pwi ∧ (queueEmpty s.queue = true → t = s))

/-- MOD_START without an underrun: a popped sample sets the target from its limited 16-bit value, a popped reset message zeroes
the integrators and sets silence, an empty queue below the cushion synthesizes a zero, and otherwise nothing is acquired
(45_pdm.md section 2). That a turn of a modulator which is not enabled changes nothing is the model's form (log 2). -/
def Obligations.ModStartAcquiresASample : Prop :=
  ∀ s : State, s.modSeq = .start → s.par.ok = true → (s.pdm.pwi - s.pdm.pri).toNat ≤ 1024 →
    (queueEmpty s.queue = false → (queueFront s).reset = false → ∃ (t : State) (pcm : Int), agentStep .pdmMod s = .next t
        ∧ pcm = min (max ((queueFront s).sample.toInt / 2 ^ 14) (-(s.par.clip : Int))) s.par.clip
        ∧ t.pdm = { s.pdm with target := t.pdm.target, mode := .modulate } ∧ (t.pdm.target.toNat : Int) = pcm + 32768
        ∧ t.modSeq = .chunk 0 ∧ t.queue = { s.queue with tail := s.queue.tail + 1#8 }
        ∧ { t with pdm := s.pdm, modSeq := s.modSeq, queue := s.queue } = s)
      ∧ (queueEmpty s.queue = false → (queueFront s).reset = true →
          agentStep .pdmMod s
            = .next { s with
                pdm := { s.pdm with err1 := 0#32, err2 := 0#32, target := 32768#16, mode := .silence },
                modSeq := .chunk 0, queue := { s.queue with tail := s.queue.tail + 1#8 } })
      ∧ (queueEmpty s.queue = true → (s.pdm.pwi - s.pdm.pri).toNat < s.par.targetLead →
          agentStep .pdmMod s
            = .next { s with pdm := { s.pdm with target := 32768#16, mode := .modulate }, modSeq := .chunk 0 })
      ∧ (queueEmpty s.queue = true → s.par.targetLead ≤ (s.pdm.pwi - s.pdm.pri).toNat →
          enabled .pdmMod s = false ∧ agentStep .pdmMod s = .next s)

/-- The 32 decisions of a chunk: bit 31 - b of the word is 1 exactly when err2 + d >= 0 after the first b decisions, and each
decision updates err1 first and err2 from the err1 just written, both wrapped to 32 bits (R350). -/
def Obligations.ChunkBitsAreTheDecisions : Prop :=
  ∀ (target : BitVec 16) (d : Int) (e1 e2 : Word) (b : Nat), b < 32 →
    ((packWord (decisions target d 32 e1 e2).bits).getLsbD (31 - b) = true ↔
        0 ≤ (decisions target d b e1 e2).err2.toInt + d)
      ∧ (∃ fb : Int,
          (0 ≤ (decisions target d b e1 e2).err2.toInt + d → fb = 65535)
          ∧ ((decisions target d b e1 e2).err2.toInt + d < 0 → fb = 0)
          ∧ (decisions target d (b + 1) e1 e2).err1
              = BitVec.ofInt 32 ((decisions target d b e1 e2).err1.toInt + target.toNat - fb)
          ∧ (decisions target d (b + 1) e1 e2).err2
              = BitVec.ofInt 32
                  ((decisions target d b e1 e2).err2.toInt + (decisions target d (b + 1) e1 e2).err1.toInt - fb))
      ∧ packWord (decisions 32768#16 0 32 0#32 0#32).bits = 0x8B333333#32

/-- One chunk of a modulated sample draws one dither value, within DITHER_MAX, stores the word of its 32 decisions at RING[PWI],
advances PWI, and after the eighth chunk takes each integrator v to v - asr(v, 16), which never overflows; every other ring
word stays (45_pdm.md section 2; where the dither value comes from is the model's free value, log 5). -/
def Obligations.ModChunkStoresOneWord : Prop :=
  ∀ (s : State) (c : Fin 8), s.modSeq = .chunk c → s.pdm.mode = .modulate →
    ∃ (t : State) (d : Decisions), agentStep .pdmMod s = .next t
      ∧ d = decisions s.pdm.target (ditherValue s) 32 s.pdm.err1 s.pdm.err2
      ∧ -(s.par.ditherMax : Int) ≤ ditherValue s ∧ ditherValue s ≤ s.par.ditherMax
      ∧ (∀ a, readRing t.pdm.ring a = if a = s.pdm.pwi then packWord d.bits else readRing s.pdm.ring a)
      ∧ t.pdm.pwi = s.pdm.pwi + 1#11
      ∧ (c.val < 7 → t.pdm.err1 = d.err1 ∧ t.pdm.err2 = d.err2 ∧ ∀ c' : Fin 8, c'.val = c.val + 1 → t.modSeq = .chunk c')
      ∧ (c.val = 7 → t.modSeq = .start
          ∧ t.pdm.err1.toInt = d.err1.toInt - d.err1.toInt / 2 ^ 16 ∧ t.pdm.err2.toInt = d.err2.toInt - d.err2.toInt / 2 ^ 16)
      ∧ { t with
          pdm := { t.pdm with ring := s.pdm.ring, pwi := s.pdm.pwi, err1 := s.pdm.err1, err2 := s.pdm.err2 },
          modSeq := s.modSeq } = ditherAdvance s

/-- One sample writes exactly eight consecutive ring words and ends in MOD_START; a silence sample writes 0xAAAAAAAA eight
times, draws no dither and leaves the integrators. Derived by the spec: "It writes exactly 8 consecutive ring words"
(45_pdm.md section 2). -/
def Obligations.SampleWritesEightWords : Prop :=
  ∀ s : State, s.modSeq = .chunk 0 → ∃ t : State, turns .pdmMod 8 s = .next t
    ∧ t.modSeq = .start ∧ t.pdm.pwi = s.pdm.pwi + 8#11 ∧ t.pdm.pri = s.pdm.pri ∧ t.queue = s.queue ∧ t.cnt = s.cnt
    ∧ (∀ a : BitVec 11, 8 ≤ (a - s.pdm.pwi).toNat → readRing t.pdm.ring a = readRing s.pdm.ring a)
    ∧ (s.pdm.mode = .silence →
        (∀ a : BitVec 11, (a - s.pdm.pwi).toNat < 8 → readRing t.pdm.ring a = 0xAAAAAAAA#32)
          ∧ t.pdm.err1 = s.pdm.err1 ∧ t.pdm.err2 = s.pdm.err2 ∧ t.draws = s.draws ∧ t.ditherIn = s.ditherIn)

/-- The boundedness the spec gives as a property to check: with CLIP at most 31129, any input held from rest with zero dither,
+CLIP and -CLIP among them, leaves both integrators within 2^23 after every decision, however long it is held, so that they
never wrap; and eight MOD_CHUNK steps of a modulated sample are what `heldSample` says (45_pdm.md section 4). The number 2^23
and the zero dither are the model's choice (log 25): the spec names no bound and leaves the dither's range open. -/
def Obligations.IntegratorsStayBoundedWhileHeld : Prop :=
  (∀ (p : Params) (sample : Word), p.clip ≤ 31129 → boundedWhileHeld (targetOf p sample) (2 ^ 23))
    ∧ ∀ s : State, s.modSeq = .chunk 0 → s.pdm.mode = .modulate → s.par.ditherMax = 0 →
        ∃ t : State, turns .pdmMod 8 s = .next t ∧ t.pdm.target = s.pdm.target
          ∧ (t.pdm.err1, t.pdm.err2) = heldSample s.pdm.target (s.pdm.err1, s.pdm.err2)

/-- The PDM_DMA step is always enabled, sends RING[PRI] bit 31 first, advances PRI modulo 2048 and changes nothing else,
whatever PWI is (R354). -/
def Obligations.RingReaderSendsOneWord : Prop :=
  ∀ s : State, enabled .pdmDma s = true ∧ ∃ t : State, agentStep .pdmDma s = .next t
    ∧ t.out.pdm = s.out.pdm ++ (List.range 32).map (fun j => (readRing s.pdm.ring s.pdm.pri).getLsbD (31 - j))
    ∧ t.pdm.pri.toNat = (s.pdm.pri.toNat + 1) % 2048
    ∧ { t with out := { t.out with pdm := s.out.pdm }, pdm := { t.pdm with pri := s.pdm.pri } } = s

/-! The whole machine. -/

/-- Nothing stops the block: every step of every state answers a next state; each step other than a RESET raises at most one
event and counts at most one packet, and no counter changes otherwise. Case by case: a frame step can raise only
RING_OVERRUN, the start and end steps of a packet USB_UNDERRUN and SPDIF_OVERRUN, PDM_MOD PDM_UNDERRUN and only in MOD_START,
SPDIF_TX SPDIF_UNDERRUN, PDM_DMA none, and a control command CMD_INVALID, but that a PDM_MARK into a full queue raises
RING_OVERRUN; into a queue with room it raises nothing. Derived by the spec: "Each step raises at most one event" (60_exceptions.md section 1); PDM_MARK follows its own
rule (46_control.md section 2; log 17). -/
def Obligations.StepGoesOnAndRaisesAtMostOneEvent : Prop :=
  (∀ s : State, ∃ t : State, step s = .next t)
    ∧ (∀ s t : State, step s = .next t →
        (nextAgent s = .cmd → s.cmdSeq = .idle → ∀ rest, decode s.port ≠ .command .reset rest) →
          ∃ (counted : Bool) (u : State),
            u = { s with cnt := { s.cnt with
                pktCount := if counted = true then s.cnt.pktCount + 1#32 else s.cnt.pktCount } }
              ∧ countsAtMost [.spdifOverrun, .usbUnderrun, .ringOverrun, .pdmUnderrun, .spdifUnderrun, .cmdInvalid] u t)
    ∧ (∀ (s t : State) (k : Nat), s.cmdSeq = .pktFrame k → agentStep .cmd s = .next t → countsAtMost [.ringOverrun] s t)
    ∧ (∀ s t : State, s.cmdSeq = .pktEnd → agentStep .cmd s = .next t → countsAtMost [.spdifOverrun] s t)
    ∧ (∀ (s t : State) (n : BitVec 16) (gap : Word) (fs : List Word), exec (.packet n gap fs) s = .next t →
        (packetCountOk n = true →
            countsAtMost [.usbUnderrun] { s with cnt := { s.cnt with pktCount := s.cnt.pktCount + 1#32 } } t)
          ∧ (packetCountOk n = false → countsAtMost [.cmdInvalid] s t))
    ∧ (∀ (s t : State) (i : Instr), i ≠ .reset → i ≠ .pdmMark → (∀ n gap fs, i ≠ .packet n gap fs) → exec i s = .next t →
        countsAtMost [.cmdInvalid] s t)
    ∧ (∀ s t : State, exec .pdmMark s = .next t →
        countsAtMost [.ringOverrun] s t ∧ (queueFull s.queue = false → t.cnt = s.cnt))
    ∧ ∀ s t : State,
        (agentStep .pdmMod s = .next t →
            countsAtMost [.pdmUnderrun] s t ∧ (s.modSeq ≠ .start → t.cnt = s.cnt))
          ∧ (agentStep .spdifTx s = .next t → countsAtMost [.spdifUnderrun] s t)
          ∧ (agentStep .pdmDma s = .next t → t.cnt = s.cnt)

/-- The three output streams are append-only: no step, RESET included, takes back what was emitted, each agent appends only to
its own stream, and a step appends at most one word of cells or bits (10_state.md section 5). -/
def Obligations.OutputStreamsAreAppendOnly : Prop :=
  ∀ s t : State, step s = .next t → ∃ (cells bits : List Bool) (words : List Word),
    t.out.spdif = s.out.spdif ++ cells ∧ t.out.pdm = s.out.pdm ++ bits ∧ t.out.resp = s.out.resp ++ words
      ∧ cells.length ≤ 32 ∧ bits.length ≤ 32 ∧ words.length ≤ 6
      ∧ (nextAgent s ≠ .spdifTx → cells = []) ∧ (nextAgent s ≠ .pdmDma → bits = []) ∧ (nextAgent s ≠ .cmd → words = [])

/-- Each agent writes only its own state: SPDIF_TX the FIFOs, TX_RUNNING, its sequencer, its stream and its counter; PDM_MOD the
modulator state but PRI, QTAIL, its sequencer, its counter and the dither position; PDM_DMA the read index and its stream;
and CMD, but by a RESET, nothing of these save the FIFOs (20_memory.md section 5). -/
def Obligations.EachAgentWritesOnlyItsOwnState : Prop :=
  ∀ s t : State,
    (agentStep .spdifTx s = .next t →
        { t with
          txSeq := s.txSeq, out := { t.out with spdif := s.out.spdif },
          cnt := { t.cnt with spdifUnderrun := s.cnt.spdifUnderrun },
          spdif := { t.spdif with free := s.spdif.free, ready := s.spdif.ready, running := s.spdif.running } } = s)
      ∧ (agentStep .pdmMod s = .next t →
        t.pdm.pri = s.pdm.pri
          ∧ { t with
              pdm := s.pdm, modSeq := s.modSeq, queue := { t.queue with tail := s.queue.tail },
              cnt := { t.cnt with pdmUnderrun := s.cnt.pdmUnderrun }, ditherIn := s.ditherIn, draws := s.draws } = s)
      ∧ (agentStep .pdmDma s = .next t →
        { t with out := { t.out with pdm := s.out.pdm }, pdm := { t.pdm with pri := s.pdm.pri } } = s)
      ∧ (agentStep .cmd s = .next t → (s.cmdSeq = .idle → ∀ rest, decode s.port ≠ .command .reset rest) →
        t.pdm = s.pdm ∧ t.queue.tail = s.queue.tail ∧ t.txSeq = s.txSeq ∧ t.modSeq = s.modSeq
          ∧ t.spdif.running = s.spdif.running ∧ t.out.spdif = s.out.spdif ∧ t.out.pdm = s.out.pdm
          ∧ t.cnt.pdmUnderrun = s.cnt.pdmUnderrun ∧ t.cnt.spdifUnderrun = s.cnt.spdifUnderrun
          ∧ t.par = s.par ∧ t.ditherIn = s.ditherIn ∧ t.draws = s.draws)

/-- Parameters change only between packets: while a packet is in progress no step of any agent changes a control register, a
coefficient, a loudness entry, the latched table and row, or the command port (20_memory.md section 5). -/
def Obligations.ParametersAreFixedDuringAPacket : Prop :=
  ∀ s t : State, s.cmdSeq ≠ .idle → step s = .next t →
    t.regs = s.regs ∧ t.loud = s.loud
      ∧ (∀ a, (Mem.read bqShape t.bq a).filter = (Mem.read bqShape s.bq a).filter)
      ∧ t.xf.lpA0 = s.xf.lpA0 ∧ t.xf.lpB1 = s.xf.lpB1 ∧ t.xf.apA = s.xf.apA
      ∧ t.pkt.act = s.pkt.act ∧ t.pkt.vi = s.pkt.vi ∧ t.pkt.n = s.pkt.n ∧ t.pkt.frames = s.pkt.frames
      ∧ t.port = s.port ∧ t.par = s.par

/-! Invariants. -/

/-- Every step keeps each buffer id in exactly one of FREE, READY, FILL and TX.seq. Derived by the spec: "Each buffer id is in
exactly one of FREE, READY, FILL or TX.seq at any time" (10_state.md section 4). -/
def Obligations.StepKeepsThePoolPartition : Prop :=
  ∀ s t : State, poolPartition s → step s = .next t → poolPartition t

/-- SILBLK always equals the zero block under the current CHSTAT: it does after power-on and every step, a CHSTAT write of
SET_REG, SET_RATE or RESET included, keeps it so (R286). -/
def Obligations.StepKeepsTheSilenceBlockCurrent : Prop :=
  (∀ p : Params, silblkCurrent (State.resetWith p))
    ∧ ∀ s t : State, silblkCurrent s → step s = .next t → silblkCurrent t

/-- The state after power-on meets every invariant, for all legal parameters: the pool partition and the clear TX_RUNNING flag,
the current silence block, exact bypass bits, legal register values, no packet in progress and integrators at rest
(70_reset_and_hazards.md section 1, with the sections that state the invariants). That every memory is in its canonical form
is no clause of the spec but the model's own choice (log 9). -/
def Obligations.PowerOnStateIsGood : Prop :=
  (∀ p : Params, p.ok = true → Inv (State.resetWith p)) ∧ Inv State.reset

/-- Every step keeps every invariant: legal parameters (00_scope.md section 4), the pool partition (10_state.md section 4), the
TX_RUNNING flag and a current silence block (43_spdif.md section 3), exact bypass bits (10_state.md section 4), legal register
values (10_state.md sections 3 and 4), a consistent packet in progress of 32 to 96 frames (10_state.md section 1;
41_ingest.md), and integrators at rest during silence (45_pdm.md section 2). The clause that every memory is in its canonical
form is no rule of the spec but the model's own choice (log 9). -/
def Obligations.StepKeepsEveryInvariant : Prop :=
  ∀ s t : State, Inv s → step s = .next t → Inv t
end

