-- ==== Sys2Proof/Laws/Mem.lean ====
section
/-! SUPPORT. The laws of the block's memories: a read after a write, the canonical form and its uniqueness. -/

namespace Sys2Proof.Machine

variable {α : Type} {sh : MemShape α} {m : Mem α} {a b : Nat} {v : α}

@[simp] theorem Mem.read_nil : Mem.read sh [] a = sh.reset a := rfl

theorem Mem.read_cons (p : Nat × α) :
    Mem.read sh (p :: m) a = if p.1 = a then p.2 else Mem.read sh m a := rfl

theorem Mem.read_erase_same : Mem.read sh (Mem.erase m a) a = sh.reset a := by
  induction m with
  | nil => rfl
  | cons p m ih =>
    obtain ⟨k, w⟩ := p
    simp only [Mem.erase]
    split
    · exact ih
    · next h => simp [Mem.read_cons, h, ih]

theorem Mem.read_erase_other (h : b ≠ a) : Mem.read sh (Mem.erase m a) b = Mem.read sh m b := by
  induction m with
  | nil => rfl
  | cons p m ih =>
    obtain ⟨k, w⟩ := p
    simp only [Mem.erase]
    split
    · next hk => subst hk; simp [Mem.read_cons, ih, Ne.symm h]
    · simp [Mem.read_cons, ih]

theorem Mem.read_insert_same : Mem.read sh (Mem.insert m a v) a = v := by
  induction m with
  | nil => simp [Mem.insert, Mem.read_cons]
  | cons p m ih =>
    obtain ⟨k, w⟩ := p
    simp only [Mem.insert]
    split
    · simp [Mem.read_cons]
    · split
      · simp [Mem.read_cons]
      · next h => simp [Mem.read_cons, Ne.symm h, ih]

theorem Mem.read_insert_other (h : b ≠ a) : Mem.read sh (Mem.insert m a v) b = Mem.read sh m b := by
  induction m with
  | nil => simp [Mem.insert, Mem.read_cons, Ne.symm h]
  | cons p m ih =>
    obtain ⟨k, w⟩ := p
    simp only [Mem.insert]
    split
    · simp [Mem.read_cons, Ne.symm h]
    · split
      · next hk => subst hk; simp [Mem.read_cons, Ne.symm h]
      · simp [Mem.read_cons, ih]

variable [DecidableEq α]

/-- A read of the written entry gives the written value. -/
@[simp] theorem Mem.read_write_same : Mem.read sh (Mem.write sh m a v) a = v := by
  unfold Mem.write
  split
  · next h => rw [Mem.read_erase_same, h]
  · exact Mem.read_insert_same

/-- A write leaves every other entry alone. -/
theorem Mem.read_write_other (h : b ≠ a) : Mem.read sh (Mem.write sh m a v) b = Mem.read sh m b := by
  unfold Mem.write
  split
  · exact Mem.read_erase_other h
  · exact Mem.read_insert_other h

/-- What a memory reads after a write. -/
theorem Mem.read_write : Mem.read sh (Mem.write sh m a v) b = if b = a then v else Mem.read sh m b := by
  split
  · next h => subst h; exact Mem.read_write_same
  · next h => exact Mem.read_write_other h

/-- What a memory reads after a run of writes. -/
theorem Mem.read_writeRun (base : Nat) (f : Nat → α) (n : Nat) :
    Mem.read sh (Mem.writeRun sh base f n m) b
      = if base ≤ b ∧ b < base + n then f (b - base) else Mem.read sh m b := by
  induction n with
  | zero => simp [Mem.writeRun]
  | succ n ih =>
    rw [Mem.writeRun, Mem.read_write, ih]
    by_cases h1 : b = base + n
    · subst h1; simp
    · rw [if_neg h1]
      by_cases h2 : base ≤ b ∧ b < base + n
      · rw [if_pos h2, if_pos (by omega)]
      · rw [if_neg h2, if_neg (by omega)]

theorem Mem.wfFrom_cons {lo k : Nat} {w : α} :
    Mem.wfFrom sh lo ((k, w) :: m) = true ↔
      lo ≤ k ∧ k < sh.size ∧ w ≠ sh.reset k ∧ Mem.wfFrom sh (k + 1) m = true := by
  simp [Mem.wfFrom, and_assoc]

theorem Mem.wfFrom_mono {lo lo' : Nat} (h : Mem.wfFrom sh lo m = true) (hl : lo' ≤ lo) :
    Mem.wfFrom sh lo' m = true := by
  cases m with
  | nil => rfl
  | cons p m =>
    obtain ⟨k, w⟩ := p
    rw [Mem.wfFrom_cons] at h ⊢
    exact ⟨by omega, h.2⟩

theorem Mem.wfFrom_erase {lo : Nat} (h : Mem.wfFrom sh lo m = true) : Mem.wfFrom sh lo (Mem.erase m a) = true := by
  induction m generalizing lo with
  | nil => rfl
  | cons p m ih =>
    obtain ⟨k, w⟩ := p
    rw [Mem.wfFrom_cons] at h
    simp only [Mem.erase]
    split
    · exact Mem.wfFrom_mono (ih h.2.2.2) (by omega)
    · rw [Mem.wfFrom_cons]; exact ⟨h.1, h.2.1, h.2.2.1, ih h.2.2.2⟩

theorem Mem.wfFrom_insert {lo : Nat} (h : Mem.wfFrom sh lo m = true) (hlo : lo ≤ a) (ha : a < sh.size)
    (hv : v ≠ sh.reset a) : Mem.wfFrom sh lo (Mem.insert m a v) = true := by
  induction m generalizing lo with
  | nil => simp [Mem.insert, Mem.wfFrom, hlo, ha, hv]
  | cons p m ih =>
    obtain ⟨k, w⟩ := p
    rw [Mem.wfFrom_cons] at h
    simp only [Mem.insert]
    split
    · next hk => simp only [Mem.wfFrom_cons]; exact ⟨hlo, ha, hv, by omega, h.2⟩
    · split
      · next hk => subst hk; rw [Mem.wfFrom_cons]; exact ⟨hlo, ha, hv, h.2.2.2⟩
      · rw [Mem.wfFrom_cons]; exact ⟨h.1, h.2.1, h.2.2.1, ih h.2.2.2 (by omega)⟩

/-- A write inside the memory keeps the canonical form. -/
theorem Mem.wf_write (h : Mem.wf sh m = true) (ha : a < sh.size) : Mem.wf sh (Mem.write sh m a v) = true := by
  unfold Mem.wf Mem.write
  split
  · exact Mem.wfFrom_erase h
  · next hv => exact Mem.wfFrom_insert h (Nat.zero_le a) ha hv

/-- A run of writes inside the memory keeps the canonical form. -/
theorem Mem.wf_writeRun (base : Nat) (f : Nat → α) (n : Nat) (h : Mem.wf sh m = true) (hn : base + n ≤ sh.size) :
    Mem.wf sh (Mem.writeRun sh base f n m) = true := by
  induction n with
  | zero => exact h
  | succ n ih => exact Mem.wf_write (ih (by omega)) (by omega)

theorem Mem.read_below {lo : Nat} (h : Mem.wfFrom sh lo m = true) (hb : b < lo) : Mem.read sh m b = sh.reset b := by
  induction m generalizing lo with
  | nil => rfl
  | cons p m ih =>
    obtain ⟨k, w⟩ := p
    rw [Mem.wfFrom_cons] at h
    rw [Mem.read_cons, if_neg (by simp only; omega), ih h.2.2.2 (by omega)]

theorem Mem.ext_from {m' : Mem α} {lo lo' : Nat} (h : Mem.wfFrom sh lo m = true) (h' : Mem.wfFrom sh lo' m' = true)
    (hr : ∀ b, Mem.read sh m b = Mem.read sh m' b) : m = m' := by
  induction m generalizing lo lo' m' with
  | nil =>
    cases m' with
    | nil => rfl
    | cons p m' =>
      obtain ⟨k, w⟩ := p
      rw [Mem.wfFrom_cons] at h'
      have := hr k
      simp [Mem.read_cons] at this
      exact absurd this.symm h'.2.2.1
  | cons p m ih =>
    obtain ⟨k, w⟩ := p
    have hc := h
    rw [Mem.wfFrom_cons] at h
    cases m' with
    | nil =>
      have := hr k
      simp [Mem.read_cons] at this
      exact absurd this h.2.2.1
    | cons q m' =>
      obtain ⟨k', w'⟩ := q
      have hc' := h'
      rw [Mem.wfFrom_cons] at h'
      have hkk : k = k' := by
        rcases Nat.lt_trichotomy k k' with hlt | heq | hgt
        · have h1 := hr k
          rw [Mem.read_below (Mem.wfFrom_cons.mpr ⟨Nat.le_refl k', h'.2⟩) hlt] at h1
          simp [Mem.read_cons] at h1
          exact absurd h1 h.2.2.1
        · exact heq
        · have h1 := hr k'
          rw [Mem.read_below (Mem.wfFrom_cons.mpr ⟨Nat.le_refl k, h.2⟩) hgt] at h1
          simp [Mem.read_cons] at h1
          exact absurd h1.symm h'.2.2.1
      subst hkk
      have hw : w = w' := by simpa [Mem.read_cons] using hr k
      subst hw
      have hm : m = m' := by
        refine ih h.2.2.2 h'.2.2.2 fun b => ?_
        by_cases hb : b < k + 1
        · rw [Mem.read_below h.2.2.2 hb, Mem.read_below h'.2.2.2 hb]
        · have := hr b
          rwa [Mem.read_cons, Mem.read_cons, if_neg (by simp only; omega), if_neg (by simp only; omega)] at this
      rw [hm]

/-- The canonical form is unique: memories that read the same are equal. -/
theorem Mem.ext {m' : Mem α} (h : Mem.wf sh m = true) (h' : Mem.wf sh m' = true)
    (hr : ∀ b, Mem.read sh m b = Mem.read sh m' b) : m = m' :=
  Mem.ext_from h h' hr

/-! The named memories' writes keep their canonical forms. -/

theorem channelIndex_lt (ch : Channel) : channelIndex ch < 5 := by cases ch <;> decide

theorem wf_writeBq {m : Mem BqSlot} {ch : Channel} {b : Nat} {v : BqSlot} (h : Mem.wf bqShape m = true) (hb : b < 10) :
    Mem.wf bqShape (writeBq m ch b v) = true :=
  Mem.wf_write h (by have := channelIndex_lt ch; simp only [bqIndex, bqShape]; omega)

theorem wf_writeLoud {m : Mem Filter} {t : BitVec 1} {k j : Nat} {v : Filter} (h : Mem.wf loudShape m = true)
    (hk : k ≤ 90) (hj : j ≤ 1) : Mem.wf loudShape (writeLoud m t k j v) = true :=
  Mem.wf_write h (by have := t.isLt; simp only [loudIndex, loudShape]; omega)

theorem wf_writeLine {m : Mem Word} {a : BitVec 13} {v : Word} (h : Mem.wf lineShape m = true) :
    Mem.wf lineShape (writeLine m a v) = true :=
  Mem.wf_write h a.isLt

theorem wf_writeRing {m : Mem Word} {a : BitVec 11} {v : Word} (h : Mem.wf ringShape m = true) :
    Mem.wf ringShape (writeRing m a v) = true :=
  Mem.wf_write h a.isLt

theorem wf_writeQueue {m : Mem Msg} {a : BitVec 8} {v : Msg} (h : Mem.wf queueShape m = true) :
    Mem.wf queueShape (writeQueue m a v) = true :=
  Mem.wf_write h a.isLt

theorem wf_rewriteSilblk {m : Mem Word} {chstat : Word} (h : Mem.wf silShape m = true) :
    Mem.wf silShape (rewriteSilblk chstat m) = true :=
  Mem.wf_writeRun 0 _ 768 h (by simp [silShape])

theorem wf_writeZeroBlock {m : Mem Word} {chstat : Word} {id : Fin 8} (h : Mem.wf poolShape m = true) :
    Mem.wf poolShape (writeZeroBlock chstat id m) = true :=
  Mem.wf_writeRun _ _ 768 h (by have := id.isLt; simp only [poolIndex, poolShape]; omega)

theorem wf_writeFrame {m : Mem Word} {chstat : Word} {id : Fin 8} {k : Fin 192} {l r : BitVec 16}
    (h : Mem.wf poolShape m = true) : Mem.wf poolShape (writeFrame chstat id k l r m) = true :=
  Mem.wf_writeRun _ _ 4 h (by have := id.isLt; have := k.isLt; simp only [poolIndex, poolShape]; omega)

/-- After reset every memory is canonical. -/
theorem reset_memories_wf (p : Params) :
    Mem.wf bqShape (State.resetWith p).bq = true ∧ Mem.wf loudShape (State.resetWith p).loud = true
      ∧ Mem.wf ringShape (State.resetWith p).pdm.ring = true ∧ Mem.wf queueShape (State.resetWith p).queue.buf = true
      ∧ Mem.wf poolShape (State.resetWith p).spdif.pool = true ∧ Mem.wf silShape (State.resetWith p).spdif.silblk = true
      ∧ Mem.wf lineShape (State.resetWith p).delay.lineL = true ∧ Mem.wf lineShape (State.resetWith p).delay.lineR = true
      ∧ Mem.wf lineShape (State.resetWith p).delay.lineSub = true :=
  ⟨rfl, rfl, rfl, rfl, rfl, rfl, rfl, rfl, rfl⟩

end Sys2Proof.Machine
end

