-- ==== Sys2Proof/Laws/State.lean ====
section
/-! SUPPORT. One lemma per field per named update of State: the fields an operation does not write. -/

namespace Sys2Proof.Machine

@[simp] theorem raise_regs (s : State) (e : Event) : (raise e s).regs = s.regs := rfl
@[simp] theorem raise_peaks (s : State) (e : Event) : (raise e s).peaks = s.peaks := rfl
@[simp] theorem raise_bq (s : State) (e : Event) : (raise e s).bq = s.bq := rfl
@[simp] theorem raise_loud (s : State) (e : Event) : (raise e s).loud = s.loud := rfl
@[simp] theorem raise_lstate (s : State) (e : Event) : (raise e s).lstate = s.lstate := rfl
@[simp] theorem raise_xf (s : State) (e : Event) : (raise e s).xf = s.xf := rfl
@[simp] theorem raise_pdm (s : State) (e : Event) : (raise e s).pdm = s.pdm := rfl
@[simp] theorem raise_queue (s : State) (e : Event) : (raise e s).queue = s.queue := rfl
@[simp] theorem raise_spdif (s : State) (e : Event) : (raise e s).spdif = s.spdif := rfl
@[simp] theorem raise_delay (s : State) (e : Event) : (raise e s).delay = s.delay := rfl
@[simp] theorem raise_pkt (s : State) (e : Event) : (raise e s).pkt = s.pkt := rfl
@[simp] theorem raise_cmdSeq (s : State) (e : Event) : (raise e s).cmdSeq = s.cmdSeq := rfl
@[simp] theorem raise_txSeq (s : State) (e : Event) : (raise e s).txSeq = s.txSeq := rfl
@[simp] theorem raise_modSeq (s : State) (e : Event) : (raise e s).modSeq = s.modSeq := rfl
@[simp] theorem raise_out (s : State) (e : Event) : (raise e s).out = s.out := rfl
@[simp] theorem raise_port (s : State) (e : Event) : (raise e s).port = s.port := rfl
@[simp] theorem raise_par (s : State) (e : Event) : (raise e s).par = s.par := rfl
@[simp] theorem raise_sched (s : State) (e : Event) : (raise e s).sched = s.sched := rfl
@[simp] theorem raise_turn (s : State) (e : Event) : (raise e s).turn = s.turn := rfl
@[simp] theorem raise_ditherIn (s : State) (e : Event) : (raise e s).ditherIn = s.ditherIn := rfl
@[simp] theorem raise_draws (s : State) (e : Event) : (raise e s).draws = s.draws := rfl

@[simp] theorem respond_regs (s : State) (ws : List Word) : (respond ws s).regs = s.regs := rfl
@[simp] theorem respond_cnt (s : State) (ws : List Word) : (respond ws s).cnt = s.cnt := rfl
@[simp] theorem respond_peaks (s : State) (ws : List Word) : (respond ws s).peaks = s.peaks := rfl
@[simp] theorem respond_bq (s : State) (ws : List Word) : (respond ws s).bq = s.bq := rfl
@[simp] theorem respond_loud (s : State) (ws : List Word) : (respond ws s).loud = s.loud := rfl
@[simp] theorem respond_lstate (s : State) (ws : List Word) : (respond ws s).lstate = s.lstate := rfl
@[simp] theorem respond_xf (s : State) (ws : List Word) : (respond ws s).xf = s.xf := rfl
@[simp] theorem respond_pdm (s : State) (ws : List Word) : (respond ws s).pdm = s.pdm := rfl
@[simp] theorem respond_queue (s : State) (ws : List Word) : (respond ws s).queue = s.queue := rfl
@[simp] theorem respond_spdif (s : State) (ws : List Word) : (respond ws s).spdif = s.spdif := rfl
@[simp] theorem respond_delay (s : State) (ws : List Word) : (respond ws s).delay = s.delay := rfl
@[simp] theorem respond_pkt (s : State) (ws : List Word) : (respond ws s).pkt = s.pkt := rfl
@[simp] theorem respond_cmdSeq (s : State) (ws : List Word) : (respond ws s).cmdSeq = s.cmdSeq := rfl
@[simp] theorem respond_txSeq (s : State) (ws : List Word) : (respond ws s).txSeq = s.txSeq := rfl
@[simp] theorem respond_modSeq (s : State) (ws : List Word) : (respond ws s).modSeq = s.modSeq := rfl
@[simp] theorem respond_port (s : State) (ws : List Word) : (respond ws s).port = s.port := rfl
@[simp] theorem respond_par (s : State) (ws : List Word) : (respond ws s).par = s.par := rfl
@[simp] theorem respond_sched (s : State) (ws : List Word) : (respond ws s).sched = s.sched := rfl
@[simp] theorem respond_turn (s : State) (ws : List Word) : (respond ws s).turn = s.turn := rfl
@[simp] theorem respond_ditherIn (s : State) (ws : List Word) : (respond ws s).ditherIn = s.ditherIn := rfl
@[simp] theorem respond_draws (s : State) (ws : List Word) : (respond ws s).draws = s.draws := rfl

@[simp] theorem emitSpdif_regs (s : State) (w : Word) : (emitSpdif w s).regs = s.regs := rfl
@[simp] theorem emitSpdif_cnt (s : State) (w : Word) : (emitSpdif w s).cnt = s.cnt := rfl
@[simp] theorem emitSpdif_peaks (s : State) (w : Word) : (emitSpdif w s).peaks = s.peaks := rfl
@[simp] theorem emitSpdif_bq (s : State) (w : Word) : (emitSpdif w s).bq = s.bq := rfl
@[simp] theorem emitSpdif_loud (s : State) (w : Word) : (emitSpdif w s).loud = s.loud := rfl
@[simp] theorem emitSpdif_lstate (s : State) (w : Word) : (emitSpdif w s).lstate = s.lstate := rfl
@[simp] theorem emitSpdif_xf (s : State) (w : Word) : (emitSpdif w s).xf = s.xf := rfl
@[simp] theorem emitSpdif_pdm (s : State) (w : Word) : (emitSpdif w s).pdm = s.pdm := rfl
@[simp] theorem emitSpdif_queue (s : State) (w : Word) : (emitSpdif w s).queue = s.queue := rfl
@[simp] theorem emitSpdif_spdif (s : State) (w : Word) : (emitSpdif w s).spdif = s.spdif := rfl
@[simp] theorem emitSpdif_delay (s : State) (w : Word) : (emitSpdif w s).delay = s.delay := rfl
@[simp] theorem emitSpdif_pkt (s : State) (w : Word) : (emitSpdif w s).pkt = s.pkt := rfl
@[simp] theorem emitSpdif_cmdSeq (s : State) (w : Word) : (emitSpdif w s).cmdSeq = s.cmdSeq := rfl
@[simp] theorem emitSpdif_txSeq (s : State) (w : Word) : (emitSpdif w s).txSeq = s.txSeq := rfl
@[simp] theorem emitSpdif_modSeq (s : State) (w : Word) : (emitSpdif w s).modSeq = s.modSeq := rfl
@[simp] theorem emitSpdif_port (s : State) (w : Word) : (emitSpdif w s).port = s.port := rfl
@[simp] theorem emitSpdif_par (s : State) (w : Word) : (emitSpdif w s).par = s.par := rfl
@[simp] theorem emitSpdif_sched (s : State) (w : Word) : (emitSpdif w s).sched = s.sched := rfl
@[simp] theorem emitSpdif_turn (s : State) (w : Word) : (emitSpdif w s).turn = s.turn := rfl
@[simp] theorem emitSpdif_ditherIn (s : State) (w : Word) : (emitSpdif w s).ditherIn = s.ditherIn := rfl
@[simp] theorem emitSpdif_draws (s : State) (w : Word) : (emitSpdif w s).draws = s.draws := rfl

@[simp] theorem emitPdm_regs (s : State) (w : Word) : (emitPdm w s).regs = s.regs := rfl
@[simp] theorem emitPdm_cnt (s : State) (w : Word) : (emitPdm w s).cnt = s.cnt := rfl
@[simp] theorem emitPdm_peaks (s : State) (w : Word) : (emitPdm w s).peaks = s.peaks := rfl
@[simp] theorem emitPdm_bq (s : State) (w : Word) : (emitPdm w s).bq = s.bq := rfl
@[simp] theorem emitPdm_loud (s : State) (w : Word) : (emitPdm w s).loud = s.loud := rfl
@[simp] theorem emitPdm_lstate (s : State) (w : Word) : (emitPdm w s).lstate = s.lstate := rfl
@[simp] theorem emitPdm_xf (s : State) (w : Word) : (emitPdm w s).xf = s.xf := rfl
@[simp] theorem emitPdm_pdm (s : State) (w : Word) : (emitPdm w s).pdm = s.pdm := rfl
@[simp] theorem emitPdm_queue (s : State) (w : Word) : (emitPdm w s).queue = s.queue := rfl
@[simp] theorem emitPdm_spdif (s : State) (w : Word) : (emitPdm w s).spdif = s.spdif := rfl
@[simp] theorem emitPdm_delay (s : State) (w : Word) : (emitPdm w s).delay = s.delay := rfl
@[simp] theorem emitPdm_pkt (s : State) (w : Word) : (emitPdm w s).pkt = s.pkt := rfl
@[simp] theorem emitPdm_cmdSeq (s : State) (w : Word) : (emitPdm w s).cmdSeq = s.cmdSeq := rfl
@[simp] theorem emitPdm_txSeq (s : State) (w : Word) : (emitPdm w s).txSeq = s.txSeq := rfl
@[simp] theorem emitPdm_modSeq (s : State) (w : Word) : (emitPdm w s).modSeq = s.modSeq := rfl
@[simp] theorem emitPdm_port (s : State) (w : Word) : (emitPdm w s).port = s.port := rfl
@[simp] theorem emitPdm_par (s : State) (w : Word) : (emitPdm w s).par = s.par := rfl
@[simp] theorem emitPdm_sched (s : State) (w : Word) : (emitPdm w s).sched = s.sched := rfl
@[simp] theorem emitPdm_turn (s : State) (w : Word) : (emitPdm w s).turn = s.turn := rfl
@[simp] theorem emitPdm_ditherIn (s : State) (w : Word) : (emitPdm w s).ditherIn = s.ditherIn := rfl
@[simp] theorem emitPdm_draws (s : State) (w : Word) : (emitPdm w s).draws = s.draws := rfl

@[simp] theorem refuseCommand_regs (s : State) (n : Nat) : (refuseCommand n s).regs = s.regs := rfl
@[simp] theorem refuseCommand_peaks (s : State) (n : Nat) : (refuseCommand n s).peaks = s.peaks := rfl
@[simp] theorem refuseCommand_bq (s : State) (n : Nat) : (refuseCommand n s).bq = s.bq := rfl
@[simp] theorem refuseCommand_loud (s : State) (n : Nat) : (refuseCommand n s).loud = s.loud := rfl
@[simp] theorem refuseCommand_lstate (s : State) (n : Nat) : (refuseCommand n s).lstate = s.lstate := rfl
@[simp] theorem refuseCommand_xf (s : State) (n : Nat) : (refuseCommand n s).xf = s.xf := rfl
@[simp] theorem refuseCommand_pdm (s : State) (n : Nat) : (refuseCommand n s).pdm = s.pdm := rfl
@[simp] theorem refuseCommand_queue (s : State) (n : Nat) : (refuseCommand n s).queue = s.queue := rfl
@[simp] theorem refuseCommand_spdif (s : State) (n : Nat) : (refuseCommand n s).spdif = s.spdif := rfl
@[simp] theorem refuseCommand_delay (s : State) (n : Nat) : (refuseCommand n s).delay = s.delay := rfl
@[simp] theorem refuseCommand_pkt (s : State) (n : Nat) : (refuseCommand n s).pkt = s.pkt := rfl
@[simp] theorem refuseCommand_cmdSeq (s : State) (n : Nat) : (refuseCommand n s).cmdSeq = s.cmdSeq := rfl
@[simp] theorem refuseCommand_txSeq (s : State) (n : Nat) : (refuseCommand n s).txSeq = s.txSeq := rfl
@[simp] theorem refuseCommand_modSeq (s : State) (n : Nat) : (refuseCommand n s).modSeq = s.modSeq := rfl
@[simp] theorem refuseCommand_port (s : State) (n : Nat) : (refuseCommand n s).port = s.port := rfl
@[simp] theorem refuseCommand_par (s : State) (n : Nat) : (refuseCommand n s).par = s.par := rfl
@[simp] theorem refuseCommand_sched (s : State) (n : Nat) : (refuseCommand n s).sched = s.sched := rfl
@[simp] theorem refuseCommand_turn (s : State) (n : Nat) : (refuseCommand n s).turn = s.turn := rfl
@[simp] theorem refuseCommand_ditherIn (s : State) (n : Nat) : (refuseCommand n s).ditherIn = s.ditherIn := rfl
@[simp] theorem refuseCommand_draws (s : State) (n : Nat) : (refuseCommand n s).draws = s.draws := rfl

@[simp] theorem queuePush_regs (s : State) (m : Msg) : (queuePush m s).regs = s.regs := by unfold queuePush; split <;> rfl
@[simp] theorem queuePush_peaks (s : State) (m : Msg) : (queuePush m s).peaks = s.peaks := by unfold queuePush; split <;> rfl
@[simp] theorem queuePush_bq (s : State) (m : Msg) : (queuePush m s).bq = s.bq := by unfold queuePush; split <;> rfl
@[simp] theorem queuePush_loud (s : State) (m : Msg) : (queuePush m s).loud = s.loud := by unfold queuePush; split <;> rfl
@[simp] theorem queuePush_lstate (s : State) (m : Msg) : (queuePush m s).lstate = s.lstate := by unfold queuePush; split <;> rfl
@[simp] theorem queuePush_xf (s : State) (m : Msg) : (queuePush m s).xf = s.xf := by unfold queuePush; split <;> rfl
@[simp] theorem queuePush_pdm (s : State) (m : Msg) : (queuePush m s).pdm = s.pdm := by unfold queuePush; split <;> rfl
@[simp] theorem queuePush_spdif (s : State) (m : Msg) : (queuePush m s).spdif = s.spdif := by unfold queuePush; split <;> rfl
@[simp] theorem queuePush_delay (s : State) (m : Msg) : (queuePush m s).delay = s.delay := by unfold queuePush; split <;> rfl
@[simp] theorem queuePush_pkt (s : State) (m : Msg) : (queuePush m s).pkt = s.pkt := by unfold queuePush; split <;> rfl
@[simp] theorem queuePush_cmdSeq (s : State) (m : Msg) : (queuePush m s).cmdSeq = s.cmdSeq := by unfold queuePush; split <;> rfl
@[simp] theorem queuePush_txSeq (s : State) (m : Msg) : (queuePush m s).txSeq = s.txSeq := by unfold queuePush; split <;> rfl
@[simp] theorem queuePush_modSeq (s : State) (m : Msg) : (queuePush m s).modSeq = s.modSeq := by unfold queuePush; split <;> rfl
@[simp] theorem queuePush_out (s : State) (m : Msg) : (queuePush m s).out = s.out := by unfold queuePush; split <;> rfl
@[simp] theorem queuePush_port (s : State) (m : Msg) : (queuePush m s).port = s.port := by unfold queuePush; split <;> rfl
@[simp] theorem queuePush_par (s : State) (m : Msg) : (queuePush m s).par = s.par := by unfold queuePush; split <;> rfl
@[simp] theorem queuePush_sched (s : State) (m : Msg) : (queuePush m s).sched = s.sched := by unfold queuePush; split <;> rfl
@[simp] theorem queuePush_turn (s : State) (m : Msg) : (queuePush m s).turn = s.turn := by unfold queuePush; split <;> rfl
@[simp] theorem queuePush_ditherIn (s : State) (m : Msg) : (queuePush m s).ditherIn = s.ditherIn := by unfold queuePush; split <;> rfl
@[simp] theorem queuePush_draws (s : State) (m : Msg) : (queuePush m s).draws = s.draws := by unfold queuePush; split <;> rfl

@[simp] theorem queueAdvance_regs (s : State) : (queueAdvance s).regs = s.regs := rfl
@[simp] theorem queueAdvance_cnt (s : State) : (queueAdvance s).cnt = s.cnt := rfl
@[simp] theorem queueAdvance_peaks (s : State) : (queueAdvance s).peaks = s.peaks := rfl
@[simp] theorem queueAdvance_bq (s : State) : (queueAdvance s).bq = s.bq := rfl
@[simp] theorem queueAdvance_loud (s : State) : (queueAdvance s).loud = s.loud := rfl
@[simp] theorem queueAdvance_lstate (s : State) : (queueAdvance s).lstate = s.lstate := rfl
@[simp] theorem queueAdvance_xf (s : State) : (queueAdvance s).xf = s.xf := rfl
@[simp] theorem queueAdvance_pdm (s : State) : (queueAdvance s).pdm = s.pdm := rfl
@[simp] theorem queueAdvance_spdif (s : State) : (queueAdvance s).spdif = s.spdif := rfl
@[simp] theorem queueAdvance_delay (s : State) : (queueAdvance s).delay = s.delay := rfl
@[simp] theorem queueAdvance_pkt (s : State) : (queueAdvance s).pkt = s.pkt := rfl
@[simp] theorem queueAdvance_cmdSeq (s : State) : (queueAdvance s).cmdSeq = s.cmdSeq := rfl
@[simp] theorem queueAdvance_txSeq (s : State) : (queueAdvance s).txSeq = s.txSeq := rfl
@[simp] theorem queueAdvance_modSeq (s : State) : (queueAdvance s).modSeq = s.modSeq := rfl
@[simp] theorem queueAdvance_out (s : State) : (queueAdvance s).out = s.out := rfl
@[simp] theorem queueAdvance_port (s : State) : (queueAdvance s).port = s.port := rfl
@[simp] theorem queueAdvance_par (s : State) : (queueAdvance s).par = s.par := rfl
@[simp] theorem queueAdvance_sched (s : State) : (queueAdvance s).sched = s.sched := rfl
@[simp] theorem queueAdvance_turn (s : State) : (queueAdvance s).turn = s.turn := rfl
@[simp] theorem queueAdvance_ditherIn (s : State) : (queueAdvance s).ditherIn = s.ditherIn := rfl
@[simp] theorem queueAdvance_draws (s : State) : (queueAdvance s).draws = s.draws := rfl

@[simp] theorem spdifAppend_regs (s : State) (l r : BitVec 16) : (spdifAppend l r s).regs = s.regs := by unfold spdifAppend; split <;> rfl
@[simp] theorem spdifAppend_cnt (s : State) (l r : BitVec 16) : (spdifAppend l r s).cnt = s.cnt := by unfold spdifAppend; split <;> rfl
@[simp] theorem spdifAppend_peaks (s : State) (l r : BitVec 16) : (spdifAppend l r s).peaks = s.peaks := by unfold spdifAppend; split <;> rfl
@[simp] theorem spdifAppend_bq (s : State) (l r : BitVec 16) : (spdifAppend l r s).bq = s.bq := by unfold spdifAppend; split <;> rfl
@[simp] theorem spdifAppend_loud (s : State) (l r : BitVec 16) : (spdifAppend l r s).loud = s.loud := by unfold spdifAppend; split <;> rfl
@[simp] theorem spdifAppend_lstate (s : State) (l r : BitVec 16) : (spdifAppend l r s).lstate = s.lstate := by unfold spdifAppend; split <;> rfl
@[simp] theorem spdifAppend_xf (s : State) (l r : BitVec 16) : (spdifAppend l r s).xf = s.xf := by unfold spdifAppend; split <;> rfl
@[simp] theorem spdifAppend_pdm (s : State) (l r : BitVec 16) : (spdifAppend l r s).pdm = s.pdm := by unfold spdifAppend; split <;> rfl
@[simp] theorem spdifAppend_queue (s : State) (l r : BitVec 16) : (spdifAppend l r s).queue = s.queue := by unfold spdifAppend; split <;> rfl
@[simp] theorem spdifAppend_delay (s : State) (l r : BitVec 16) : (spdifAppend l r s).delay = s.delay := by unfold spdifAppend; split <;> rfl
@[simp] theorem spdifAppend_cmdSeq (s : State) (l r : BitVec 16) : (spdifAppend l r s).cmdSeq = s.cmdSeq := by unfold spdifAppend; split <;> rfl
@[simp] theorem spdifAppend_txSeq (s : State) (l r : BitVec 16) : (spdifAppend l r s).txSeq = s.txSeq := by unfold spdifAppend; split <;> rfl
@[simp] theorem spdifAppend_modSeq (s : State) (l r : BitVec 16) : (spdifAppend l r s).modSeq = s.modSeq := by unfold spdifAppend; split <;> rfl
@[simp] theorem spdifAppend_out (s : State) (l r : BitVec 16) : (spdifAppend l r s).out = s.out := by unfold spdifAppend; split <;> rfl
@[simp] theorem spdifAppend_port (s : State) (l r : BitVec 16) : (spdifAppend l r s).port = s.port := by unfold spdifAppend; split <;> rfl
@[simp] theorem spdifAppend_par (s : State) (l r : BitVec 16) : (spdifAppend l r s).par = s.par := by unfold spdifAppend; split <;> rfl
@[simp] theorem spdifAppend_sched (s : State) (l r : BitVec 16) : (spdifAppend l r s).sched = s.sched := by unfold spdifAppend; split <;> rfl
@[simp] theorem spdifAppend_turn (s : State) (l r : BitVec 16) : (spdifAppend l r s).turn = s.turn := by unfold spdifAppend; split <;> rfl
@[simp] theorem spdifAppend_ditherIn (s : State) (l r : BitVec 16) : (spdifAppend l r s).ditherIn = s.ditherIn := by unfold spdifAppend; split <;> rfl
@[simp] theorem spdifAppend_draws (s : State) (l r : BitVec 16) : (spdifAppend l r s).draws = s.draws := by unfold spdifAppend; split <;> rfl

@[simp] theorem spdifPrefill_regs (s : State) (n : Nat) : (spdifPrefill n s).regs = s.regs := rfl
@[simp] theorem spdifPrefill_cnt (s : State) (n : Nat) : (spdifPrefill n s).cnt = s.cnt := rfl
@[simp] theorem spdifPrefill_peaks (s : State) (n : Nat) : (spdifPrefill n s).peaks = s.peaks := rfl
@[simp] theorem spdifPrefill_bq (s : State) (n : Nat) : (spdifPrefill n s).bq = s.bq := rfl
@[simp] theorem spdifPrefill_loud (s : State) (n : Nat) : (spdifPrefill n s).loud = s.loud := rfl
@[simp] theorem spdifPrefill_lstate (s : State) (n : Nat) : (spdifPrefill n s).lstate = s.lstate := rfl
@[simp] theorem spdifPrefill_xf (s : State) (n : Nat) : (spdifPrefill n s).xf = s.xf := rfl
@[simp] theorem spdifPrefill_pdm (s : State) (n : Nat) : (spdifPrefill n s).pdm = s.pdm := rfl
@[simp] theorem spdifPrefill_queue (s : State) (n : Nat) : (spdifPrefill n s).queue = s.queue := rfl
@[simp] theorem spdifPrefill_delay (s : State) (n : Nat) : (spdifPrefill n s).delay = s.delay := rfl
@[simp] theorem spdifPrefill_pkt (s : State) (n : Nat) : (spdifPrefill n s).pkt = s.pkt := rfl
@[simp] theorem spdifPrefill_cmdSeq (s : State) (n : Nat) : (spdifPrefill n s).cmdSeq = s.cmdSeq := rfl
@[simp] theorem spdifPrefill_txSeq (s : State) (n : Nat) : (spdifPrefill n s).txSeq = s.txSeq := rfl
@[simp] theorem spdifPrefill_modSeq (s : State) (n : Nat) : (spdifPrefill n s).modSeq = s.modSeq := rfl
@[simp] theorem spdifPrefill_out (s : State) (n : Nat) : (spdifPrefill n s).out = s.out := rfl
@[simp] theorem spdifPrefill_port (s : State) (n : Nat) : (spdifPrefill n s).port = s.port := rfl
@[simp] theorem spdifPrefill_par (s : State) (n : Nat) : (spdifPrefill n s).par = s.par := rfl
@[simp] theorem spdifPrefill_sched (s : State) (n : Nat) : (spdifPrefill n s).sched = s.sched := rfl
@[simp] theorem spdifPrefill_turn (s : State) (n : Nat) : (spdifPrefill n s).turn = s.turn := rfl
@[simp] theorem spdifPrefill_ditherIn (s : State) (n : Nat) : (spdifPrefill n s).ditherIn = s.ditherIn := rfl
@[simp] theorem spdifPrefill_draws (s : State) (n : Nat) : (spdifPrefill n s).draws = s.draws := rfl

@[simp] theorem ditherAdvance_regs (s : State) : (ditherAdvance s).regs = s.regs := by unfold ditherAdvance; split <;> rfl
@[simp] theorem ditherAdvance_cnt (s : State) : (ditherAdvance s).cnt = s.cnt := by unfold ditherAdvance; split <;> rfl
@[simp] theorem ditherAdvance_peaks (s : State) : (ditherAdvance s).peaks = s.peaks := by unfold ditherAdvance; split <;> rfl
@[simp] theorem ditherAdvance_bq (s : State) : (ditherAdvance s).bq = s.bq := by unfold ditherAdvance; split <;> rfl
@[simp] theorem ditherAdvance_loud (s : State) : (ditherAdvance s).loud = s.loud := by unfold ditherAdvance; split <;> rfl
@[simp] theorem ditherAdvance_lstate (s : State) : (ditherAdvance s).lstate = s.lstate := by unfold ditherAdvance; split <;> rfl
@[simp] theorem ditherAdvance_xf (s : State) : (ditherAdvance s).xf = s.xf := by unfold ditherAdvance; split <;> rfl
@[simp] theorem ditherAdvance_pdm (s : State) : (ditherAdvance s).pdm = s.pdm := by unfold ditherAdvance; split <;> rfl
@[simp] theorem ditherAdvance_queue (s : State) : (ditherAdvance s).queue = s.queue := by unfold ditherAdvance; split <;> rfl
@[simp] theorem ditherAdvance_spdif (s : State) : (ditherAdvance s).spdif = s.spdif := by unfold ditherAdvance; split <;> rfl
@[simp] theorem ditherAdvance_delay (s : State) : (ditherAdvance s).delay = s.delay := by unfold ditherAdvance; split <;> rfl
@[simp] theorem ditherAdvance_pkt (s : State) : (ditherAdvance s).pkt = s.pkt := by unfold ditherAdvance; split <;> rfl
@[simp] theorem ditherAdvance_cmdSeq (s : State) : (ditherAdvance s).cmdSeq = s.cmdSeq := by unfold ditherAdvance; split <;> rfl
@[simp] theorem ditherAdvance_txSeq (s : State) : (ditherAdvance s).txSeq = s.txSeq := by unfold ditherAdvance; split <;> rfl
@[simp] theorem ditherAdvance_modSeq (s : State) : (ditherAdvance s).modSeq = s.modSeq := by unfold ditherAdvance; split <;> rfl
@[simp] theorem ditherAdvance_out (s : State) : (ditherAdvance s).out = s.out := by unfold ditherAdvance; split <;> rfl
@[simp] theorem ditherAdvance_port (s : State) : (ditherAdvance s).port = s.port := by unfold ditherAdvance; split <;> rfl
@[simp] theorem ditherAdvance_par (s : State) : (ditherAdvance s).par = s.par := by unfold ditherAdvance; split <;> rfl
@[simp] theorem ditherAdvance_sched (s : State) : (ditherAdvance s).sched = s.sched := by unfold ditherAdvance; split <;> rfl
@[simp] theorem ditherAdvance_turn (s : State) : (ditherAdvance s).turn = s.turn := by unfold ditherAdvance; split <;> rfl

/-- A rewrite of the silence block puts some memory into its place; the field lemmas below go through this form, because the
kernel would evaluate the 768 writes if they unfolded the rewrite. -/
theorem syncSilblk_shape (s : State) : ∃ m, syncSilblk s = { s with spdif := { s.spdif with silblk := m } } := ⟨_, rfl⟩

@[simp] theorem syncSilblk_regs (s : State) : (syncSilblk s).regs = s.regs := by
  obtain ⟨m, h⟩ := syncSilblk_shape s; rw [h]
@[simp] theorem syncSilblk_cnt (s : State) : (syncSilblk s).cnt = s.cnt := by
  obtain ⟨m, h⟩ := syncSilblk_shape s; rw [h]
@[simp] theorem syncSilblk_peaks (s : State) : (syncSilblk s).peaks = s.peaks := by
  obtain ⟨m, h⟩ := syncSilblk_shape s; rw [h]
@[simp] theorem syncSilblk_bq (s : State) : (syncSilblk s).bq = s.bq := by
  obtain ⟨m, h⟩ := syncSilblk_shape s; rw [h]
@[simp] theorem syncSilblk_loud (s : State) : (syncSilblk s).loud = s.loud := by
  obtain ⟨m, h⟩ := syncSilblk_shape s; rw [h]
@[simp] theorem syncSilblk_lstate (s : State) : (syncSilblk s).lstate = s.lstate := by
  obtain ⟨m, h⟩ := syncSilblk_shape s; rw [h]
@[simp] theorem syncSilblk_xf (s : State) : (syncSilblk s).xf = s.xf := by
  obtain ⟨m, h⟩ := syncSilblk_shape s; rw [h]
@[simp] theorem syncSilblk_pdm (s : State) : (syncSilblk s).pdm = s.pdm := by
  obtain ⟨m, h⟩ := syncSilblk_shape s; rw [h]
@[simp] theorem syncSilblk_queue (s : State) : (syncSilblk s).queue = s.queue := by
  obtain ⟨m, h⟩ := syncSilblk_shape s; rw [h]
@[simp] theorem syncSilblk_delay (s : State) : (syncSilblk s).delay = s.delay := by
  obtain ⟨m, h⟩ := syncSilblk_shape s; rw [h]
@[simp] theorem syncSilblk_pkt (s : State) : (syncSilblk s).pkt = s.pkt := by
  obtain ⟨m, h⟩ := syncSilblk_shape s; rw [h]
@[simp] theorem syncSilblk_cmdSeq (s : State) : (syncSilblk s).cmdSeq = s.cmdSeq := by
  obtain ⟨m, h⟩ := syncSilblk_shape s; rw [h]
@[simp] theorem syncSilblk_txSeq (s : State) : (syncSilblk s).txSeq = s.txSeq := by
  obtain ⟨m, h⟩ := syncSilblk_shape s; rw [h]
@[simp] theorem syncSilblk_modSeq (s : State) : (syncSilblk s).modSeq = s.modSeq := by
  obtain ⟨m, h⟩ := syncSilblk_shape s; rw [h]
@[simp] theorem syncSilblk_out (s : State) : (syncSilblk s).out = s.out := by
  obtain ⟨m, h⟩ := syncSilblk_shape s; rw [h]
@[simp] theorem syncSilblk_port (s : State) : (syncSilblk s).port = s.port := by
  obtain ⟨m, h⟩ := syncSilblk_shape s; rw [h]
@[simp] theorem syncSilblk_par (s : State) : (syncSilblk s).par = s.par := by
  obtain ⟨m, h⟩ := syncSilblk_shape s; rw [h]
@[simp] theorem syncSilblk_sched (s : State) : (syncSilblk s).sched = s.sched := by
  obtain ⟨m, h⟩ := syncSilblk_shape s; rw [h]
@[simp] theorem syncSilblk_turn (s : State) : (syncSilblk s).turn = s.turn := by
  obtain ⟨m, h⟩ := syncSilblk_shape s; rw [h]
@[simp] theorem syncSilblk_ditherIn (s : State) : (syncSilblk s).ditherIn = s.ditherIn := by
  obtain ⟨m, h⟩ := syncSilblk_shape s; rw [h]
@[simp] theorem syncSilblk_draws (s : State) : (syncSilblk s).draws = s.draws := by
  obtain ⟨m, h⟩ := syncSilblk_shape s; rw [h]

@[simp] theorem meter_regs (s : State) (i : PeakPoint) (x : Word) : (meter i x s).regs = s.regs := rfl
@[simp] theorem meter_cnt (s : State) (i : PeakPoint) (x : Word) : (meter i x s).cnt = s.cnt := rfl
@[simp] theorem meter_peaks (s : State) (i : PeakPoint) (x : Word) : (meter i x s).peaks = s.peaks := rfl
@[simp] theorem meter_bq (s : State) (i : PeakPoint) (x : Word) : (meter i x s).bq = s.bq := rfl
@[simp] theorem meter_loud (s : State) (i : PeakPoint) (x : Word) : (meter i x s).loud = s.loud := rfl
@[simp] theorem meter_lstate (s : State) (i : PeakPoint) (x : Word) : (meter i x s).lstate = s.lstate := rfl
@[simp] theorem meter_xf (s : State) (i : PeakPoint) (x : Word) : (meter i x s).xf = s.xf := rfl
@[simp] theorem meter_pdm (s : State) (i : PeakPoint) (x : Word) : (meter i x s).pdm = s.pdm := rfl
@[simp] theorem meter_queue (s : State) (i : PeakPoint) (x : Word) : (meter i x s).queue = s.queue := rfl
@[simp] theorem meter_spdif (s : State) (i : PeakPoint) (x : Word) : (meter i x s).spdif = s.spdif := rfl
@[simp] theorem meter_delay (s : State) (i : PeakPoint) (x : Word) : (meter i x s).delay = s.delay := rfl
@[simp] theorem meter_cmdSeq (s : State) (i : PeakPoint) (x : Word) : (meter i x s).cmdSeq = s.cmdSeq := rfl
@[simp] theorem meter_txSeq (s : State) (i : PeakPoint) (x : Word) : (meter i x s).txSeq = s.txSeq := rfl
@[simp] theorem meter_modSeq (s : State) (i : PeakPoint) (x : Word) : (meter i x s).modSeq = s.modSeq := rfl
@[simp] theorem meter_out (s : State) (i : PeakPoint) (x : Word) : (meter i x s).out = s.out := rfl
@[simp] theorem meter_port (s : State) (i : PeakPoint) (x : Word) : (meter i x s).port = s.port := rfl
@[simp] theorem meter_par (s : State) (i : PeakPoint) (x : Word) : (meter i x s).par = s.par := rfl
@[simp] theorem meter_sched (s : State) (i : PeakPoint) (x : Word) : (meter i x s).sched = s.sched := rfl
@[simp] theorem meter_turn (s : State) (i : PeakPoint) (x : Word) : (meter i x s).turn = s.turn := rfl
@[simp] theorem meter_ditherIn (s : State) (i : PeakPoint) (x : Word) : (meter i x s).ditherIn = s.ditherIn := rfl
@[simp] theorem meter_draws (s : State) (i : PeakPoint) (x : Word) : (meter i x s).draws = s.draws := rfl

@[simp] theorem countPacket_regs (s : State) : (countPacket s).regs = s.regs := rfl
@[simp] theorem countPacket_peaks (s : State) : (countPacket s).peaks = s.peaks := rfl
@[simp] theorem countPacket_bq (s : State) : (countPacket s).bq = s.bq := rfl
@[simp] theorem countPacket_loud (s : State) : (countPacket s).loud = s.loud := rfl
@[simp] theorem countPacket_lstate (s : State) : (countPacket s).lstate = s.lstate := rfl
@[simp] theorem countPacket_xf (s : State) : (countPacket s).xf = s.xf := rfl
@[simp] theorem countPacket_pdm (s : State) : (countPacket s).pdm = s.pdm := rfl
@[simp] theorem countPacket_queue (s : State) : (countPacket s).queue = s.queue := rfl
@[simp] theorem countPacket_spdif (s : State) : (countPacket s).spdif = s.spdif := rfl
@[simp] theorem countPacket_delay (s : State) : (countPacket s).delay = s.delay := rfl
@[simp] theorem countPacket_pkt (s : State) : (countPacket s).pkt = s.pkt := rfl
@[simp] theorem countPacket_cmdSeq (s : State) : (countPacket s).cmdSeq = s.cmdSeq := rfl
@[simp] theorem countPacket_txSeq (s : State) : (countPacket s).txSeq = s.txSeq := rfl
@[simp] theorem countPacket_modSeq (s : State) : (countPacket s).modSeq = s.modSeq := rfl
@[simp] theorem countPacket_out (s : State) : (countPacket s).out = s.out := rfl
@[simp] theorem countPacket_port (s : State) : (countPacket s).port = s.port := rfl
@[simp] theorem countPacket_par (s : State) : (countPacket s).par = s.par := rfl
@[simp] theorem countPacket_sched (s : State) : (countPacket s).sched = s.sched := rfl
@[simp] theorem countPacket_turn (s : State) : (countPacket s).turn = s.turn := rfl
@[simp] theorem countPacket_ditherIn (s : State) : (countPacket s).ditherIn = s.ditherIn := rfl
@[simp] theorem countPacket_draws (s : State) : (countPacket s).draws = s.draws := rfl

@[simp] theorem latchPacket_regs (s : State) (n : BitVec 16) (g : Word) (fs : List Word) : (latchPacket n g fs s).regs = s.regs := rfl
@[simp] theorem latchPacket_cnt (s : State) (n : BitVec 16) (g : Word) (fs : List Word) : (latchPacket n g fs s).cnt = s.cnt := rfl
@[simp] theorem latchPacket_peaks (s : State) (n : BitVec 16) (g : Word) (fs : List Word) : (latchPacket n g fs s).peaks = s.peaks := rfl
@[simp] theorem latchPacket_bq (s : State) (n : BitVec 16) (g : Word) (fs : List Word) : (latchPacket n g fs s).bq = s.bq := rfl
@[simp] theorem latchPacket_loud (s : State) (n : BitVec 16) (g : Word) (fs : List Word) : (latchPacket n g fs s).loud = s.loud := rfl
@[simp] theorem latchPacket_lstate (s : State) (n : BitVec 16) (g : Word) (fs : List Word) : (latchPacket n g fs s).lstate = s.lstate := rfl
@[simp] theorem latchPacket_xf (s : State) (n : BitVec 16) (g : Word) (fs : List Word) : (latchPacket n g fs s).xf = s.xf := rfl
@[simp] theorem latchPacket_pdm (s : State) (n : BitVec 16) (g : Word) (fs : List Word) : (latchPacket n g fs s).pdm = s.pdm := rfl
@[simp] theorem latchPacket_queue (s : State) (n : BitVec 16) (g : Word) (fs : List Word) : (latchPacket n g fs s).queue = s.queue := rfl
@[simp] theorem latchPacket_spdif (s : State) (n : BitVec 16) (g : Word) (fs : List Word) : (latchPacket n g fs s).spdif = s.spdif := rfl
@[simp] theorem latchPacket_delay (s : State) (n : BitVec 16) (g : Word) (fs : List Word) : (latchPacket n g fs s).delay = s.delay := rfl
@[simp] theorem latchPacket_txSeq (s : State) (n : BitVec 16) (g : Word) (fs : List Word) : (latchPacket n g fs s).txSeq = s.txSeq := rfl
@[simp] theorem latchPacket_modSeq (s : State) (n : BitVec 16) (g : Word) (fs : List Word) : (latchPacket n g fs s).modSeq = s.modSeq := rfl
@[simp] theorem latchPacket_out (s : State) (n : BitVec 16) (g : Word) (fs : List Word) : (latchPacket n g fs s).out = s.out := rfl
@[simp] theorem latchPacket_port (s : State) (n : BitVec 16) (g : Word) (fs : List Word) : (latchPacket n g fs s).port = s.port := rfl
@[simp] theorem latchPacket_par (s : State) (n : BitVec 16) (g : Word) (fs : List Word) : (latchPacket n g fs s).par = s.par := rfl
@[simp] theorem latchPacket_sched (s : State) (n : BitVec 16) (g : Word) (fs : List Word) : (latchPacket n g fs s).sched = s.sched := rfl
@[simp] theorem latchPacket_turn (s : State) (n : BitVec 16) (g : Word) (fs : List Word) : (latchPacket n g fs s).turn = s.turn := rfl
@[simp] theorem latchPacket_ditherIn (s : State) (n : BitVec 16) (g : Word) (fs : List Word) : (latchPacket n g fs s).ditherIn = s.ditherIn := rfl
@[simp] theorem latchPacket_draws (s : State) (n : BitVec 16) (g : Word) (fs : List Word) : (latchPacket n g fs s).draws = s.draws := rfl

@[simp] theorem packetGap_regs (s : State) (g : Word) : (packetGap g s).regs = s.regs := by unfold packetGap; split_ifs <;> rfl
@[simp] theorem packetGap_peaks (s : State) (g : Word) : (packetGap g s).peaks = s.peaks := by unfold packetGap; split_ifs <;> rfl
@[simp] theorem packetGap_bq (s : State) (g : Word) : (packetGap g s).bq = s.bq := by unfold packetGap; split_ifs <;> rfl
@[simp] theorem packetGap_loud (s : State) (g : Word) : (packetGap g s).loud = s.loud := by unfold packetGap; split_ifs <;> rfl
@[simp] theorem packetGap_lstate (s : State) (g : Word) : (packetGap g s).lstate = s.lstate := by unfold packetGap; split_ifs <;> rfl
@[simp] theorem packetGap_xf (s : State) (g : Word) : (packetGap g s).xf = s.xf := by unfold packetGap; split_ifs <;> rfl
@[simp] theorem packetGap_pdm (s : State) (g : Word) : (packetGap g s).pdm = s.pdm := by unfold packetGap; split_ifs <;> rfl
@[simp] theorem packetGap_queue (s : State) (g : Word) : (packetGap g s).queue = s.queue := by unfold packetGap; split_ifs <;> rfl
@[simp] theorem packetGap_delay (s : State) (g : Word) : (packetGap g s).delay = s.delay := by unfold packetGap; split_ifs <;> rfl
@[simp] theorem packetGap_cmdSeq (s : State) (g : Word) : (packetGap g s).cmdSeq = s.cmdSeq := by unfold packetGap; split_ifs <;> rfl
@[simp] theorem packetGap_txSeq (s : State) (g : Word) : (packetGap g s).txSeq = s.txSeq := by unfold packetGap; split_ifs <;> rfl
@[simp] theorem packetGap_modSeq (s : State) (g : Word) : (packetGap g s).modSeq = s.modSeq := by unfold packetGap; split_ifs <;> rfl
@[simp] theorem packetGap_out (s : State) (g : Word) : (packetGap g s).out = s.out := by unfold packetGap; split_ifs <;> rfl
@[simp] theorem packetGap_port (s : State) (g : Word) : (packetGap g s).port = s.port := by unfold packetGap; split_ifs <;> rfl
@[simp] theorem packetGap_par (s : State) (g : Word) : (packetGap g s).par = s.par := by unfold packetGap; split_ifs <;> rfl
@[simp] theorem packetGap_sched (s : State) (g : Word) : (packetGap g s).sched = s.sched := by unfold packetGap; split_ifs <;> rfl
@[simp] theorem packetGap_turn (s : State) (g : Word) : (packetGap g s).turn = s.turn := by unfold packetGap; split_ifs <;> rfl
@[simp] theorem packetGap_ditherIn (s : State) (g : Word) : (packetGap g s).ditherIn = s.ditherIn := by unfold packetGap; split_ifs <;> rfl
@[simp] theorem packetGap_draws (s : State) (g : Word) : (packetGap g s).draws = s.draws := by unfold packetGap; split_ifs <;> rfl

@[simp] theorem recoverUnderrun_regs (s : State) : (recoverUnderrun s).regs = s.regs := rfl
@[simp] theorem recoverUnderrun_peaks (s : State) : (recoverUnderrun s).peaks = s.peaks := rfl
@[simp] theorem recoverUnderrun_bq (s : State) : (recoverUnderrun s).bq = s.bq := rfl
@[simp] theorem recoverUnderrun_loud (s : State) : (recoverUnderrun s).loud = s.loud := rfl
@[simp] theorem recoverUnderrun_lstate (s : State) : (recoverUnderrun s).lstate = s.lstate := rfl
@[simp] theorem recoverUnderrun_xf (s : State) : (recoverUnderrun s).xf = s.xf := rfl
@[simp] theorem recoverUnderrun_queue (s : State) : (recoverUnderrun s).queue = s.queue := rfl
@[simp] theorem recoverUnderrun_spdif (s : State) : (recoverUnderrun s).spdif = s.spdif := rfl
@[simp] theorem recoverUnderrun_delay (s : State) : (recoverUnderrun s).delay = s.delay := rfl
@[simp] theorem recoverUnderrun_pkt (s : State) : (recoverUnderrun s).pkt = s.pkt := rfl
@[simp] theorem recoverUnderrun_cmdSeq (s : State) : (recoverUnderrun s).cmdSeq = s.cmdSeq := rfl
@[simp] theorem recoverUnderrun_txSeq (s : State) : (recoverUnderrun s).txSeq = s.txSeq := rfl
@[simp] theorem recoverUnderrun_modSeq (s : State) : (recoverUnderrun s).modSeq = s.modSeq := rfl
@[simp] theorem recoverUnderrun_out (s : State) : (recoverUnderrun s).out = s.out := rfl
@[simp] theorem recoverUnderrun_port (s : State) : (recoverUnderrun s).port = s.port := rfl
@[simp] theorem recoverUnderrun_par (s : State) : (recoverUnderrun s).par = s.par := rfl
@[simp] theorem recoverUnderrun_sched (s : State) : (recoverUnderrun s).sched = s.sched := rfl
@[simp] theorem recoverUnderrun_turn (s : State) : (recoverUnderrun s).turn = s.turn := rfl
@[simp] theorem recoverUnderrun_ditherIn (s : State) : (recoverUnderrun s).ditherIn = s.ditherIn := rfl
@[simp] theorem recoverUnderrun_draws (s : State) : (recoverUnderrun s).draws = s.draws := rfl

@[simp] theorem beginSample_regs (s : State) (t : BitVec 16) (m : ModMode) : (beginSample t m s).regs = s.regs := rfl
@[simp] theorem beginSample_cnt (s : State) (t : BitVec 16) (m : ModMode) : (beginSample t m s).cnt = s.cnt := rfl
@[simp] theorem beginSample_peaks (s : State) (t : BitVec 16) (m : ModMode) : (beginSample t m s).peaks = s.peaks := rfl
@[simp] theorem beginSample_bq (s : State) (t : BitVec 16) (m : ModMode) : (beginSample t m s).bq = s.bq := rfl
@[simp] theorem beginSample_loud (s : State) (t : BitVec 16) (m : ModMode) : (beginSample t m s).loud = s.loud := rfl
@[simp] theorem beginSample_lstate (s : State) (t : BitVec 16) (m : ModMode) : (beginSample t m s).lstate = s.lstate := rfl
@[simp] theorem beginSample_xf (s : State) (t : BitVec 16) (m : ModMode) : (beginSample t m s).xf = s.xf := rfl
@[simp] theorem beginSample_queue (s : State) (t : BitVec 16) (m : ModMode) : (beginSample t m s).queue = s.queue := rfl
@[simp] theorem beginSample_spdif (s : State) (t : BitVec 16) (m : ModMode) : (beginSample t m s).spdif = s.spdif := rfl
@[simp] theorem beginSample_delay (s : State) (t : BitVec 16) (m : ModMode) : (beginSample t m s).delay = s.delay := rfl
@[simp] theorem beginSample_pkt (s : State) (t : BitVec 16) (m : ModMode) : (beginSample t m s).pkt = s.pkt := rfl
@[simp] theorem beginSample_cmdSeq (s : State) (t : BitVec 16) (m : ModMode) : (beginSample t m s).cmdSeq = s.cmdSeq := rfl
@[simp] theorem beginSample_txSeq (s : State) (t : BitVec 16) (m : ModMode) : (beginSample t m s).txSeq = s.txSeq := rfl
@[simp] theorem beginSample_out (s : State) (t : BitVec 16) (m : ModMode) : (beginSample t m s).out = s.out := rfl
@[simp] theorem beginSample_port (s : State) (t : BitVec 16) (m : ModMode) : (beginSample t m s).port = s.port := rfl
@[simp] theorem beginSample_par (s : State) (t : BitVec 16) (m : ModMode) : (beginSample t m s).par = s.par := rfl
@[simp] theorem beginSample_sched (s : State) (t : BitVec 16) (m : ModMode) : (beginSample t m s).sched = s.sched := rfl
@[simp] theorem beginSample_turn (s : State) (t : BitVec 16) (m : ModMode) : (beginSample t m s).turn = s.turn := rfl
@[simp] theorem beginSample_ditherIn (s : State) (t : BitVec 16) (m : ModMode) : (beginSample t m s).ditherIn = s.ditherIn := rfl
@[simp] theorem beginSample_draws (s : State) (t : BitVec 16) (m : ModMode) : (beginSample t m s).draws = s.draws := rfl

@[simp] theorem takeMessage_regs (s : State) (m : Msg) : (takeMessage m s).regs = s.regs := by unfold takeMessage; split <;> rfl
@[simp] theorem takeMessage_cnt (s : State) (m : Msg) : (takeMessage m s).cnt = s.cnt := by unfold takeMessage; split <;> rfl
@[simp] theorem takeMessage_peaks (s : State) (m : Msg) : (takeMessage m s).peaks = s.peaks := by unfold takeMessage; split <;> rfl
@[simp] theorem takeMessage_bq (s : State) (m : Msg) : (takeMessage m s).bq = s.bq := by unfold takeMessage; split <;> rfl
@[simp] theorem takeMessage_loud (s : State) (m : Msg) : (takeMessage m s).loud = s.loud := by unfold takeMessage; split <;> rfl
@[simp] theorem takeMessage_lstate (s : State) (m : Msg) : (takeMessage m s).lstate = s.lstate := by unfold takeMessage; split <;> rfl
@[simp] theorem takeMessage_xf (s : State) (m : Msg) : (takeMessage m s).xf = s.xf := by unfold takeMessage; split <;> rfl
@[simp] theorem takeMessage_queue (s : State) (m : Msg) : (takeMessage m s).queue = s.queue := by unfold takeMessage; split <;> rfl
@[simp] theorem takeMessage_spdif (s : State) (m : Msg) : (takeMessage m s).spdif = s.spdif := by unfold takeMessage; split <;> rfl
@[simp] theorem takeMessage_delay (s : State) (m : Msg) : (takeMessage m s).delay = s.delay := by unfold takeMessage; split <;> rfl
@[simp] theorem takeMessage_pkt (s : State) (m : Msg) : (takeMessage m s).pkt = s.pkt := by unfold takeMessage; split <;> rfl
@[simp] theorem takeMessage_cmdSeq (s : State) (m : Msg) : (takeMessage m s).cmdSeq = s.cmdSeq := by unfold takeMessage; split <;> rfl
@[simp] theorem takeMessage_txSeq (s : State) (m : Msg) : (takeMessage m s).txSeq = s.txSeq := by unfold takeMessage; split <;> rfl
@[simp] theorem takeMessage_out (s : State) (m : Msg) : (takeMessage m s).out = s.out := by unfold takeMessage; split <;> rfl
@[simp] theorem takeMessage_port (s : State) (m : Msg) : (takeMessage m s).port = s.port := by unfold takeMessage; split <;> rfl
@[simp] theorem takeMessage_par (s : State) (m : Msg) : (takeMessage m s).par = s.par := by unfold takeMessage; split <;> rfl
@[simp] theorem takeMessage_sched (s : State) (m : Msg) : (takeMessage m s).sched = s.sched := by unfold takeMessage; split <;> rfl
@[simp] theorem takeMessage_turn (s : State) (m : Msg) : (takeMessage m s).turn = s.turn := by unfold takeMessage; split <;> rfl
@[simp] theorem takeMessage_ditherIn (s : State) (m : Msg) : (takeMessage m s).ditherIn = s.ditherIn := by unfold takeMessage; split <;> rfl
@[simp] theorem takeMessage_draws (s : State) (m : Msg) : (takeMessage m s).draws = s.draws := by unfold takeMessage; split <;> rfl

@[simp] theorem acquire_regs (s : State) (l : Nat) : (acquire l s).regs = s.regs := by unfold acquire takeMessage; split_ifs <;> rfl
@[simp] theorem acquire_cnt (s : State) (l : Nat) : (acquire l s).cnt = s.cnt := by unfold acquire takeMessage; split_ifs <;> rfl
@[simp] theorem acquire_peaks (s : State) (l : Nat) : (acquire l s).peaks = s.peaks := by unfold acquire takeMessage; split_ifs <;> rfl
@[simp] theorem acquire_bq (s : State) (l : Nat) : (acquire l s).bq = s.bq := by unfold acquire takeMessage; split_ifs <;> rfl
@[simp] theorem acquire_loud (s : State) (l : Nat) : (acquire l s).loud = s.loud := by unfold acquire takeMessage; split_ifs <;> rfl
@[simp] theorem acquire_lstate (s : State) (l : Nat) : (acquire l s).lstate = s.lstate := by unfold acquire takeMessage; split_ifs <;> rfl
@[simp] theorem acquire_xf (s : State) (l : Nat) : (acquire l s).xf = s.xf := by unfold acquire takeMessage; split_ifs <;> rfl
@[simp] theorem acquire_spdif (s : State) (l : Nat) : (acquire l s).spdif = s.spdif := by unfold acquire takeMessage; split_ifs <;> rfl
@[simp] theorem acquire_delay (s : State) (l : Nat) : (acquire l s).delay = s.delay := by unfold acquire takeMessage; split_ifs <;> rfl
@[simp] theorem acquire_pkt (s : State) (l : Nat) : (acquire l s).pkt = s.pkt := by unfold acquire takeMessage; split_ifs <;> rfl
@[simp] theorem acquire_cmdSeq (s : State) (l : Nat) : (acquire l s).cmdSeq = s.cmdSeq := by unfold acquire takeMessage; split_ifs <;> rfl
@[simp] theorem acquire_txSeq (s : State) (l : Nat) : (acquire l s).txSeq = s.txSeq := by unfold acquire takeMessage; split_ifs <;> rfl
@[simp] theorem acquire_out (s : State) (l : Nat) : (acquire l s).out = s.out := by unfold acquire takeMessage; split_ifs <;> rfl
@[simp] theorem acquire_port (s : State) (l : Nat) : (acquire l s).port = s.port := by unfold acquire takeMessage; split_ifs <;> rfl
@[simp] theorem acquire_par (s : State) (l : Nat) : (acquire l s).par = s.par := by unfold acquire takeMessage; split_ifs <;> rfl
@[simp] theorem acquire_sched (s : State) (l : Nat) : (acquire l s).sched = s.sched := by unfold acquire takeMessage; split_ifs <;> rfl
@[simp] theorem acquire_turn (s : State) (l : Nat) : (acquire l s).turn = s.turn := by unfold acquire takeMessage; split_ifs <;> rfl
@[simp] theorem acquire_ditherIn (s : State) (l : Nat) : (acquire l s).ditherIn = s.ditherIn := by unfold acquire takeMessage; split_ifs <;> rfl
@[simp] theorem acquire_draws (s : State) (l : Nat) : (acquire l s).draws = s.draws := by unfold acquire takeMessage; split_ifs <;> rfl

@[simp] theorem modStart_regs (s : State) : (modStart s).regs = s.regs := by unfold modStart acquire takeMessage; split_ifs <;> rfl
@[simp] theorem modStart_peaks (s : State) : (modStart s).peaks = s.peaks := by unfold modStart acquire takeMessage; split_ifs <;> rfl
@[simp] theorem modStart_bq (s : State) : (modStart s).bq = s.bq := by unfold modStart acquire takeMessage; split_ifs <;> rfl
@[simp] theorem modStart_loud (s : State) : (modStart s).loud = s.loud := by unfold modStart acquire takeMessage; split_ifs <;> rfl
@[simp] theorem modStart_lstate (s : State) : (modStart s).lstate = s.lstate := by unfold modStart acquire takeMessage; split_ifs <;> rfl
@[simp] theorem modStart_xf (s : State) : (modStart s).xf = s.xf := by unfold modStart acquire takeMessage; split_ifs <;> rfl
@[simp] theorem modStart_spdif (s : State) : (modStart s).spdif = s.spdif := by unfold modStart acquire takeMessage; split_ifs <;> rfl
@[simp] theorem modStart_delay (s : State) : (modStart s).delay = s.delay := by unfold modStart acquire takeMessage; split_ifs <;> rfl
@[simp] theorem modStart_pkt (s : State) : (modStart s).pkt = s.pkt := by unfold modStart acquire takeMessage; split_ifs <;> rfl
@[simp] theorem modStart_cmdSeq (s : State) : (modStart s).cmdSeq = s.cmdSeq := by unfold modStart acquire takeMessage; split_ifs <;> rfl
@[simp] theorem modStart_txSeq (s : State) : (modStart s).txSeq = s.txSeq := by unfold modStart acquire takeMessage; split_ifs <;> rfl
@[simp] theorem modStart_out (s : State) : (modStart s).out = s.out := by unfold modStart acquire takeMessage; split_ifs <;> rfl
@[simp] theorem modStart_port (s : State) : (modStart s).port = s.port := by unfold modStart acquire takeMessage; split_ifs <;> rfl
@[simp] theorem modStart_par (s : State) : (modStart s).par = s.par := by unfold modStart acquire takeMessage; split_ifs <;> rfl
@[simp] theorem modStart_sched (s : State) : (modStart s).sched = s.sched := by unfold modStart acquire takeMessage; split_ifs <;> rfl
@[simp] theorem modStart_turn (s : State) : (modStart s).turn = s.turn := by unfold modStart acquire takeMessage; split_ifs <;> rfl
@[simp] theorem modStart_ditherIn (s : State) : (modStart s).ditherIn = s.ditherIn := by unfold modStart acquire takeMessage; split_ifs <;> rfl
@[simp] theorem modStart_draws (s : State) : (modStart s).draws = s.draws := by unfold modStart acquire takeMessage; split_ifs <;> rfl

@[simp] theorem leak_regs (s : State) : (leak s).regs = s.regs := rfl
@[simp] theorem leak_cnt (s : State) : (leak s).cnt = s.cnt := rfl
@[simp] theorem leak_peaks (s : State) : (leak s).peaks = s.peaks := rfl
@[simp] theorem leak_bq (s : State) : (leak s).bq = s.bq := rfl
@[simp] theorem leak_loud (s : State) : (leak s).loud = s.loud := rfl
@[simp] theorem leak_lstate (s : State) : (leak s).lstate = s.lstate := rfl
@[simp] theorem leak_xf (s : State) : (leak s).xf = s.xf := rfl
@[simp] theorem leak_queue (s : State) : (leak s).queue = s.queue := rfl
@[simp] theorem leak_spdif (s : State) : (leak s).spdif = s.spdif := rfl
@[simp] theorem leak_delay (s : State) : (leak s).delay = s.delay := rfl
@[simp] theorem leak_pkt (s : State) : (leak s).pkt = s.pkt := rfl
@[simp] theorem leak_cmdSeq (s : State) : (leak s).cmdSeq = s.cmdSeq := rfl
@[simp] theorem leak_txSeq (s : State) : (leak s).txSeq = s.txSeq := rfl
@[simp] theorem leak_modSeq (s : State) : (leak s).modSeq = s.modSeq := rfl
@[simp] theorem leak_out (s : State) : (leak s).out = s.out := rfl
@[simp] theorem leak_port (s : State) : (leak s).port = s.port := rfl
@[simp] theorem leak_par (s : State) : (leak s).par = s.par := rfl
@[simp] theorem leak_sched (s : State) : (leak s).sched = s.sched := rfl
@[simp] theorem leak_turn (s : State) : (leak s).turn = s.turn := rfl
@[simp] theorem leak_ditherIn (s : State) : (leak s).ditherIn = s.ditherIn := rfl
@[simp] theorem leak_draws (s : State) : (leak s).draws = s.draws := rfl

@[simp] theorem storeChunk_regs (s : State) (w : Word) : (storeChunk w s).regs = s.regs := rfl
@[simp] theorem storeChunk_cnt (s : State) (w : Word) : (storeChunk w s).cnt = s.cnt := rfl
@[simp] theorem storeChunk_peaks (s : State) (w : Word) : (storeChunk w s).peaks = s.peaks := rfl
@[simp] theorem storeChunk_bq (s : State) (w : Word) : (storeChunk w s).bq = s.bq := rfl
@[simp] theorem storeChunk_loud (s : State) (w : Word) : (storeChunk w s).loud = s.loud := rfl
@[simp] theorem storeChunk_lstate (s : State) (w : Word) : (storeChunk w s).lstate = s.lstate := rfl
@[simp] theorem storeChunk_xf (s : State) (w : Word) : (storeChunk w s).xf = s.xf := rfl
@[simp] theorem storeChunk_queue (s : State) (w : Word) : (storeChunk w s).queue = s.queue := rfl
@[simp] theorem storeChunk_spdif (s : State) (w : Word) : (storeChunk w s).spdif = s.spdif := rfl
@[simp] theorem storeChunk_delay (s : State) (w : Word) : (storeChunk w s).delay = s.delay := rfl
@[simp] theorem storeChunk_pkt (s : State) (w : Word) : (storeChunk w s).pkt = s.pkt := rfl
@[simp] theorem storeChunk_cmdSeq (s : State) (w : Word) : (storeChunk w s).cmdSeq = s.cmdSeq := rfl
@[simp] theorem storeChunk_txSeq (s : State) (w : Word) : (storeChunk w s).txSeq = s.txSeq := rfl
@[simp] theorem storeChunk_modSeq (s : State) (w : Word) : (storeChunk w s).modSeq = s.modSeq := rfl
@[simp] theorem storeChunk_out (s : State) (w : Word) : (storeChunk w s).out = s.out := rfl
@[simp] theorem storeChunk_port (s : State) (w : Word) : (storeChunk w s).port = s.port := rfl
@[simp] theorem storeChunk_par (s : State) (w : Word) : (storeChunk w s).par = s.par := rfl
@[simp] theorem storeChunk_sched (s : State) (w : Word) : (storeChunk w s).sched = s.sched := rfl
@[simp] theorem storeChunk_turn (s : State) (w : Word) : (storeChunk w s).turn = s.turn := rfl
@[simp] theorem storeChunk_ditherIn (s : State) (w : Word) : (storeChunk w s).ditherIn = s.ditherIn := rfl
@[simp] theorem storeChunk_draws (s : State) (w : Word) : (storeChunk w s).draws = s.draws := rfl

@[simp] theorem produceChunk_regs (s : State) : (produceChunk s).regs = s.regs := by
  unfold produceChunk; cases s.pdm.mode <;> simp
@[simp] theorem produceChunk_cnt (s : State) : (produceChunk s).cnt = s.cnt := by
  unfold produceChunk; cases s.pdm.mode <;> simp
@[simp] theorem produceChunk_peaks (s : State) : (produceChunk s).peaks = s.peaks := by
  unfold produceChunk; cases s.pdm.mode <;> simp
@[simp] theorem produceChunk_bq (s : State) : (produceChunk s).bq = s.bq := by
  unfold produceChunk; cases s.pdm.mode <;> simp
@[simp] theorem produceChunk_loud (s : State) : (produceChunk s).loud = s.loud := by
  unfold produceChunk; cases s.pdm.mode <;> simp
@[simp] theorem produceChunk_lstate (s : State) : (produceChunk s).lstate = s.lstate := by
  unfold produceChunk; cases s.pdm.mode <;> simp
@[simp] theorem produceChunk_xf (s : State) : (produceChunk s).xf = s.xf := by
  unfold produceChunk; cases s.pdm.mode <;> simp
@[simp] theorem produceChunk_queue (s : State) : (produceChunk s).queue = s.queue := by
  unfold produceChunk; cases s.pdm.mode <;> simp
@[simp] theorem produceChunk_spdif (s : State) : (produceChunk s).spdif = s.spdif := by
  unfold produceChunk; cases s.pdm.mode <;> simp
@[simp] theorem produceChunk_delay (s : State) : (produceChunk s).delay = s.delay := by
  unfold produceChunk; cases s.pdm.mode <;> simp
@[simp] theorem produceChunk_pkt (s : State) : (produceChunk s).pkt = s.pkt := by
  unfold produceChunk; cases s.pdm.mode <;> simp
@[simp] theorem produceChunk_cmdSeq (s : State) : (produceChunk s).cmdSeq = s.cmdSeq := by
  unfold produceChunk; cases s.pdm.mode <;> simp
@[simp] theorem produceChunk_txSeq (s : State) : (produceChunk s).txSeq = s.txSeq := by
  unfold produceChunk; cases s.pdm.mode <;> simp
@[simp] theorem produceChunk_modSeq (s : State) : (produceChunk s).modSeq = s.modSeq := by
  unfold produceChunk; cases s.pdm.mode <;> simp
@[simp] theorem produceChunk_out (s : State) : (produceChunk s).out = s.out := by
  unfold produceChunk; cases s.pdm.mode <;> simp
@[simp] theorem produceChunk_port (s : State) : (produceChunk s).port = s.port := by
  unfold produceChunk; cases s.pdm.mode <;> simp
@[simp] theorem produceChunk_par (s : State) : (produceChunk s).par = s.par := by
  unfold produceChunk; cases s.pdm.mode <;> simp
@[simp] theorem produceChunk_sched (s : State) : (produceChunk s).sched = s.sched := by
  unfold produceChunk; cases s.pdm.mode <;> simp
@[simp] theorem produceChunk_turn (s : State) : (produceChunk s).turn = s.turn := by
  unfold produceChunk; cases s.pdm.mode <;> simp

@[simp] theorem finishSample_regs (s : State) : (finishSample s).regs = s.regs := by unfold finishSample; split <;> rfl
@[simp] theorem finishSample_cnt (s : State) : (finishSample s).cnt = s.cnt := by unfold finishSample; split <;> rfl
@[simp] theorem finishSample_peaks (s : State) : (finishSample s).peaks = s.peaks := by unfold finishSample; split <;> rfl
@[simp] theorem finishSample_bq (s : State) : (finishSample s).bq = s.bq := by unfold finishSample; split <;> rfl
@[simp] theorem finishSample_loud (s : State) : (finishSample s).loud = s.loud := by unfold finishSample; split <;> rfl
@[simp] theorem finishSample_lstate (s : State) : (finishSample s).lstate = s.lstate := by unfold finishSample; split <;> rfl
@[simp] theorem finishSample_xf (s : State) : (finishSample s).xf = s.xf := by unfold finishSample; split <;> rfl
@[simp] theorem finishSample_queue (s : State) : (finishSample s).queue = s.queue := by unfold finishSample; split <;> rfl
@[simp] theorem finishSample_spdif (s : State) : (finishSample s).spdif = s.spdif := by unfold finishSample; split <;> rfl
@[simp] theorem finishSample_delay (s : State) : (finishSample s).delay = s.delay := by unfold finishSample; split <;> rfl
@[simp] theorem finishSample_pkt (s : State) : (finishSample s).pkt = s.pkt := by unfold finishSample; split <;> rfl
@[simp] theorem finishSample_cmdSeq (s : State) : (finishSample s).cmdSeq = s.cmdSeq := by unfold finishSample; split <;> rfl
@[simp] theorem finishSample_txSeq (s : State) : (finishSample s).txSeq = s.txSeq := by unfold finishSample; split <;> rfl
@[simp] theorem finishSample_out (s : State) : (finishSample s).out = s.out := by unfold finishSample; split <;> rfl
@[simp] theorem finishSample_port (s : State) : (finishSample s).port = s.port := by unfold finishSample; split <;> rfl
@[simp] theorem finishSample_par (s : State) : (finishSample s).par = s.par := by unfold finishSample; split <;> rfl
@[simp] theorem finishSample_sched (s : State) : (finishSample s).sched = s.sched := by unfold finishSample; split <;> rfl
@[simp] theorem finishSample_turn (s : State) : (finishSample s).turn = s.turn := by unfold finishSample; split <;> rfl
@[simp] theorem finishSample_ditherIn (s : State) : (finishSample s).ditherIn = s.ditherIn := by unfold finishSample; split <;> rfl
@[simp] theorem finishSample_draws (s : State) : (finishSample s).draws = s.draws := by unfold finishSample; split <;> rfl

@[simp] theorem dmaStep_regs (s : State) : (dmaStep s).regs = s.regs := rfl
@[simp] theorem dmaStep_cnt (s : State) : (dmaStep s).cnt = s.cnt := rfl
@[simp] theorem dmaStep_peaks (s : State) : (dmaStep s).peaks = s.peaks := rfl
@[simp] theorem dmaStep_bq (s : State) : (dmaStep s).bq = s.bq := rfl
@[simp] theorem dmaStep_loud (s : State) : (dmaStep s).loud = s.loud := rfl
@[simp] theorem dmaStep_lstate (s : State) : (dmaStep s).lstate = s.lstate := rfl
@[simp] theorem dmaStep_xf (s : State) : (dmaStep s).xf = s.xf := rfl
@[simp] theorem dmaStep_queue (s : State) : (dmaStep s).queue = s.queue := rfl
@[simp] theorem dmaStep_spdif (s : State) : (dmaStep s).spdif = s.spdif := rfl
@[simp] theorem dmaStep_delay (s : State) : (dmaStep s).delay = s.delay := rfl
@[simp] theorem dmaStep_pkt (s : State) : (dmaStep s).pkt = s.pkt := rfl
@[simp] theorem dmaStep_cmdSeq (s : State) : (dmaStep s).cmdSeq = s.cmdSeq := rfl
@[simp] theorem dmaStep_txSeq (s : State) : (dmaStep s).txSeq = s.txSeq := rfl
@[simp] theorem dmaStep_modSeq (s : State) : (dmaStep s).modSeq = s.modSeq := rfl
@[simp] theorem dmaStep_port (s : State) : (dmaStep s).port = s.port := rfl
@[simp] theorem dmaStep_par (s : State) : (dmaStep s).par = s.par := rfl
@[simp] theorem dmaStep_sched (s : State) : (dmaStep s).sched = s.sched := rfl
@[simp] theorem dmaStep_turn (s : State) : (dmaStep s).turn = s.turn := rfl
@[simp] theorem dmaStep_ditherIn (s : State) : (dmaStep s).ditherIn = s.ditherIn := rfl
@[simp] theorem dmaStep_draws (s : State) : (dmaStep s).draws = s.draws := rfl

@[simp] theorem txStart_regs (s : State) : (txStart s).regs = s.regs := by unfold txStart; split <;> rfl
@[simp] theorem txStart_cnt (s : State) : (txStart s).cnt = s.cnt := by unfold txStart; split <;> rfl
@[simp] theorem txStart_peaks (s : State) : (txStart s).peaks = s.peaks := by unfold txStart; split <;> rfl
@[simp] theorem txStart_bq (s : State) : (txStart s).bq = s.bq := by unfold txStart; split <;> rfl
@[simp] theorem txStart_loud (s : State) : (txStart s).loud = s.loud := by unfold txStart; split <;> rfl
@[simp] theorem txStart_lstate (s : State) : (txStart s).lstate = s.lstate := by unfold txStart; split <;> rfl
@[simp] theorem txStart_xf (s : State) : (txStart s).xf = s.xf := by unfold txStart; split <;> rfl
@[simp] theorem txStart_pdm (s : State) : (txStart s).pdm = s.pdm := by unfold txStart; split <;> rfl
@[simp] theorem txStart_queue (s : State) : (txStart s).queue = s.queue := by unfold txStart; split <;> rfl
@[simp] theorem txStart_delay (s : State) : (txStart s).delay = s.delay := by unfold txStart; split <;> rfl
@[simp] theorem txStart_pkt (s : State) : (txStart s).pkt = s.pkt := by unfold txStart; split <;> rfl
@[simp] theorem txStart_cmdSeq (s : State) : (txStart s).cmdSeq = s.cmdSeq := by unfold txStart; split <;> rfl
@[simp] theorem txStart_modSeq (s : State) : (txStart s).modSeq = s.modSeq := by unfold txStart; split <;> rfl
@[simp] theorem txStart_out (s : State) : (txStart s).out = s.out := by unfold txStart; split <;> rfl
@[simp] theorem txStart_port (s : State) : (txStart s).port = s.port := by unfold txStart; split <;> rfl
@[simp] theorem txStart_par (s : State) : (txStart s).par = s.par := by unfold txStart; split <;> rfl
@[simp] theorem txStart_sched (s : State) : (txStart s).sched = s.sched := by unfold txStart; split <;> rfl
@[simp] theorem txStart_turn (s : State) : (txStart s).turn = s.turn := by unfold txStart; split <;> rfl
@[simp] theorem txStart_ditherIn (s : State) : (txStart s).ditherIn = s.ditherIn := by unfold txStart; split <;> rfl
@[simp] theorem txStart_draws (s : State) : (txStart s).draws = s.draws := by unfold txStart; split <;> rfl

@[simp] theorem releaseSource_regs (s : State) (src : TxSrc) : (releaseSource src s).regs = s.regs := by cases src <;> rfl
@[simp] theorem releaseSource_cnt (s : State) (src : TxSrc) : (releaseSource src s).cnt = s.cnt := by cases src <;> rfl
@[simp] theorem releaseSource_peaks (s : State) (src : TxSrc) : (releaseSource src s).peaks = s.peaks := by cases src <;> rfl
@[simp] theorem releaseSource_bq (s : State) (src : TxSrc) : (releaseSource src s).bq = s.bq := by cases src <;> rfl
@[simp] theorem releaseSource_loud (s : State) (src : TxSrc) : (releaseSource src s).loud = s.loud := by cases src <;> rfl
@[simp] theorem releaseSource_lstate (s : State) (src : TxSrc) : (releaseSource src s).lstate = s.lstate := by cases src <;> rfl
@[simp] theorem releaseSource_xf (s : State) (src : TxSrc) : (releaseSource src s).xf = s.xf := by cases src <;> rfl
@[simp] theorem releaseSource_pdm (s : State) (src : TxSrc) : (releaseSource src s).pdm = s.pdm := by cases src <;> rfl
@[simp] theorem releaseSource_queue (s : State) (src : TxSrc) : (releaseSource src s).queue = s.queue := by cases src <;> rfl
@[simp] theorem releaseSource_delay (s : State) (src : TxSrc) : (releaseSource src s).delay = s.delay := by cases src <;> rfl
@[simp] theorem releaseSource_pkt (s : State) (src : TxSrc) : (releaseSource src s).pkt = s.pkt := by cases src <;> rfl
@[simp] theorem releaseSource_cmdSeq (s : State) (src : TxSrc) : (releaseSource src s).cmdSeq = s.cmdSeq := by cases src <;> rfl
@[simp] theorem releaseSource_txSeq (s : State) (src : TxSrc) : (releaseSource src s).txSeq = s.txSeq := by cases src <;> rfl
@[simp] theorem releaseSource_modSeq (s : State) (src : TxSrc) : (releaseSource src s).modSeq = s.modSeq := by cases src <;> rfl
@[simp] theorem releaseSource_out (s : State) (src : TxSrc) : (releaseSource src s).out = s.out := by cases src <;> rfl
@[simp] theorem releaseSource_port (s : State) (src : TxSrc) : (releaseSource src s).port = s.port := by cases src <;> rfl
@[simp] theorem releaseSource_par (s : State) (src : TxSrc) : (releaseSource src s).par = s.par := by cases src <;> rfl
@[simp] theorem releaseSource_sched (s : State) (src : TxSrc) : (releaseSource src s).sched = s.sched := by cases src <;> rfl
@[simp] theorem releaseSource_turn (s : State) (src : TxSrc) : (releaseSource src s).turn = s.turn := by cases src <;> rfl
@[simp] theorem releaseSource_ditherIn (s : State) (src : TxSrc) : (releaseSource src s).ditherIn = s.ditherIn := by cases src <;> rfl
@[simp] theorem releaseSource_draws (s : State) (src : TxSrc) : (releaseSource src s).draws = s.draws := by cases src <;> rfl

@[simp] theorem nextBlock_regs (s : State) : (nextBlock s).regs = s.regs := by unfold nextBlock; split <;> rfl
@[simp] theorem nextBlock_peaks (s : State) : (nextBlock s).peaks = s.peaks := by unfold nextBlock; split <;> rfl
@[simp] theorem nextBlock_bq (s : State) : (nextBlock s).bq = s.bq := by unfold nextBlock; split <;> rfl
@[simp] theorem nextBlock_loud (s : State) : (nextBlock s).loud = s.loud := by unfold nextBlock; split <;> rfl
@[simp] theorem nextBlock_lstate (s : State) : (nextBlock s).lstate = s.lstate := by unfold nextBlock; split <;> rfl
@[simp] theorem nextBlock_xf (s : State) : (nextBlock s).xf = s.xf := by unfold nextBlock; split <;> rfl
@[simp] theorem nextBlock_pdm (s : State) : (nextBlock s).pdm = s.pdm := by unfold nextBlock; split <;> rfl
@[simp] theorem nextBlock_queue (s : State) : (nextBlock s).queue = s.queue := by unfold nextBlock; split <;> rfl
@[simp] theorem nextBlock_delay (s : State) : (nextBlock s).delay = s.delay := by unfold nextBlock; split <;> rfl
@[simp] theorem nextBlock_pkt (s : State) : (nextBlock s).pkt = s.pkt := by unfold nextBlock; split <;> rfl
@[simp] theorem nextBlock_cmdSeq (s : State) : (nextBlock s).cmdSeq = s.cmdSeq := by unfold nextBlock; split <;> rfl
@[simp] theorem nextBlock_modSeq (s : State) : (nextBlock s).modSeq = s.modSeq := by unfold nextBlock; split <;> rfl
@[simp] theorem nextBlock_out (s : State) : (nextBlock s).out = s.out := by unfold nextBlock; split <;> rfl
@[simp] theorem nextBlock_port (s : State) : (nextBlock s).port = s.port := by unfold nextBlock; split <;> rfl
@[simp] theorem nextBlock_par (s : State) : (nextBlock s).par = s.par := by unfold nextBlock; split <;> rfl
@[simp] theorem nextBlock_sched (s : State) : (nextBlock s).sched = s.sched := by unfold nextBlock; split <;> rfl
@[simp] theorem nextBlock_turn (s : State) : (nextBlock s).turn = s.turn := by unfold nextBlock; split <;> rfl
@[simp] theorem nextBlock_ditherIn (s : State) : (nextBlock s).ditherIn = s.ditherIn := by unfold nextBlock; split <;> rfl
@[simp] theorem nextBlock_draws (s : State) : (nextBlock s).draws = s.draws := by unfold nextBlock; split <;> rfl

@[simp] theorem takeTurn_regs (s : State) : (takeTurn s).regs = s.regs := by unfold takeTurn; split <;> rfl
@[simp] theorem takeTurn_cnt (s : State) : (takeTurn s).cnt = s.cnt := by unfold takeTurn; split <;> rfl
@[simp] theorem takeTurn_peaks (s : State) : (takeTurn s).peaks = s.peaks := by unfold takeTurn; split <;> rfl
@[simp] theorem takeTurn_bq (s : State) : (takeTurn s).bq = s.bq := by unfold takeTurn; split <;> rfl
@[simp] theorem takeTurn_loud (s : State) : (takeTurn s).loud = s.loud := by unfold takeTurn; split <;> rfl
@[simp] theorem takeTurn_lstate (s : State) : (takeTurn s).lstate = s.lstate := by unfold takeTurn; split <;> rfl
@[simp] theorem takeTurn_xf (s : State) : (takeTurn s).xf = s.xf := by unfold takeTurn; split <;> rfl
@[simp] theorem takeTurn_pdm (s : State) : (takeTurn s).pdm = s.pdm := by unfold takeTurn; split <;> rfl
@[simp] theorem takeTurn_queue (s : State) : (takeTurn s).queue = s.queue := by unfold takeTurn; split <;> rfl
@[simp] theorem takeTurn_spdif (s : State) : (takeTurn s).spdif = s.spdif := by unfold takeTurn; split <;> rfl
@[simp] theorem takeTurn_delay (s : State) : (takeTurn s).delay = s.delay := by unfold takeTurn; split <;> rfl
@[simp] theorem takeTurn_pkt (s : State) : (takeTurn s).pkt = s.pkt := by unfold takeTurn; split <;> rfl
@[simp] theorem takeTurn_cmdSeq (s : State) : (takeTurn s).cmdSeq = s.cmdSeq := by unfold takeTurn; split <;> rfl
@[simp] theorem takeTurn_txSeq (s : State) : (takeTurn s).txSeq = s.txSeq := by unfold takeTurn; split <;> rfl
@[simp] theorem takeTurn_modSeq (s : State) : (takeTurn s).modSeq = s.modSeq := by unfold takeTurn; split <;> rfl
@[simp] theorem takeTurn_out (s : State) : (takeTurn s).out = s.out := by unfold takeTurn; split <;> rfl
@[simp] theorem takeTurn_port (s : State) : (takeTurn s).port = s.port := by unfold takeTurn; split <;> rfl
@[simp] theorem takeTurn_par (s : State) : (takeTurn s).par = s.par := by unfold takeTurn; split <;> rfl
@[simp] theorem takeTurn_ditherIn (s : State) : (takeTurn s).ditherIn = s.ditherIn := by unfold takeTurn; split <;> rfl
@[simp] theorem takeTurn_draws (s : State) : (takeTurn s).draws = s.draws := by unfold takeTurn; split <;> rfl

/-! The written fields of the updates that have no case split. -/

@[simp] theorem raise_cnt (s : State) (e : Event) : (raise e s).cnt = bump e s.cnt := rfl
@[simp] theorem respond_out (s : State) (ws : List Word) :
    (respond ws s).out = { s.out with resp := s.out.resp ++ ws } := rfl
@[simp] theorem emitSpdif_out (s : State) (w : Word) :
    (emitSpdif w s).out = { s.out with spdif := s.out.spdif ++ bitsOfWord w } := rfl
@[simp] theorem emitPdm_out (s : State) (w : Word) :
    (emitPdm w s).out = { s.out with pdm := s.out.pdm ++ bitsOfWord w } := rfl
@[simp] theorem queueAdvance_queue (s : State) :
    (queueAdvance s).queue = { s.queue with tail := s.queue.tail + 1#8 } := rfl
@[simp] theorem spdifPrefill_spdif (s : State) (n : Nat) :
    (spdifPrefill n s).spdif = prefill s.regs.chstat n s.spdif := rfl
@[simp] theorem syncSilblk_spdif (s : State) :
    (syncSilblk s).spdif = { s.spdif with silblk := rewriteSilblk s.regs.chstat s.spdif.silblk } := by
  simp only [syncSilblk]
@[simp] theorem meter_pkt (s : State) (i : PeakPoint) (x : Word) :
    (meter i x s).pkt = { s.pkt with pacc := peakUpdate i x s.pkt.pacc } := rfl
@[simp] theorem countPacket_cnt (s : State) :
    (countPacket s).cnt = { s.cnt with pktCount := s.cnt.pktCount + 1#32 } := rfl
@[simp] theorem beginSample_modSeq (s : State) (t : BitVec 16) (m : ModMode) :
    (beginSample t m s).modSeq = .chunk 0 := rfl
@[simp] theorem beginSample_pdm (s : State) (t : BitVec 16) (m : ModMode) :
    (beginSample t m s).pdm = { s.pdm with target := t, mode := m } := rfl
@[simp] theorem storeChunk_pdm (s : State) (w : Word) :
    (storeChunk w s).pdm = { s.pdm with ring := writeRing s.pdm.ring s.pdm.pwi w, pwi := s.pdm.pwi + 1#11 } := rfl
@[simp] theorem leak_pdm (s : State) :
    (leak s).pdm = { s.pdm with err1 := leakValue s.pdm.err1, err2 := leakValue s.pdm.err2 } := rfl

end Sys2Proof.Machine
end

