-- ==== Sys2Proof/Laws/Ops.lean ====
section
/-! SUPPORT. For each shared operation, what it can do, once: later proofs cite these and do not unfold the operation. -/

namespace Sys2Proof.Machine

/-! Events and responses. -/

@[simp] theorem respond_nil (s : State) : respond [] s = s := by simp [respond]

/-- A refused command without a response only counts. -/
@[simp] theorem refuseCommand_zero (s : State) : refuseCommand 0 s = raise .cmdInvalid s := by simp [refuseCommand]

/-! The memories through their named reads and writes. -/

theorem read_writeBq (m : Mem BqSlot) (ch : Channel) (b a : Nat) (v : BqSlot) :
    Mem.read bqShape (writeBq m ch b v) a = if a = bqIndex ch b then v else Mem.read bqShape m a :=
  Mem.read_write

theorem read_writeLoud (m : Mem Filter) (t : BitVec 1) (k j a : Nat) (v : Filter) :
    Mem.read loudShape (writeLoud m t k j v) a = if a = loudIndex t k j then v else Mem.read loudShape m a :=
  Mem.read_write

theorem readLine_writeLine (m : Mem Word) (a b : BitVec 13) (v : Word) :
    readLine (writeLine m a v) b = if b = a then v else readLine m b := by
  simp only [readLine, writeLine, Mem.read_write, BitVec.toNat_inj]

theorem readRing_writeRing (m : Mem Word) (a b : BitVec 11) (v : Word) :
    readRing (writeRing m a v) b = if b = a then v else readRing m b := by
  simp only [readRing, writeRing, Mem.read_write, BitVec.toNat_inj]

theorem readQueue_writeQueue (m : Mem Msg) (a b : BitVec 8) (v : Msg) :
    readQueue (writeQueue m a v) b = if b = a then v else readQueue m b := by
  simp only [readQueue, writeQueue, Mem.read_write, BitVec.toNat_inj]

/-- The rewritten silence block is the zero block. -/
theorem readSil_rewriteSilblk (chstat : Word) (m : Mem Word) (p : Fin 768) :
    readSil (rewriteSilblk chstat m) p = zeroBlockWord chstat p.val := by
  have := p.isLt
  rw [readSil, rewriteSilblk, Mem.read_writeRun, if_pos (by omega), Nat.sub_zero]

/-- A zero block in buffer `id` leaves every other buffer. -/
theorem readPool_writeZeroBlock (chstat : Word) (m : Mem Word) (id id' : Fin 8) (p : Fin 768) :
    readPool (writeZeroBlock chstat id m) id' p = if id' = id then zeroBlockWord chstat p.val else readPool m id' p := by
  have hp := p.isLt
  rw [readPool, writeZeroBlock, Mem.read_writeRun]
  by_cases h : id' = id
  · subst h
    rw [if_pos (by simp only [poolIndex]; omega), if_pos rfl]
    congr 1
    simp only [poolIndex]
    omega
  · have hv : id'.val ≠ id.val := fun e => h (Fin.ext e)
    rw [if_neg (by simp only [poolIndex]; omega), if_neg h]
    rfl

/-- A stored frame is at the words 4k to 4k+3 of its buffer and leaves every other word of the pool. -/
theorem readPool_writeFrame (chstat : Word) (m : Mem Word) (id id' : Fin 8) (k : Fin 192) (l r : BitVec 16)
    (p : Fin 768) :
    readPool (writeFrame chstat id k l r m) id' p
      = if id' = id ∧ 4 * k.val ≤ p.val ∧ p.val < 4 * k.val + 4 then encFrameWord chstat k.val l r (p.val - 4 * k.val)
        else readPool m id' p := by
  have hp := p.isLt
  have hk := k.isLt
  rw [readPool, writeFrame, Mem.read_writeRun]
  by_cases h : id' = id ∧ 4 * k.val ≤ p.val ∧ p.val < 4 * k.val + 4
  · obtain ⟨rfl, h1, h2⟩ := h
    rw [if_pos (by simp only [poolIndex]; omega), if_pos ⟨rfl, h1, h2⟩]
    congr 1
    simp only [poolIndex]
    omega
  · rw [if_neg, if_neg h]
    · rfl
    · simp only [poolIndex]
      rintro ⟨h1, h2⟩
      have hv : id'.val = id.val := by omega
      exact h ⟨Fin.ext hv, by omega, by omega⟩

/-! The queue. -/

/-- All a push can do. -/
theorem queuePush_cases (m : Msg) (s : State) :
    (queueFull s.queue = true ∧ queuePush m s = raise .ringOverrun s)
      ∨ (queueFull s.queue = false
        ∧ queuePush m s
          = { s with queue := ⟨writeQueue s.queue.buf s.queue.head m, s.queue.head + 1#8, s.queue.tail⟩ }) := by
  unfold queuePush
  cases h : queueFull s.queue
  · exact .inr ⟨rfl, rfl⟩
  · exact .inl ⟨rfl, rfl⟩

/-! The S/PDIF pool. -/

/-- A CHSTAT change rewrites the silence block and nothing else. The new memory is a variable here, so that no proof unfolds
768 writes. -/
theorem syncSilblk_spec (s : State) :
    ∃ m : Mem Word, (∀ p, readSil m p = zeroBlockWord s.regs.chstat p.val)
      ∧ (Mem.wf silShape s.spdif.silblk = true → Mem.wf silShape m = true)
      ∧ syncSilblk s = { s with spdif := { s.spdif with silblk := m } } :=
  ⟨rewriteSilblk s.regs.chstat s.spdif.silblk, readSil_rewriteSilblk _ _, wf_rewriteSilblk, by rw [syncSilblk]⟩

/-- All storing a frame can do. -/
theorem storeFrame_cases (chstat : Word) (l r : BitVec 16) (id : Fin 8) (k : Fin 192) (d : Spdif) :
    ∃ pool : Mem Word,
      (∀ (id' : Fin 8) (p : Fin 768),
        readPool pool id' p
          = if id' = id ∧ 4 * k.val ≤ p.val ∧ p.val < 4 * k.val + 4 then encFrameWord chstat k.val l r (p.val - 4 * k.val)
            else readPool d.pool id' p)
      ∧ (Mem.wf poolShape d.pool = true → Mem.wf poolShape pool = true)
      ∧ ((∃ h : k.val + 1 < 192,
            storeFrame chstat l r id k d = { d with pool := pool, fill := some (id, ⟨k.val + 1, h⟩) })
        ∨ (k.val = 191 ∧ storeFrame chstat l r id k d = { d with pool := pool, fill := none, ready := d.ready ++ [id] })) := by
  refine ⟨writeFrame chstat id k l r d.pool, fun id' p => readPool_writeFrame _ _ _ _ _ _ _ _, wf_writeFrame, ?_⟩
  have hk := k.isLt
  unfold storeFrame
  by_cases h : k.val + 1 < 192
  · exact .inl ⟨h, by rw [dif_pos h]⟩
  · exact .inr ⟨by omega, by rw [dif_neg h]⟩

/-- All an append can do. -/
theorem spdifAppend_cases (l r : BitVec 16) (s : State) :
    (s.spdif.fill = none ∧ s.spdif.free = [] ∧ spdifAppend l r s = { s with pkt := { s.pkt with dropped := true } })
      ∨ (∃ id rest, s.spdif.fill = none ∧ s.spdif.free = id :: rest
        ∧ spdifAppend l r s
          = { s with spdif := storeFrame s.regs.chstat l r id 0 { s.spdif with free := rest } })
      ∨ (∃ f, s.spdif.fill = some f
        ∧ spdifAppend l r s = { s with spdif := storeFrame s.regs.chstat l r f.1 f.2 s.spdif }) := by
  unfold spdifAppend appendFrame
  cases hf : s.spdif.fill with
  | none =>
    cases hr : s.spdif.free with
    | nil => exact .inl ⟨rfl, rfl, rfl⟩
    | cons id rest => exact .inr (.inl ⟨id, rest, rfl, rfl, rfl⟩)
  | some f => exact .inr (.inr ⟨f, rfl, rfl⟩)

/-- All the prefill of one buffer can do. -/
theorem prefillOne_cases (chstat : Word) (d : Spdif) :
    (d.free = [] ∧ prefillOne chstat d = d)
      ∨ (∃ (id : Fin 8) (rest : List (Fin 8)) (pool : Mem Word), d.free = id :: rest
        ∧ (∀ id' p, readPool pool id' p = if id' = id then zeroBlockWord chstat p.val else readPool d.pool id' p)
        ∧ (Mem.wf poolShape d.pool = true → Mem.wf poolShape pool = true)
        ∧ prefillOne chstat d = { d with free := rest, pool := pool, ready := d.ready ++ [id] }) := by
  unfold prefillOne
  cases h : d.free with
  | nil => exact .inl ⟨rfl, rfl⟩
  | cons id rest =>
    exact .inr ⟨id, rest, writeZeroBlock chstat id d.pool, rfl, fun id' p => readPool_writeZeroBlock _ _ _ _ _,
      wf_writeZeroBlock, rfl⟩

/-! The dither source. -/

theorem ditherAdvance_cases (s : State) :
    (s.ditherIn = [] ∧ ditherAdvance s = { s with draws := s.draws + 1 })
      ∨ (∃ d ds, s.ditherIn = d :: ds ∧ ditherAdvance s = { s with ditherIn := ds }) := by
  unfold ditherAdvance
  cases h : s.ditherIn with
  | nil => exact .inl ⟨rfl, rfl⟩
  | cons d ds => exact .inr ⟨d, ds, rfl, rfl⟩

/-! The modulator. -/

/-- All an acquisition can do. -/
theorem acquire_cases (l : Nat) (s : State) :
    (queueEmpty s.queue = true ∧ l < s.par.targetLead ∧ acquire l s = beginSample 32768#16 .modulate s)
      ∨ (queueEmpty s.queue = true ∧ ¬ l < s.par.targetLead ∧ acquire l s = s)
      ∨ (queueEmpty s.queue = false ∧ (queueFront s).reset = true ∧ acquire l s = resetMessage (queueAdvance s))
      ∨ (queueEmpty s.queue = false ∧ (queueFront s).reset = false
        ∧ acquire l s = beginSample (targetOf s.par (queueFront s).sample) .modulate (queueAdvance s)) := by
  unfold acquire takeMessage
  cases hq : queueEmpty s.queue
  · cases hm : (queueFront s).reset
    · exact .inr (.inr (.inr ⟨rfl, rfl, rfl⟩))
    · exact .inr (.inr (.inl ⟨rfl, rfl, rfl⟩))
  · by_cases hl : l < s.par.targetLead
    · exact .inl ⟨rfl, hl, by simp [hl]⟩
    · exact .inr (.inl ⟨rfl, hl, by simp [hl]⟩)

/-- All the production of a chunk can do. -/
theorem produceChunk_cases (s : State) :
    (s.pdm.mode = .silence ∧ produceChunk s = storeChunk Config.silenceWord s)
      ∨ (s.pdm.mode = .modulate
        ∧ produceChunk s
          = storeChunk (packWord (decisions s.pdm.target (ditherValue s) 32 s.pdm.err1 s.pdm.err2).bits)
              { ditherAdvance s with
                pdm := { s.pdm with
                  err1 := (decisions s.pdm.target (ditherValue s) 32 s.pdm.err1 s.pdm.err2).err1
                  err2 := (decisions s.pdm.target (ditherValue s) 32 s.pdm.err1 s.pdm.err2).err2 } }) := by
  cases h : s.pdm.mode with
  | silence => exact .inl ⟨rfl, by unfold produceChunk; rw [h]⟩
  | modulate => exact .inr ⟨rfl, by unfold produceChunk; rw [h]; simp only [ditherAdvance_pdm]⟩

/-! The transmitter. -/

theorem nextBlock_cases (s : State) :
    (s.spdif.ready = [] ∧ nextBlock s = { raise .spdifUnderrun s with txSeq := .run .sil 0 })
      ∨ (∃ id rest, s.spdif.ready = id :: rest
        ∧ nextBlock s = { s with spdif := { s.spdif with ready := rest }, txSeq := .run (.buffer id) 0 }) := by
  unfold nextBlock
  cases h : s.spdif.ready with
  | nil => exact .inl ⟨rfl, rfl⟩
  | cons id rest => exact .inr ⟨id, rest, rfl, rfl⟩

theorem txStart_cases (s : State) :
    (s.spdif.ready = [] ∧ txStart s = s)
      ∨ (∃ id rest, s.spdif.ready = id :: rest
        ∧ txStart s
          = { s with spdif := { s.spdif with ready := rest, running := true }, txSeq := .run (.buffer id) 0 }) := by
  unfold txStart
  cases h : s.spdif.ready with
  | nil => exact .inl ⟨rfl, rfl⟩
  | cons id rest => exact .inr ⟨id, rest, rfl, rfl⟩

/-! Packet ingest. -/

theorem packetGap_cases (g : Word) (s : State) :
    ((s.pkt.first = true ∨ 50000 < g.toNat)
        ∧ packetGap g s = { spdifPrefill 2 s with pkt := { s.pkt with first := false } })
      ∨ (s.pkt.first = false ∧ g.toNat ≤ 50000 ∧ 2000 ≤ g.toNat ∧ packetGap g s = raise .usbUnderrun s)
      ∨ (s.pkt.first = false ∧ g.toNat < 2000 ∧ packetGap g s = s) := by
  unfold packetGap
  by_cases h : s.pkt.first = true ∨ 50000 < g.toNat
  · exact .inl ⟨h, by rw [if_pos h]; rfl⟩
  · have hf : s.pkt.first = false := by
      cases hb : s.pkt.first
      · rfl
      · exact absurd (.inl hb) h
    have hg : g.toNat ≤ 50000 := by
      by_contra hc
      exact h (.inr (by omega))
    by_cases h2 : 2000 ≤ g.toNat
    · exact .inr (.inl ⟨hf, hg, h2, by rw [if_neg h, if_pos h2]⟩)
    · exact .inr (.inr ⟨hf, by omega, by rw [if_neg h, if_neg h2]⟩)

/-! Steps. -/

/-- An agent's turn: its step where it is enabled, else nothing. -/
theorem agentStep_cases (a : Agent) (s : State) :
    (enabled a s = false ∧ agentStep a s = .next s)
      ∨ (enabled a s = true ∧ a = .cmd ∧ agentStep a s = cmdStep s)
      ∨ (enabled a s = true ∧ a = .spdifTx ∧ agentStep a s = .next (txStep s))
      ∨ (enabled a s = true ∧ a = .pdmMod ∧ agentStep a s = .next (modStep s))
      ∨ (enabled a s = true ∧ a = .pdmDma ∧ agentStep a s = .next (dmaStep s)) := by
  unfold agentStep
  cases he : enabled a s
  · exact .inl ⟨rfl, rfl⟩
  · cases a
    · exact .inr (.inl ⟨rfl, rfl, rfl⟩)
    · exact .inr (.inr (.inl ⟨rfl, rfl, rfl⟩))
    · exact .inr (.inr (.inr (.inl ⟨rfl, rfl, rfl⟩)))
    · exact .inr (.inr (.inr (.inr ⟨rfl, rfl, rfl⟩)))

end Sys2Proof.Machine
end

