-- ==== Sys2Proof/Laws/Dsp.lean ====
section
/-! SUPPORT. What the per-frame signal path can do, once: which state it writes, and that it keeps filters, canonical memories and
the range of the peaks. -/

namespace Sys2Proof.Machine

/-! The cascade. -/

theorem runBands_zero (ch : Channel) (b : Nat) (m : Mem BqSlot) (x : Word) : runBands ch 0 b m x = (m, x) := rfl

theorem runBands_bypassed {ch : Channel} {n b : Nat} {m : Mem BqSlot} {x : Word}
    (h : (readBq m ch b).filter.bypass = true) : runBands ch (n + 1) b m x = runBands ch n (b + 1) m x := by
  rw [runBands]
  simp only [h, if_true]

theorem runBands_active {ch : Channel} {n b : Nat} {m : Mem BqSlot} {x : Word}
    (h : (readBq m ch b).filter.bypass = false) :
    runBands ch (n + 1) b m x
      = runBands ch n (b + 1)
          (writeBq m ch b ⟨(readBq m ch b).filter, bqState (readBq m ch b).filter (readBq m ch b).st x⟩)
          (bqOut (readBq m ch b).filter (readBq m ch b).st x) := by
  rw [runBands]
  simp only [h, Bool.false_eq_true, if_false]

/-- The cascade changes no filter. -/
theorem runBands_filter (ch : Channel) (n b : Nat) (m : Mem BqSlot) (x : Word) (a : Nat) :
    (Mem.read bqShape (runBands ch n b m x).1 a).filter = (Mem.read bqShape m a).filter := by
  induction n generalizing b m x with
  | zero => rfl
  | succ n ih =>
    cases h : (readBq m ch b).filter.bypass
    · rw [runBands_active h, ih, read_writeBq]
      split
      · next e => subst e; rfl
      · rfl
    · rw [runBands_bypassed h, ih]

/-- The cascade writes inside the bank. -/
theorem wf_runBands {ch : Channel} {n b : Nat} {m : Mem BqSlot} {x : Word} (hm : Mem.wf bqShape m = true)
    (hb : b + n ≤ 10) : Mem.wf bqShape (runBands ch n b m x).1 = true := by
  induction n generalizing b m x with
  | zero => exact hm
  | succ n ih =>
    cases h : (readBq m ch b).filter.bypass
    · rw [runBands_active h]
      exact ih (wf_writeBq hm (by omega)) (by omega)
    · rw [runBands_bypassed h]
      exact ih hm (by omega)

/-- Legal parameters give every channel at most ten bands. -/
theorem bands_le {p : Params} (h : p.ok = true) (ch : Channel) : p.bands ch ≤ 10 := by
  simp only [Params.ok, Bool.and_eq_true, decide_eq_true_eq] at h
  cases ch <;> simp only [Params.bands] <;> omega

theorem chain_filter (ch : Channel) (s : State) (x : Word) (a : Nat) :
    (Mem.read bqShape (chain ch s x).1 a).filter = (Mem.read bqShape s.bq a).filter := by
  unfold chain
  split
  · rfl
  · exact runBands_filter ch _ _ _ _ a

theorem wf_chain {ch : Channel} {s : State} {x : Word} (hp : s.par.ok = true) (h : Mem.wf bqShape s.bq = true) :
    Mem.wf bqShape (chain ch s x).1 = true := by
  unfold chain
  split
  · exact h
  · exact wf_runBands h (by have := bands_le hp ch; omega)

/-- The cascade writes the slots of its own bands only. -/
theorem runBands_other {ch : Channel} {n b : Nat} {m : Mem BqSlot} {x : Word} {a : Nat}
    (ha : ∀ c, b ≤ c → c < b + n → a ≠ bqIndex ch c) :
    Mem.read bqShape (runBands ch n b m x).1 a = Mem.read bqShape m a := by
  induction n generalizing b m x with
  | zero => rfl
  | succ n ih =>
    have hn : ∀ c, b + 1 ≤ c → c < b + 1 + n → a ≠ bqIndex ch c := fun c h1 h2 => ha c (by omega) (by omega)
    cases h : (readBq m ch b).filter.bypass
    · rw [runBands_active h, ih hn, read_writeBq, if_neg (ha b (by omega) (by omega))]
    · rw [runBands_bypassed h, ih hn]

/-- The cascade reads the slots of its own channel only: banks that agree on them give the same sample and agree on them
afterwards. -/
theorem runBands_congr {ch : Channel} {n b : Nat} {m m' : Mem BqSlot} {x : Word} (hn : b + n ≤ 10)
    (h : ∀ c, c < 10 → readBq m ch c = readBq m' ch c) :
    (runBands ch n b m x).2 = (runBands ch n b m' x).2
      ∧ ∀ c, c < 10 → readBq (runBands ch n b m x).1 ch c = readBq (runBands ch n b m' x).1 ch c := by
  induction n generalizing b m m' x with
  | zero => exact ⟨rfl, h⟩
  | succ n ih =>
    have hs := h b (by omega)
    cases hb : (readBq m ch b).filter.bypass
    · have hb' : (readBq m' ch b).filter.bypass = false := by rw [← hs]; exact hb
      rw [runBands_active hb, runBands_active hb', ← hs]
      refine ih (by omega) fun c hc => ?_
      have hc := h c hc
      simp only [readBq, read_writeBq] at hc ⊢
      rw [hc]
    · have hb' : (readBq m' ch b).filter.bypass = true := by rw [← hs]; exact hb
      rw [runBands_bypassed hb, runBands_bypassed hb']
      exact ih (by omega) h

/-- What a chain reads: the registers, the parameters and its own channel's slots. -/
theorem chain_congr {ch : Channel} {s t : State} {x : Word} (hr : t.regs = s.regs) (hp : t.par = s.par)
    (ho : s.par.ok = true) (h : ∀ c, c < 10 → readBq t.bq ch c = readBq s.bq ch c) :
    (chain ch t x).2 = (chain ch s x).2
      ∧ ∀ c, c < 10 → readBq (chain ch t x).1 ch c = readBq (chain ch s x).1 ch c := by
  have hl := bands_le ho ch
  unfold chain
  rw [hr, hp]
  split
  · exact ⟨rfl, h⟩
  · exact runBands_congr (by omega) h

/-- A chain writes no slot of another channel. -/
theorem chain_other {ch ch' : Channel} {s : State} {x : Word} {b : Nat} (hp : s.par.ok = true) (hc : ch' ≠ ch) (hb : b < 10) :
    readBq (chain ch s x).1 ch' b = readBq s.bq ch' b := by
  unfold chain
  split
  · rfl
  · refine runBands_other fun c _ hc' => ?_
    have hl := bands_le hp ch
    cases ch <;> cases ch' <;> first | exact absurd rfl hc | (simp only [bqIndex, channelIndex]; omega)

/-! The peaks. -/

theorem peakOf_le (x : Word) : (peakOf x).toNat ≤ 32767 := by
  rw [peakOf, BitVec.toNat_ofNat, Nat.mod_eq_of_lt] <;> omega

theorem maxPeak_le {a b : BitVec 16} {n : Nat} (ha : a.toNat ≤ n) (hb : b.toNat ≤ n) : (maxPeak a b).toNat ≤ n := by
  unfold maxPeak
  split <;> assumption

/-- A peak update keeps the range of the peaks. -/
theorem peaksOk_update {p : Peaks} (h : peaksOk p) (i : PeakPoint) (x : Word) : peaksOk (peakUpdate i x p) := by
  obtain ⟨h1, h2, h3, h4, h5⟩ := h
  have hx := peakOf_le x
  cases i
  · exact ⟨maxPeak_le h1 hx, h2, h3, h4, h5⟩
  · exact ⟨h1, maxPeak_le h2 hx, h3, h4, h5⟩
  · exact ⟨h1, h2, maxPeak_le h3 hx, h4, h5⟩
  · exact ⟨h1, h2, h3, maxPeak_le h4 hx, h5⟩
  · exact ⟨h1, h2, h3, h4, maxPeak_le h5 hx⟩

/-! The path. -/

/-- What a frame may have changed when its samples reach the handoffs or any stage before: the biquad states, the loudness
states, the crossfeed states, the delay lines and the peak accumulators. -/
structure Passed (s t : State) : Prop where
  shape : t = { s with
    bq := t.bq
    lstate := t.lstate
    xf := { t.xf with lpA0 := s.xf.lpA0, lpB1 := s.xf.lpB1, apA := s.xf.apA }
    delay := t.delay
    pkt := { s.pkt with pacc := t.pkt.pacc } }
  filters : ∀ a, (Mem.read bqShape t.bq a).filter = (Mem.read bqShape s.bq a).filter
  bank : s.par.ok = true → Mem.wf bqShape s.bq = true → Mem.wf bqShape t.bq = true
  peaks : peaksOk s.pkt.pacc → peaksOk t.pkt.pacc

theorem Passed.refl (s : State) : Passed s s := ⟨rfl, fun _ => rfl, fun _ h => h, fun h => h⟩

theorem Passed.trans {s t u : State} (h1 : Passed s t) (h2 : Passed t u) : Passed s u where
  shape := by
    have e1 := h1.shape
    have e2 := h2.shape
    rw [e1] at e2
    exact e2
  filters a := (h2.filters a).trans (h1.filters a)
  bank hp hb := h2.bank (by rw [h1.shape]; exact hp) (h1.bank hp hb)
  peaks h := h2.peaks (h1.peaks h)

theorem passed_norm (w : Word) (s : State) : (stageNorm w s).st = s := rfl

theorem passed_preamp (f : Flight) : (stagePreamp f).st = f.st := rfl

theorem passed_loudness (f : Flight) : Passed f.st (stageLoudness f).st := by
  unfold stageLoudness
  split
  · exact ⟨rfl, fun _ => rfl, fun _ h => h, fun h => h⟩
  · exact Passed.refl _

theorem passed_chain (ch : Channel) (s : State) (x : Word) : Passed s { s with bq := (chain ch s x).1 } :=
  ⟨rfl, chain_filter ch s x, fun hp hb => wf_chain hp hb, fun h => h⟩

theorem passed_masterEq (f : Flight) : Passed f.st (stageMasterEq f).st :=
  (passed_chain .masterL f.st f.l).trans (passed_chain .masterR (chainL .masterL f).st f.r)

theorem passed_meter (i : PeakPoint) (x : Word) (s : State) : Passed s (meter i x s) :=
  ⟨rfl, fun _ => rfl, fun _ h => h, fun h => peaksOk_update h i x⟩

theorem passed_meterMaster (f : Flight) : Passed f.st (stageMeterMaster f).st :=
  (passed_meter .masterL f.l f.st).trans (passed_meter .masterR f.r _)

theorem passed_crossfeed (f : Flight) : Passed f.st (stageCrossfeed f).st := by
  unfold stageCrossfeed
  split
  · exact ⟨rfl, fun _ => rfl, fun _ h => h, fun h => h⟩
  · exact Passed.refl _

theorem passed_outputEq (f : Flight) : Passed f.st (stageOutputEq f).st :=
  ((passed_chain .outL f.st f.l).trans (passed_chain .outR (chainL .outL f).st f.r)).trans
    (passed_chain .sub (chainR .outR (chainL .outL f)).st f.sub)

theorem passed_delay (f : Flight) : Passed f.st (stageDelay f).st := ⟨rfl, fun _ => rfl, fun _ h => h, fun h => h⟩

theorem passed_meterOut (f : Flight) : Passed f.st (stageMeterOut f).st :=
  ((passed_meter .outL f.l f.st).trans (passed_meter .outR f.r _)).trans (passed_meter .sub f.sub _)

/-- The stages before the delay lines. -/
theorem passed_beforeDelay (w : Word) (s : State) : Passed s (beforeDelay w s).st := by
  have h1 := passed_loudness (stagePreamp (stageNorm w s))
  have h2 := passed_masterEq (stageLoudness (stagePreamp (stageNorm w s)))
  have h3 := passed_meterMaster (stageMasterEq (stageLoudness (stagePreamp (stageNorm w s))))
  have h4 := passed_crossfeed (stageMeterMaster (stageMasterEq (stageLoudness (stagePreamp (stageNorm w s)))))
  have h5 := passed_outputEq
    (stageSplit (stageCrossfeed (stageMeterMaster (stageMasterEq (stageLoudness (stagePreamp (stageNorm w s)))))))
  exact (((h1.trans h2).trans h3).trans h4).trans h5

/-- The delay lines are untouched before their own stage. -/
theorem beforeDelay_delay (w : Word) (s : State) : (beforeDelay w s).st.delay = s.delay := by
  have h : ∀ f : Flight, (stageCrossfeed f).st.delay = f.st.delay := by
    intro f
    unfold stageCrossfeed
    split <;> rfl
  have h' : ∀ f : Flight, (stageLoudness f).st.delay = f.st.delay := by
    intro f
    unfold stageLoudness
    split <;> rfl
  exact (h _).trans (h' _)

/-- What a delay line returns: the sample itself at a delay of 0, else the word written `d` frames earlier. -/
theorem lineOut_eq (m : Mem Word) (dw d : BitVec 13) (x : Word) :
    lineOut m dw d x = if d = 0#13 then x else readLine m (dw - d) := by
  rw [lineOut, lineAfter, readLine_writeLine]
  by_cases h : d = 0#13
  · subst h
    simp
  · rw [if_neg h, if_neg fun e => h (by bv_omega)]

/-- What crossfeed reads: the registers, its own states and the two samples; and it writes its own states only. -/
theorem stageCrossfeed_congr {f : Flight} {s : State} (hr : f.st.regs = s.regs) (hx : f.st.xf = s.xf) (b : Word) :
    (stageCrossfeed f).l = (stageCrossfeed ⟨f.l, f.r, b, s⟩).l
      ∧ (stageCrossfeed f).r = (stageCrossfeed ⟨f.l, f.r, b, s⟩).r
      ∧ (stageCrossfeed f).st = { f.st with xf := (stageCrossfeed ⟨f.l, f.r, b, s⟩).st.xf } := by
  unfold stageCrossfeed
  by_cases h : xfEnabled s.regs = true
  · rw [if_pos (by rw [hr]; exact h), if_pos h]
    unfold crossfeed
    simp only [hx]
    exact ⟨trivial, trivial, trivial⟩
  · rw [if_neg (by rw [hr]; exact h), if_neg h]
    exact ⟨rfl, rfl, by rw [← hx]⟩

theorem signalPath_eq (w : Word) (s : State) : signalPath w s = stageMeterOut (stageDelay (beforeDelay w s)) := rfl

/-- The whole path up to the handoffs. -/
theorem passed_signalPath (w : Word) (s : State) : Passed s (signalPath w s).st :=
  ((passed_beforeDelay w s).trans (passed_delay _)).trans (passed_meterOut _)

/-- The delay lines after a frame: each gets the frame's sample at the write index, which advances. -/
theorem signalPath_delay (w : Word) (s : State) :
    (signalPath w s).st.delay
      = { lineL := writeLine s.delay.lineL s.delay.dw (beforeDelay w s).l
          lineR := writeLine s.delay.lineR s.delay.dw (beforeDelay w s).r
          lineSub := writeLine s.delay.lineSub s.delay.dw (beforeDelay w s).sub
          dw := s.delay.dw + 1#13 } := by
  have h : (signalPath w s).st.delay = (stageDelay (beforeDelay w s)).st.delay := rfl
  rw [h]
  simp only [stageDelay, lineAfter, beforeDelay_delay]

/-- The Sub delay reads only registers and parameters. -/
theorem subDelay_beforeDelay (w : Word) (s : State) : subDelay (beforeDelay w s).st = subDelay s := by
  rw [(passed_beforeDelay w s).shape]
  rfl

/-- The left sample a frame hands off is what its delay line returns. -/
theorem signalPath_l (w : Word) (s : State) :
    (signalPath w s).l = lineOut s.delay.lineL s.delay.dw s.regs.delayL (beforeDelay w s).l := by
  have h : (signalPath w s).l
      = lineOut (beforeDelay w s).st.delay.lineL (beforeDelay w s).st.delay.dw (beforeDelay w s).st.regs.delayL
          (beforeDelay w s).l := rfl
  rw [h, beforeDelay_delay, show (beforeDelay w s).st.regs = s.regs by rw [(passed_beforeDelay w s).shape]]

/-- The right sample a frame hands off is what its delay line returns. -/
theorem signalPath_r (w : Word) (s : State) :
    (signalPath w s).r = lineOut s.delay.lineR s.delay.dw s.regs.delayR (beforeDelay w s).r := by
  have h : (signalPath w s).r
      = lineOut (beforeDelay w s).st.delay.lineR (beforeDelay w s).st.delay.dw (beforeDelay w s).st.regs.delayR
          (beforeDelay w s).r := rfl
  rw [h, beforeDelay_delay, show (beforeDelay w s).st.regs = s.regs by rw [(passed_beforeDelay w s).shape]]

/-- The Sub sample a frame hands off is what its delay line returns. -/
theorem signalPath_sub (w : Word) (s : State) :
    (signalPath w s).sub = lineOut s.delay.lineSub s.delay.dw (subDelay s) (beforeDelay w s).sub := by
  have h : (signalPath w s).sub
      = lineOut (beforeDelay w s).st.delay.lineSub (beforeDelay w s).st.delay.dw (subDelay (beforeDelay w s).st)
          (beforeDelay w s).sub := rfl
  rw [h, beforeDelay_delay, subDelay_beforeDelay]

/-- A frame is its signal path and the two handoffs, in this order. -/
theorem frame_eq (w : Word) (s : State) :
    frame w s
      = queuePush ⟨(signalPath w s).sub, false⟩
          (spdifAppend (out16 (signalPath w s).l) (out16 (signalPath w s).r) (signalPath w s).st) := rfl

/-! The sequencer is no input of a frame. -/

/-- The samples in flight over a state with another sequencer state. -/
def Flight.setSeq (q : CmdSeq) (f : Flight) : Flight := { f with st := { f.st with cmdSeq := q } }

theorem stageLoudness_setSeq (q : CmdSeq) (f : Flight) : stageLoudness (f.setSeq q) = (stageLoudness f).setSeq q := by
  unfold stageLoudness
  by_cases h : loudEnabled f.st.regs = true
  · rw [if_pos h, if_pos (by exact h)]
    rfl
  · rw [if_neg h, if_neg (by exact h)]

theorem chain_setSeq (q : CmdSeq) (ch : Channel) (s : State) (x : Word) : chain ch { s with cmdSeq := q } x = chain ch s x := rfl

theorem stageMasterEq_setSeq (q : CmdSeq) (f : Flight) : stageMasterEq (f.setSeq q) = (stageMasterEq f).setSeq q := rfl

theorem stageMeterMaster_setSeq (q : CmdSeq) (f : Flight) :
    stageMeterMaster (f.setSeq q) = (stageMeterMaster f).setSeq q := rfl

theorem stageCrossfeed_setSeq (q : CmdSeq) (f : Flight) : stageCrossfeed (f.setSeq q) = (stageCrossfeed f).setSeq q := by
  unfold stageCrossfeed
  by_cases h : xfEnabled f.st.regs = true
  · rw [if_pos h, if_pos (by exact h)]
    rfl
  · rw [if_neg h, if_neg (by exact h)]

theorem stageOutputEq_setSeq (q : CmdSeq) (f : Flight) : stageOutputEq (f.setSeq q) = (stageOutputEq f).setSeq q := rfl

/-- The signal path neither reads nor writes the sequencer. -/
theorem signalPath_setSeq (q : CmdSeq) (w : Word) (s : State) :
    signalPath w { s with cmdSeq := q } = (signalPath w s).setSeq q := by
  have h1 : stageLoudness (stagePreamp (stageNorm w { s with cmdSeq := q }))
      = (stageLoudness (stagePreamp (stageNorm w s))).setSeq q := stageLoudness_setSeq q (stagePreamp (stageNorm w s))
  unfold signalPath
  rw [h1, stageMasterEq_setSeq, stageMeterMaster_setSeq, stageCrossfeed_setSeq]
  generalize stageCrossfeed (stageMeterMaster (stageMasterEq (stageLoudness (stagePreamp (stageNorm w s))))) = f
  rfl

/-- A frame neither reads nor writes the sequencer. -/
theorem frame_setSeq (q : CmdSeq) (w : Word) (s : State) : frame w { s with cmdSeq := q } = { frame w s with cmdSeq := q } := by
  rw [frame_eq, frame_eq, signalPath_setSeq]
  generalize signalPath w s = f
  have ha : ∀ l r : BitVec 16, spdifAppend l r { f.st with cmdSeq := q } = { spdifAppend l r f.st with cmdSeq := q } := by
    intro l r
    unfold spdifAppend
    show (match appendFrame f.st.regs.chstat l r f.st.spdif with
      | none => _
      | some d => _) = _
    cases appendFrame f.st.regs.chstat l r f.st.spdif <;> rfl
  have hq : ∀ (m : Msg) (g : State), queuePush m { g with cmdSeq := q } = { queuePush m g with cmdSeq := q } := by
    intro m g
    unfold queuePush
    by_cases h : queueFull g.queue = true
    · rw [if_pos h, if_pos (by exact h)]
      rfl
    · rw [if_neg h, if_neg (by exact h)]
  exact (congrArg _ (ha _ _)).trans (hq _ _)

end Sys2Proof.Machine
end

