-- ==== Sys2Proof/Laws/Pdm.lean ====
section
/-! SUPPORT. What the modulator's loop can do, once: its decisions one by one and in runs, the leak as an integer, and the dither
of a machine without dither. -/

namespace Sys2Proof.Machine

@[simp] theorem decisions_zero (t : BitVec 16) (d : Int) (e1 e2 : Word) : decisions t d 0 e1 e2 = ⟨[], e1, e2⟩ := rfl

/-- The first of `n + 1` decisions, and the rest from the integrators it leaves. -/
theorem decisions_succ (t : BitVec 16) (d : Int) (n : Nat) (e1 e2 : Word) :
    decisions t d (n + 1) e1 e2
      = ⟨comparator e2 d
          :: (decisions t d n (nextErr1 t e1 (comparator e2 d)) (nextErr2 t e1 e2 (comparator e2 d))).bits,
        (decisions t d n (nextErr1 t e1 (comparator e2 d)) (nextErr2 t e1 e2 (comparator e2 d))).err1,
        (decisions t d n (nextErr1 t e1 (comparator e2 d)) (nextErr2 t e1 e2 (comparator e2 d))).err2⟩ := rfl

/-- A run of decisions is two runs, the second from the integrators the first leaves. -/
theorem decisions_add (t : BitVec 16) (d : Int) (m n : Nat) (e1 e2 : Word) :
    decisions t d (m + n) e1 e2
      = ⟨(decisions t d m e1 e2).bits
          ++ (decisions t d n (decisions t d m e1 e2).err1 (decisions t d m e1 e2).err2).bits,
        (decisions t d n (decisions t d m e1 e2).err1 (decisions t d m e1 e2).err2).err1,
        (decisions t d n (decisions t d m e1 e2).err1 (decisions t d m e1 e2).err2).err2⟩ := by
  induction m generalizing e1 e2 with
  | zero => simp
  | succ m ih =>
    rw [Nat.succ_add, decisions_succ, ih, decisions_succ]
    rfl

/-- A wrap to 32 bits is exact where the value fits. -/
theorem wrap32_toInt {v : Int} (h1 : -(2 ^ 31) ≤ v) (h2 : v < 2 ^ 31) : (wrap 32 v).toInt = v := by
  rw [wrap, BitVec.toInt_ofInt, Int.bmod_def]
  omega

/-- The leak never overflows (45_pdm.md R352). -/
theorem leakValue_toInt (v : Word) : (leakValue v).toInt = v.toInt - v.toInt / 65536 := by
  have h1 := v.toInt_lt
  have h2 := v.le_toInt
  norm_num at h1 h2
  rw [leakValue, wrap32_toInt]
  · rfl
  all_goals
    simp only [asr, Config.leakShift]
    omega

/-- Where DITHER_MAX is 0, every dither value is 0. -/
theorem ditherValue_eq_zero {s : State} (h : s.par.ditherMax = 0) : ditherValue s = 0 := by
  unfold ditherValue clamp
  rw [h]
  simp only [CharP.cast_eq_zero, neg_zero]
  omega

/-- A held target keeps the target in the range the clip limit gives (45_pdm.md R347). -/
theorem targetOf_range {p : Params} (x : Word) (h : p.clip ≤ 32767) :
    32768 ≤ (targetOf p x).toNat + p.clip ∧ (targetOf p x).toNat ≤ 32768 + p.clip := by
  have : -(p.clip : Int) ≤ pcmOf p x ∧ pcmOf p x ≤ p.clip := by
    unfold pcmOf clamp
    omega
  rw [targetOf, BitVec.toNat_ofInt]
  omega

@[simp] theorem heldSamples_zero (t : BitVec 16) : heldSamples t 0 = (0#32, 0#32) := rfl

theorem heldSamples_succ (t : BitVec 16) (n : Nat) : heldSamples t (n + 1) = heldSample t (heldSamples t n) := rfl

end Sys2Proof.Machine
end

