-- ==== Sys2Proof/Laws/PerInstr.lean ====
section
/-! SUPPORT. Families of statements about a command as syntax, with one lemma per constructor. -/

namespace Sys2Proof

/-- The bits of a command word, by field. -/
theorem getLsbD_commandWord (op : Opcode) (ch sel : BitVec 4) (imm : BitVec 16) (i : Nat) :
    (commandWord op ch sel imm).getLsbD i
      = if i < 16 then imm.getLsbD i else if i < 20 then sel.getLsbD (i - 16)
        else if i < 24 then ch.getLsbD (i - 20) else op.code.getLsbD (i - 24) := by
  have h : commandWord op ch sel imm = (op.code ++ ch ++ sel ++ imm : BitVec (8 + 4 + 4 + 16)) := rfl
  rw [h]
  simp only [BitVec.getLsbD_append]
  split_ifs <;> first | rfl | omega

/-- The OP field of an encoded command word. -/
theorem opField_commandWord (op : Opcode) (ch sel : BitVec 4) (imm : BitVec 16) :
    opField (commandWord op ch sel imm) = op.code := by
  apply BitVec.eq_of_getLsbD_eq
  intro i hi
  rw [opField, BitVec.getLsbD_extractLsb', getLsbD_commandWord, decide_eq_true hi, Bool.true_and]
  split_ifs <;> first | omega | (congr 1; omega)

/-- The CH field of an encoded command word. -/
theorem chField_commandWord (op : Opcode) (ch sel : BitVec 4) (imm : BitVec 16) :
    chField (commandWord op ch sel imm) = ch := by
  apply BitVec.eq_of_getLsbD_eq
  intro i hi
  rw [chField, BitVec.getLsbD_extractLsb', getLsbD_commandWord, decide_eq_true hi, Bool.true_and]
  split_ifs <;> first | omega | (congr 1; omega)

/-- The SEL field of an encoded command word. -/
theorem selField_commandWord (op : Opcode) (ch sel : BitVec 4) (imm : BitVec 16) :
    selField (commandWord op ch sel imm) = sel := by
  apply BitVec.eq_of_getLsbD_eq
  intro i hi
  rw [selField, BitVec.getLsbD_extractLsb', getLsbD_commandWord, decide_eq_true hi, Bool.true_and]
  split_ifs <;> first | omega | (congr 1; omega)

/-- The IMM field of an encoded command word. -/
theorem immField_commandWord (op : Opcode) (ch sel : BitVec 4) (imm : BitVec 16) :
    immField (commandWord op ch sel imm) = imm := by
  apply BitVec.eq_of_getLsbD_eq
  intro i hi
  rw [immField, BitVec.getLsbD_extractLsb', getLsbD_commandWord, decide_eq_true hi, Bool.true_and]
  split_ifs <;> first | omega | (congr 1; omega)

/-- Every opcode is found again from its own value. -/
theorem opcodeOf_code (op : Opcode) : opcodeOf op.code = some op := by
  cases op <;> decide

end Sys2Proof

namespace Sys2Proof.Laws.EncodedLength

open Sys2Proof

/-- A well-formed command's encoding has the length its command word gives (30_encoding.md R145). -/
def Statement (i : Instr) : Prop :=
  i.wellFormed = true → ∃ w ws, encode i = w :: ws ∧ ws.length = payloadWords w

theorem nop : Statement .nop := fun _ => ⟨_, _, rfl, by decide⟩

theorem reset : Statement .reset := fun _ => ⟨_, _, rfl, by decide⟩

theorem setReg (reg : BitVec 16) (value : Word) : Statement (.setReg reg value) := fun _ =>
  ⟨_, _, rfl, by simp only [payloadWords, opField_commandWord, opcodeOf_code, List.length]⟩

theorem getReg (reg : BitVec 16) : Statement (.getReg reg) := fun _ =>
  ⟨_, _, rfl, by simp only [payloadWords, opField_commandWord, opcodeOf_code, List.length]⟩

theorem bqWrite (ch band : BitVec 4) (b0 b1 b2 a1 a2 : Word) : Statement (.bqWrite ch band b0 b1 b2 a1 a2) := fun _ =>
  ⟨_, _, rfl, by simp only [payloadWords, opField_commandWord, opcodeOf_code, List.length]⟩

theorem bqRead (ch band : BitVec 4) : Statement (.bqRead ch band) := fun _ =>
  ⟨_, _, rfl, by simp only [payloadWords, opField_commandWord, opcodeOf_code, List.length]⟩

theorem loudWrite (shelf : BitVec 4) (volStep : BitVec 16) (b0 b1 b2 a1 a2 : Word) :
    Statement (.loudWrite shelf volStep b0 b1 b2 a1 a2) := fun _ =>
  ⟨_, _, rfl, by simp only [payloadWords, opField_commandWord, opcodeOf_code, List.length]⟩

theorem loudFlip : Statement .loudFlip := fun _ => ⟨_, _, rfl, by decide⟩

theorem xfWrite (lpA0 lpB1 apA : Word) : Statement (.xfWrite lpA0 lpB1 apA) := fun _ =>
  ⟨_, _, rfl, by simp only [payloadWords, opField_commandWord, opcodeOf_code, List.length]⟩

theorem setRate (rate : Word) : Statement (.setRate rate) := fun _ =>
  ⟨_, _, rfl, by simp only [payloadWords, opField_commandWord, opcodeOf_code, List.length]⟩

theorem packet (n : BitVec 16) (gapUs : Word) (frames : List Word) : Statement (.packet n gapUs frames) := fun h =>
  ⟨_, _, rfl, by
    have hl : frames.length = n.toNat := by simpa [Instr.wellFormed] using h
    simp only [payloadWords, opField_commandWord, opcodeOf_code, immField_commandWord, List.length]
    omega⟩

theorem pdmMark : Statement .pdmMark := fun _ => ⟨_, _, rfl, by decide⟩

end Sys2Proof.Laws.EncodedLength
end

