-- ==== Sys2Proof/Tests/Slice0.lean ====
section
/-! SUPPORT. The author's own tests: the well-formedness smoke, words written out from the encoding, the spec's worked examples
(each names its source), and for every obligation with hypotheses a state and operands that meet them. -/

namespace Sys2Proof.Tests

open Sys2Proof Sys2Proof.Machine

/-- The state after a command from a state. -/
def after (i : Instr) (s : State) : State :=
  match exec i s with
  | .next t => t
  | .fault _ => s
  | .refused _ => s

/-- A step answers a next state. -/
def goesOn (r : Result) : Bool :=
  match r with
  | .next _ => true
  | .fault _ => false
  | .refused _ => false

/-- The reset state with the next turn decided and words on the port. -/
def fresh (a : Agent) (ws : List Word) : State := { State.reset with sched := [a], port := ws }

/-! Well-formedness. -/

theorem test_packet_with_missing_frame_is_ill_formed : (Instr.packet 3#16 0#32 [1#32, 2#32]).wellFormed = false := by decide
theorem test_packet_with_extra_frame_is_ill_formed : (Instr.packet 1#16 0#32 [1#32, 2#32]).wellFormed = false := by decide
theorem test_packet_of_its_count_is_well_formed : (Instr.packet 2#16 0#32 [1#32, 2#32]).wellFormed = true := by decide

/-! Decoding: OP [31:24], CH [23:20], SEL [19:16], IMM [15:0] (30_encoding.md R141, R143). -/

theorem test_decode_nop : decode [0b00000000_0000_0000_0000000000000000#32] = .command .nop [] := by decide
theorem test_decode_reset : decode [0b00000001_0000_0000_0000000000000000#32] = .command .reset [] := by decide
theorem test_decode_set_reg :
    decode [0b00000010_0000_0000_0000000000001101#32, 7#32] = .command (.setReg 13#16 7#32) [] := by decide
theorem test_decode_get_reg : decode [0b00000011_0000_0000_0000000000100001#32] = .command (.getReg 0x21#16) [] := by decide
theorem test_decode_bq_write :
    decode [0b00010000_0011_1001_0000000000000000#32, 1#32, 2#32, 3#32, 4#32, 5#32]
      = .command (.bqWrite 3#4 9#4 1#32 2#32 3#32 4#32 5#32) [] := by decide
theorem test_decode_bq_read : decode [0b00010001_0100_0010_0000000000000000#32] = .command (.bqRead 4#4 2#4) [] := by decide
theorem test_decode_loud_write :
    decode [0b00100000_0000_0001_0000000001011010#32, 1#32, 2#32, 3#32, 4#32, 5#32]
      = .command (.loudWrite 1#4 90#16 1#32 2#32 3#32 4#32 5#32) [] := by decide
theorem test_decode_loud_flip : decode [0b00100001_0000_0000_0000000000000000#32] = .command .loudFlip [] := by decide
theorem test_decode_xf_write :
    decode [0b00101000_0000_0000_0000000000000000#32, 1#32, 2#32, 3#32] = .command (.xfWrite 1#32 2#32 3#32) [] := by decide
theorem test_decode_set_rate :
    decode [0b00110000_0000_0000_0000000000000000#32, 48000#32] = .command (.setRate 48000#32) [] := by decide
theorem test_decode_packet :
    decode [0b01000000_0000_0000_0000000000000010#32, 1000#32, 0xA#32, 0xB#32, 0x48000000#32]
      = .command (.packet 2#16 1000#32 [0xA#32, 0xB#32]) [0x48000000#32] := by decide
theorem test_decode_pdm_mark : decode [0b01001000_0000_0000_0000000000000000#32] = .command .pdmMark [] := by decide
theorem test_decode_ignores_unused_fields :
    decode [0x01FFFFFF#32] = .command .reset [] ∧ decode [0x300F1234#32, 0#32] = .command (.setRate 0#32) [] := by decide
theorem test_decode_undefined : decode [0xFF000000#32, 1#32] = .undefinedOp 0xFF#8 [1#32] := by decide
theorem test_decode_waits : decode [0x10030000#32, 1#32] = .incomplete ∧ decode [0x40000001#32, 1#32] = .incomplete := by decide
theorem test_bytes_little_endian : wordsOfBytes [0x02#8, 0x00#8, 0x00#8, 0x02#8, 0x55#8] = [0x02000002#32] := by decide

/-! The commands (46_control.md, the examples of each rule; 41_ingest.md R200). -/

theorem test_nop : after .nop State.reset = State.reset := rfl
theorem test_reset_zeroes_counters :
    (after .reset { State.reset with cnt := ⟨1#32, 2#32, 3#32, 4#32, 5#32, 6#32, 7#32⟩ }).cnt = Counters.zero := by decide
theorem test_set_reg_preamp : (after (.setReg 0x2#16 0x08000000#32) State.reset).regs.preamp = 0x08000000#32 := by decide
theorem test_set_reg_delay_clamps :
    (after (.setReg 0xB#16 0x00010000#32) State.reset).regs.delayL = 8191#13
      ∧ (after (.setReg 0x4#16 200#32) State.reset).regs.volIndex = 90#7 := by decide
theorem test_get_reg_id : (after (.getReg 0x0#16) State.reset).out.resp = [0x44535069#32] := by decide
theorem test_get_reg_reserved :
    (after (.getReg 0x17#16) State.reset).out.resp = [0#32]
      ∧ (after (.getReg 0x17#16) State.reset).cnt.cmdInvalid = 1#32 := by decide
theorem test_bq_write_identity_bypasses :
    (readBq (after (.bqWrite 0#4 3#4 0x10000000#32 0#32 0#32 0#32 0#32) State.reset).bq .masterL 3).filter.bypass = true := by
  decide
theorem test_bq_write_flat_filter_runs :
    (readBq (after (.bqWrite 0#4 3#4 0x10000000#32 1#32 0#32 1#32 0#32) State.reset).bq .masterL 3)
      = ⟨⟨⟨0x10000000#32, 1#32, 0#32, 1#32, 0#32⟩, false⟩, ⟨0#64, 0#64⟩⟩ := by decide
theorem test_bq_read_after_reset :
    (after (.bqRead 4#4 0#4) State.reset).out.resp = [0x10000000#32, 0#32, 0#32, 0#32, 0#32, 1#32] := by decide
theorem test_bq_read_refused : (after (.bqRead 5#4 0#4) State.reset).out.resp = [0#32, 0#32, 0#32, 0#32, 0#32, 0#32] := by decide
theorem test_loud_write_fills_table_one :
    (readLoud (after (.loudWrite 0#4 90#16 1#32 2#32 3#32 4#32 5#32) State.reset).loud 1#1 90 0).coefs
      = ⟨1#32, 2#32, 3#32, 4#32, 5#32⟩ := by decide
theorem test_loud_flip : (after .loudFlip State.reset).regs.loudActive = 1#1 := by decide
theorem test_xf_write :
    (after (.xfWrite 0x04000000#32 0x0C000000#32 0#32)
        { State.reset with xf := ⟨0#32, 0#32, 0#32, 1#32, 2#32, 3#64, 4#64⟩ }).xf
      = ⟨0x04000000#32, 0x0C000000#32, 0#32, 0#32, 0#32, 0#64, 0#64⟩ := by decide
theorem test_set_rate_48000 :
    (after (.setRate 48000#32) State.reset).regs.rate = 48000#32
      ∧ (after (.setRate 48000#32) State.reset).regs.chstat = 0x02000004#32 := by decide
theorem test_set_rate_coerces : (after (.setRate 22050#32) State.reset).regs.rate = 44100#32 := by decide
theorem test_packet_start :
    (after (.packet 32#16 1000#32 (List.replicate 32 0#32)) State.reset).cnt.pktCount = 1#32
      ∧ (after (.packet 32#16 1000#32 (List.replicate 32 0#32)) State.reset).spdif.ready = [0, 1] := by decide
theorem test_packet_of_31_refused :
    (after (.packet 31#16 1000#32 (List.replicate 31 0#32)) State.reset).cnt
      = ⟨0#32, 0#32, 0#32, 0#32, 0#32, 0#32, 1#32⟩ := by decide
theorem test_pdm_mark :
    readQueue (after .pdmMark State.reset).queue.buf 0#8 = ⟨0#32, true⟩ ∧ (after .pdmMark State.reset).queue.head = 1#8 := by
  decide

/-! The step, run by the row's own words. -/

theorem test_table_word_decodes :
    decodeTableWord 32 0x21000000 = some .loudFlip
      ∧ decodeTableWord 64 0x0000BB8030000000 = some (.setRate 48000#32) := by decide
theorem test_step_runs_the_fetched_word :
    (match step (State.reset.withFetchWord 32 0x03000000) with
      | .next t => t.out.resp
      | .fault _ => []
      | .refused _ => []) = [0x44535069#32] := by decide

/-! The signal path, the encoder and the modulator, from the examples of the rules. -/

/-- 42_dsp_pipeline.md R225: b0 = b1 = 0.5, input 2^20 then 0. -/
theorem test_kernel_example :
    let c : Coefs := ⟨0x08000000#32, 0x08000000#32, 0#32, 0#32, 0#32⟩
    kernelOut c BqState.zero 0x00100000#32 = 0x00080000#32
      ∧ kernelOut c (kernelState c BqState.zero 0x00100000#32) 0#32 = 0x00080000#32 := by decide +kernel
/-- 42_dsp_pipeline.md R229, R230. -/
theorem test_crossfeed_examples :
    lpOut ⟨0x04000000#32, 0x0C000000#32, 0#32, 0#32, 0#32, 0#64, 0#64⟩ 0#32 0x10000000#32 = 0x04000000#32
      ∧ apOut ⟨0#32, 0#32, 0#32, 0#32, 0#32, 0#64, 0#64⟩ 0#64 5#32 = 0#32
      ∧ apOut ⟨0#32, 0#32, 0#32, 0#32, 0#32, 0#64, 0#64⟩
          (apState ⟨0#32, 0#32, 0#32, 0#32, 0#32, 0#64, 0#64⟩ 0#64 5#32) 7#32 = 5#32 := by decide +kernel
/-- 42_dsp_pipeline.md R222, R232, R223. -/
theorem test_scalar_examples :
    (normSample 32767#16).toInt = 536854528 ∧ (normSample 0x8000#16).toInt = -536870912
      ∧ splitSub 3#32 0#32 = 1#32 ∧ (splitSub (-3#32) 0#32).toInt = -2
      ∧ mulq 0x20000000#32 0x08000000#32 = 0x10000000#32 := by decide +kernel
/-- 43_spdif.md R277. -/
theorem test_encoder_example :
    encFrame 0x00000004#32 0 0#16 0#16 = [0xE8CCCCCC#32, 0xCCCCCCCC#32, 0xE4CCCCCC#32, 0xCCCCCCCC#32]
      ∧ encFrameWord 0x00000004#32 1 0#16 0#16 0 = 0xE2CCCCCC#32 := by decide +kernel
/-- 45_pdm.md R350, R352, R346. -/
theorem test_modulator_examples :
    packWord (decisions 32768#16 0 32 0#32 0#32).bits = 0x8B333333#32
      ∧ leakValue 65536#32 = 65535#32 ∧ leakValue (-1#32) = 0#32
      ∧ pcmOf Params.default 0x20000000#32 = 29491 := by decide +kernel

/-! Witnesses: for every obligation with hypotheses, a state and operands that meet them, clause by clause at the boundaries. -/

/-- A state whose queue is full: head one below tail. -/
def fullQueue : State := { State.reset with queue := ⟨[], 255#8, 0#8⟩ }

/-- A state with one message waiting. -/
def oneMessage (m : Msg) : State := { State.reset with queue := ⟨[(0, m)], 1#8, 0#8⟩ }

/-- A state with the given ring indices. -/
def withLead (pwi pri : BitVec 11) : State := { State.reset with pdm := { State.reset.pdm with pwi := pwi, pri := pri } }

theorem witness_encode :
    (Instr.packet 2#16 7#32 [1#32, 2#32]).wellFormed = true ∧ (Instr.setRate 5#32).wellFormed = true := by decide

theorem witness_decode_length :
    [1#32].length < payloadWords 0x28000000#32
      ∧ decode [0x40000001#32, 9#32, 1#32, 2#32] = .command (.packet 1#16 9#32 [1#32]) [2#32]
      ∧ decode [0x49000000#32, 9#32] = .undefinedOp 0x49#8 [9#32] := by decide

theorem witness_step_runs :
    nextAgent (fresh .cmd [0x21000000#32, 1#32]) = .cmd ∧ (fresh .cmd [0x21000000#32, 1#32]).cmdSeq = .idle
      ∧ decode (fresh .cmd [0x21000000#32, 1#32]).port = .command .loudFlip [1#32] := by decide

theorem witness_step_waits :
    nextAgent (fresh .cmd [0x30000000#32]) = .cmd ∧ (fresh .cmd [0x30000000#32]).cmdSeq = .idle
      ∧ (fresh .cmd [0x30000000#32]).port = 0x30000000#32 :: [] ∧ ([] : List Word).length < payloadWords 0x30000000#32
      ∧ nextAgent (fresh .cmd []) = .cmd ∧ (fresh .cmd []).cmdSeq = .idle ∧ (fresh .cmd []).port = [] := by decide

theorem witness_undefined :
    (fresh .cmd [0x49000000#32]).cmdSeq = .idle ∧ (fresh .cmd [0x49000000#32]).port = 0x49000000#32 :: []
      ∧ ∀ o ∈ opcodeTable, o.code ≠ opField 0x49000000#32 := by decide

theorem witness_opcode_fields :
    opField 0x00FFFFFF#32 = 0x00#8 ∧ opField 0x01FFFFFF#32 = 0x01#8 ∧ opField 0x21000000#32 = 0x21#8
      ∧ opField 0x28000000#32 = 0x28#8 ∧ opField 0x30000000#32 = 0x30#8 ∧ opField 0x48000000#32 = 0x48#8
      ∧ (opField 0x0200000E#32 = 0x02#8 ∧ immField 0x0200000E#32 = 14#16)
      ∧ (opField 0x03000021#32 = 0x03#8 ∧ immField 0x03000021#32 = 0x21#16)
      ∧ (opField 0x10490000#32 = 0x10#8 ∧ chField 0x10490000#32 = 4#4 ∧ selField 0x10490000#32 = 9#4)
      ∧ (opField 0x11490000#32 = 0x11#8 ∧ chField 0x11490000#32 = 4#4 ∧ selField 0x11490000#32 = 9#4)
      ∧ (opField 0x40FF0020#32 = 0x40#8 ∧ immField 0x40FF0020#32 = 32#16)
      ∧ (opField 0x2001005A#32 = 0x20#8 ∧ selField 0x2001005A#32 = 1#4 ∧ immField 0x2001005A#32 = 90#16) := by decide

theorem witness_writable_registers :
    regOf 0x02#16 = some .preamp ∧ regWritable .preamp = true ∧ regOf 0x0E#16 = some .chstat ∧ regWritable .chstat = true := by
  decide

theorem witness_refused_registers :
    regOf 0x17#16 = none ∧ regOf 0x22#16 = none ∧ regOf 0xFFFF#16 = none
      ∧ regOf 0x00#16 = some .id ∧ regWritable .id = false ∧ regOf 0x01#16 = some .rate ∧ regWritable .rate = false
      ∧ regOf 0x0F#16 = some .loudActive ∧ regWritable .loudActive = false
      ∧ regOf 0x21#16 = some .pdmDiv ∧ regWritable .pdmDiv = false := by decide

theorem witness_reserved_numbers :
    (0x17#16).toNat = 0x17 ∧ 0x22 ≤ (0x22#16).toNat ∧ 0x22 ≤ (0xFFFF#16).toNat := by decide

theorem witness_legal_at_boundaries :
    legal .volIndex 90#32 = 90#32 ∧ legal .volIndex 91#32 = 90#32
      ∧ legal .delayL 8191#32 = 8191#32 ∧ legal .delaySub 8192#32 = 8191#32 := by decide

theorem witness_views :
    State.reset.spdif.free.length ≤ 8 ∧ State.reset.spdif.ready.length ≤ 8 ∧ Params.default.ok = true := by decide

theorem witness_divider :
    0 < 1 * 256 ∧ sysClk { Params.default with sysClk48 := 2 ^ 24 - 1 } 1 * 256 ≤ (2 ^ 24 - 1) * (1 * 256)
      ∧ sysClk { Params.default with sysClk48 := 2 ^ 24 - 1 } 1 * 256 ≤ (2 ^ 24 - 1) * (1 * 256) := by decide

theorem witness_slot_operands :
    ((4#4).toNat = channelIndex .sub ∧ (9#4).toNat < State.reset.par.bands .sub)
      ∧ ((0#4).toNat = channelIndex .masterL ∧ (0#4).toNat < State.reset.par.bands .masterL)
      ∧ 4 < (5#4).toNat ∧ ((0#4).toNat = channelIndex .masterL ∧ State.reset.par.bands .masterL ≤ (10#4).toNat) := by decide

theorem witness_loud_operands :
    ((1#4).toNat ≤ 1 ∧ (90#16).toNat ≤ 90) ∧ 1 < (2#4).toNat ∧ 90 < (91#16).toNat := by decide

theorem witness_packet_counts :
    packetCountOk 32#16 = true ∧ packetCountOk 96#16 = true ∧ (32 ≤ (32#16).toNat ∧ (32#16).toNat ≤ 96)
      ∧ (32 ≤ (96#16).toNat ∧ (96#16).toNat ≤ 96) := by decide

theorem witness_set_rate :
    (48000#32 = 44100#32 ∨ 48000#32 = 48000#32 ∨ 48000#32 = 96000#32)
      ∧ ¬ (44101#32 = 44100#32 ∨ 44101#32 = 48000#32 ∨ 44101#32 = 96000#32) := by decide

theorem witness_queue_states :
    queueFull State.reset.queue = false ∧ queueEmpty State.reset.queue = true ∧ queueFull fullQueue.queue = true
      ∧ queueEmpty fullQueue.queue = false := by decide

theorem witness_packet_refused :
    ((31#16).toNat < 32 ∧ (List.replicate 31 0#32).length = (31#16).toNat)
      ∧ (96 < (97#16).toNat ∧ (List.replicate 97 0#32).length = (97#16).toNat)
      ∧ opField 0x40FF001F#32 = 0x40#8 ∧ immField 0x40FF001F#32 = 31#16
      ∧ opField 0x40000061#32 = 0x40#8 ∧ immField 0x40000061#32 = 97#16
      ∧ (fresh .cmd (0x40FF001F#32 :: 5#32 :: (List.replicate 31 0#32 ++ [1#32]))).cmdSeq = .idle
      ∧ (fresh .cmd (0x40FF001F#32 :: 5#32 :: (List.replicate 31 0#32 ++ [1#32]))).port
          = 0x40FF001F#32 :: 5#32 :: (List.replicate 31 0#32 ++ [1#32]) := by decide

theorem witness_packet_runs :
    packetCountOk 32#16 = true ∧ (List.replicate 32 0#32).length = (32#16).toNat
      ∧ opField 0x40FF0020#32 = 0x40#8 ∧ immField 0x40FF0020#32 = 32#16
      ∧ (fresh .cmd (0x40FF0020#32 :: 5#32 :: (List.replicate 32 0#32 ++ []))).cmdSeq = .idle
      ∧ (fresh .cmd (0x40FF0020#32 :: 5#32 :: (List.replicate 32 0#32 ++ []))).port
          = 0x40FF0020#32 :: 5#32 :: (List.replicate 32 0#32 ++ []) := by decide

/-- A packet of 32 frames in progress, at its frame `k`. -/
def atFrame (k : Nat) : State :=
  { State.reset with
    cmdSeq := .pktFrame k, pkt := { State.reset.pkt with n := 32#16, frames := List.replicate 32 7#32 } }

theorem witness_frame_step :
    ((atFrame 30).cmdSeq = .pktFrame 30 ∧ (atFrame 30).pkt.frames[30]? = some 7#32 ∧ 30 + 1 < (atFrame 30).pkt.n.toNat)
      ∧ ((atFrame 31).cmdSeq = .pktFrame 31 ∧ (atFrame 31).pkt.frames[31]? = some 7#32
        ∧ (atFrame 31).pkt.n.toNat ≤ 31 + 1) := by decide

theorem witness_packet_end : { State.reset with cmdSeq := .pktEnd }.cmdSeq = .pktEnd := rfl

theorem witness_prefill :
    { State.reset.spdif with free := [] }.free = [] ∧ { State.reset.spdif with free := [3] }.free = [3]
      ∧ State.reset.spdif.free = 0 :: 1 :: [2, 3, 4, 5, 6, 7] := by decide

theorem witness_sample_limits :
    2 ^ 29 ≤ (0x20000000#32).toInt ∧ (0xE0000000#32).toInt ≤ -(2 ^ 29) := by decide

theorem witness_kernel :
    (⟨⟨0x10000000#32, 0#32, 0#32, 0#32, 0#32⟩, false⟩ : Filter).bypass = false ∧ BqState.zero = ⟨0#64, 0#64⟩ := by decide

theorem witness_bypass :
    Filter.identity.bypass = true ∧ channelBypassed { State.reset.regs with chBypass := 0x10#5 } .sub = true
      ∧ ∀ b, b < State.reset.par.bands .sub → (readBq State.reset.bq .sub b).filter.bypass = true :=
  ⟨rfl, rfl, fun _ _ => rfl⟩

theorem witness_chain :
    State.reset.par.ok = true ∧ State.reset.regs.chBypass.getLsbD (channelIndex .outL) = false
      ∧ { State.reset.regs with chBypass := 0x04#5 }.chBypass.getLsbD (channelIndex .outL) = true := by decide

theorem witness_loudness :
    State.reset.regs.flags.getLsbD 0 = false ∧ { State.reset.regs with flags := 1#3 }.flags.getLsbD 0 = true
      ∧ (readLoud State.reset.loud State.reset.pkt.act State.reset.pkt.vi.toNat 0).bypass = true
      ∧ (readLoud State.reset.loud State.reset.pkt.act State.reset.pkt.vi.toNat 1).bypass = true := by decide

theorem witness_crossfeed :
    State.reset.regs.flags.getLsbD 1 = false ∧ { State.reset.regs with flags := 2#3 }.flags.getLsbD 1 = true
      ∧ State.reset.xf = ⟨0#32, 0#32, 0#32, 0#32, 0#32, 0#64, 0#64⟩
      ∧ (⟨1#32, 2#32, 0#32, 0#32, 0#32, 0#64, 0#64⟩ : Crossfeed).apA = 0#32 := by decide

/-- The mono input 2^28 of 95_test_vectors.md V5.3 with lp_a0 = 0.25, lp_b1 = 0.75 and ap_a = 0.5 or -0.5, where its crossfeed
has settled. -/
def settledFlight (apA : Word) (ap : BitVec 64) : Flight :=
  ⟨0x10000000#32, 0x10000000#32, 0#32,
    { State.reset with
      regs := { State.reset.regs with flags := 2#3 },
      xf := ⟨0x04000000#32, 0x0C000000#32, apA, 0x0FFFFFFD#32, 0x0FFFFFFD#32, ap, ap⟩ }⟩

/-- V5.3's settled output equals the input, and its lowpass sum is not cut off. -/
theorem witness_crossfeed_dc :
    (stageCrossfeed (settledFlight 0x08000000#32 0x007FFFFFE8000000#64)).st.xf
        = (settledFlight 0x08000000#32 0x007FFFFFE8000000#64).st.xf
      ∧ (stageCrossfeed (settledFlight 0x08000000#32 0x007FFFFFE8000000#64)).l = 0x10000000#32
      ∧ xfEnabled (settledFlight 0x08000000#32 0x007FFFFFE8000000#64).st.regs = true
      ∧ -(2 ^ 28) < (0x08000000#32).toInt ∧ -(2 ^ 28) < (0xF0000001#32).toInt
      ∧ (0x04000000 * 0x10000000 + 0x0C000000 * 0x0FFFFFFD) / 2 ^ 28 < (2 : Int) ^ 31 := by decide +kernel

theorem witness_delay_zero :
    State.reset.regs.delayL = 0#13 ∧ State.reset.regs.delayR = 0#13
      ∧ subDelay { State.reset with par := { Params.default with subAlign := 0 } } = 0#13 := by decide

theorem witness_delay_later :
    (1#13).toNat = ([] : List Word).length + 1 ∧ (8191#13).toNat = (List.replicate 8190 0#32).length + 1
      ∧ (subDelay State.reset).toNat = (List.replicate 127 0#32).length + 1 := by
  refine ⟨by decide, ?_, ?_⟩ <;> rw [List.length_replicate] <;> decide

theorem witness_identity :
    identityConfig State.reset ∧ State.reset.regs.delayL = 0#13 ∧ State.reset.regs.delayR = 0#13
      ∧ (∀ a, readLine State.reset.delay.lineSub a = 0#32) ∧ (List.replicate 127 0#32).length < (subDelay State.reset).toNat :=
  ⟨⟨fun _ _ => rfl, rfl, rfl, rfl, rfl, rfl, rfl, rfl⟩, rfl, rfl, fun _ => rfl,
    by rw [List.length_replicate]; decide⟩

theorem witness_frame_stages :
    State.reset.par.ok = true ∧ State.reset.regs.delayL = 0#13 ∧ subDelay State.reset ≠ 0#13 ∧ 9 < 10 := by decide

theorem witness_slot_indices : 27 < 28 ∧ 7 < 8 ∧ 15 < 16 := by decide

theorem witness_append :
    ({ State.reset.spdif with free := [] }.fill = none ∧ { State.reset.spdif with free := [] }.free = [])
      ∧ { State.reset.spdif with fill := some (2, 191) }.fill = some (2, 191)
      ∧ (State.reset.spdif.fill = none ∧ State.reset.spdif.free = 0 :: [1, 2, 3, 4, 5, 6, 7])
      ∧ ((191 : Fin 192).val = 191 ∧ (3 < 4 ∧ (767 : Fin 768).val = 4 * (191 : Fin 192).val + 3))
      ∧ (190 : Fin 192).val + 1 = (191 : Fin 192).val
      ∧ (763 : Fin 768).val < 4 * (191 : Fin 192).val ∧ 4 * (0 : Fin 192).val + 4 ≤ (4 : Fin 768).val := by decide

theorem witness_tx_start :
    State.reset.txSeq = .idle ∧ State.reset.spdif.ready = [] ∧ { State.reset.spdif with ready := [5] }.ready = 5 :: [] := by
  decide

theorem witness_tx_run :
    { State.reset with txSeq := .run .sil 767 }.txSeq = .run .sil 767
      ∧ { State.reset with txSeq := .run (.buffer 3) 766 }.txSeq = .run (.buffer 3) 766
      ∧ (767 : Fin 768).val = (766 : Fin 768).val + 1 ∧ (767 : Fin 768).val = 767
      ∧ { State.reset.spdif with ready := [1] }.ready = 1 :: [] ∧ State.reset.spdif.ready = [] := by decide

theorem witness_underrun :
    ((withLead 1025#11 0#11).modSeq = .start ∧ (withLead 1025#11 0#11).par.ok = true
        ∧ 1024 < ((withLead 1025#11 0#11).pdm.pwi - (withLead 1025#11 0#11).pdm.pri).toNat
        ∧ queueEmpty (withLead 1025#11 0#11).queue = true)
      ∧ ((withLead 0#11 1024#11).modSeq = .start ∧ (withLead 0#11 1024#11).par.ok = true
        ∧ ((withLead 0#11 1024#11).pdm.pwi - (withLead 0#11 1024#11).pdm.pri).toNat = 1024
        ∧ queueEmpty (withLead 0#11 1024#11).queue = true) := by decide

theorem witness_mod_start_pops :
    (oneMessage ⟨5#32, false⟩).modSeq = .start ∧ (oneMessage ⟨5#32, false⟩).par.ok = true
      ∧ ((oneMessage ⟨5#32, false⟩).pdm.pwi - (oneMessage ⟨5#32, false⟩).pdm.pri).toNat ≤ 1024
      ∧ queueEmpty (oneMessage ⟨5#32, false⟩).queue = false ∧ (queueFront (oneMessage ⟨5#32, false⟩)).reset = false
      ∧ queueEmpty (oneMessage ⟨0#32, true⟩).queue = false ∧ (queueFront (oneMessage ⟨0#32, true⟩)).reset = true := by decide

theorem witness_mod_start_lead :
    ((withLead 1024#11 0#11).pdm.pwi - (withLead 1024#11 0#11).pdm.pri).toNat ≤ 1024
      ∧ queueEmpty (withLead 511#11 0#11).queue = true
      ∧ ((withLead 511#11 0#11).pdm.pwi - (withLead 511#11 0#11).pdm.pri).toNat < (withLead 511#11 0#11).par.targetLead
      ∧ (withLead 512#11 0#11).par.targetLead ≤ ((withLead 512#11 0#11).pdm.pwi - (withLead 512#11 0#11).pdm.pri).toNat := by
  decide

theorem witness_decisions :
    31 < 32 ∧ 0 ≤ (decisions 32768#16 0 0 0#32 0#32).err2.toInt + 0 ∧ (decisions 32768#16 (-1) 0 0#32 0#32).err2.toInt + -1 < 0 := by
  decide

theorem witness_mod_chunk :
    { State.reset with modSeq := .chunk 7 }.modSeq = .chunk 7 ∧ State.reset.pdm.mode = .modulate
      ∧ { State.reset with modSeq := .chunk 6 }.modSeq = .chunk 6 ∧ (6 : Fin 8).val < 7 ∧ (7 : Fin 8).val = 7
      ∧ (7 : Fin 8).val = (6 : Fin 8).val + 1 := by decide

theorem witness_sample :
    { State.reset with modSeq := .chunk 0 }.modSeq = .chunk 0 ∧ { State.reset.pdm with mode := .silence }.mode = .silence
      ∧ 8 ≤ ((520#11) - State.reset.pdm.pwi).toNat ∧ ((519#11) - State.reset.pdm.pwi).toNat < 8 := by decide

theorem witness_held_input :
    Params.default.clip ≤ 31129 ∧ { Params.default with clip := 31129 }.clip ≤ 31129 ∧ 256 ≤ 256
      ∧ { State.reset with modSeq := .chunk 0 }.modSeq = .chunk 0 ∧ State.reset.pdm.mode = .modulate
      ∧ { Params.default with ditherMax := 0 }.ditherMax = 0 := by decide

/-- Every case of the events: a step or command of each kind that goes on; for PDM_MARK a full queue, and the fullest one with
room. -/
theorem witness_event_cases :
    goesOn (exec (.packet 32#16 5#32 []) State.reset) = true ∧ packetCountOk 32#16 = true ∧ packetCountOk 97#16 = false
      ∧ goesOn (exec (.getReg 0x17#16) State.reset) = true ∧ (Instr.getReg 0x17#16) ≠ .reset
      ∧ (Instr.getReg 0x17#16) ≠ .pdmMark ∧ goesOn (exec .pdmMark fullQueue) = true
      ∧ queueFull { State.reset.queue with head := 254#8 } = false
      ∧ goesOn (exec .pdmMark { State.reset with queue := { State.reset.queue with head := 254#8 } }) = true
      ∧ (atFrame 31).cmdSeq = .pktFrame 31 ∧ { State.reset with cmdSeq := .pktEnd }.cmdSeq = .pktEnd
      ∧ goesOn (agentStep .cmd { State.reset with cmdSeq := .pktEnd }) = true
      ∧ goesOn (agentStep .pdmMod (withLead 1025#11 0#11)) = true
      ∧ { State.reset with modSeq := .chunk 0 }.modSeq ≠ .start
      ∧ goesOn (agentStep .spdifTx State.reset) = true ∧ goesOn (agentStep .pdmDma State.reset) = true := by decide

/-- One step of each agent that answers a next state, for the statements about any step. -/
theorem witness_steps :
    goesOn (step (fresh .cmd [0x48000000#32])) = true ∧ goesOn (step (fresh .cmd [0x49000000#32])) = true
      ∧ goesOn (step (fresh .spdifTx [])) = true ∧ goesOn (step (fresh .pdmMod [])) = true
      ∧ goesOn (step (fresh .pdmDma [])) = true ∧ goesOn (agentStep .cmd (fresh .cmd [0x48000000#32])) = true
      ∧ nextAgent (fresh .pdmDma []) ≠ .cmd ∧ nextAgent (fresh .pdmDma []) ≠ .spdifTx
      ∧ nextAgent (fresh .spdifTx []) ≠ .pdmDma := by decide

theorem witness_one_event :
    nextAgent (fresh .cmd [0x49000000#32]) = .cmd ∧ (fresh .cmd [0x49000000#32]).cmdSeq = .idle
      ∧ ∀ rest, decode (fresh .cmd [0x49000000#32]).port ≠ .command .reset rest := by
  refine ⟨by decide, by decide, fun rest h => ?_⟩
  have hd : decode (fresh .cmd [0x49000000#32]).port = .undefinedOp 0x49#8 [] := by decide
  rw [hd] at h
  cases h

theorem witness_during_packet :
    { fresh .pdmDma [] with cmdSeq := .pktEnd }.cmdSeq ≠ .idle
      ∧ goesOn (step { fresh .cmd [] with cmdSeq := .pktEnd }) = true := by decide

/-- A state that meets every invariant, ready to step. -/
theorem witness_invariants :
    poolPartition (fresh .pdmDma []) ∧ silblkCurrent (fresh .pdmDma []) ∧ Params.default.ok = true
      ∧ Inv (fresh .pdmDma []) ∧ goesOn (step (fresh .pdmDma [])) = true := by
  have hp : poolPartition (fresh .pdmDma []) := by
    show ∀ id : Fin 8, ([0, 1, 2, 3, 4, 5, 6, 7] : List (Fin 8)).count id = 1
    decide
  have hs : silblkCurrent (fresh .pdmDma []) := fun _ => rfl
  refine ⟨hp, hs, by decide, ⟨by decide, ?_, hp, by unfold txFlagOk; decide, hs, ⟨fun _ => ?_, fun _ => ?_⟩, ?_, trivial, ?_⟩,
    by decide⟩
  · exact reset_memories_wf Params.default
  · exact ⟨fun _ => rfl, fun _ => rfl⟩
  · exact ⟨fun _ => rfl, fun _ => rfl⟩
  · unfold rangesOk peaksOk
    decide
  · intro h
    cases h

end Sys2Proof.Tests
end

section
/-! PROOFS. The reserved register numbers and the read-only views (10_state.md R49, R50, R51 and R53). -/

namespace Sys2Proof.Machine

/-! The register map as a partial function of the number. -/

theorem mem_regTable (r : RegId) : r ∈ regTable := by cases r <;> decide

/-- `regTable` lists every register, so a number names none exactly when it is no register's number. -/
theorem regOf_eq_none_iff (n : BitVec 16) : regOf n = none ↔ ∀ r, regNum r ≠ n := by
  simp [regOf, mem_regTable]

/-- The register numbers stay off the two reserved stretches (R53). -/
theorem regNum_not_reserved (r : RegId) : (regNum r).toNat ≠ 0x17 ∧ (regNum r).toNat < 0x22 := by
  cases r <;> decide

/-- The map has no other gap: every number below 0x22 but 0x17 is some register's. -/
theorem regOf_isSome_below : ∀ k : Fin 0x22, k.val ≠ 0x17 → (regOf (BitVec.ofNat 16 k.val)).isSome = true := by decide

/-- The reserved numbers are exactly 0x17 and 0x22 to 0xFFFF (R53). -/
theorem regOf_eq_none_iff_reserved (n : BitVec 16) : regOf n = none ↔ n.toNat = 0x17 ∨ 0x22 ≤ n.toNat := by
  constructor
  · intro hnone
    by_contra hres
    push Not at hres
    obtain ⟨hgap, hlt⟩ := hres
    have hsome := regOf_isSome_below ⟨n.toNat, hlt⟩ hgap
    simp [hnone] at hsome
  · intro hres
    rw [regOf_eq_none_iff]
    rintro r rfl
    have hr := regNum_not_reserved r
    omega

/-! SET_REG and GET_REG of a number that names no register (R53, R383, R384). -/

/-- A refused command with a one-word response answers 0 and counts. -/
theorem refuseCommand_one (s : State) : refuseCommand 1 s = raise .cmdInvalid (respond [0#32] s) := rfl

theorem exec_setReg_of_regOf_none {n : BitVec 16} (h : regOf n = none) (v : Word) (s : State) :
    exec (.setReg n v) s = .next (raise .cmdInvalid s) := by
  simp [exec, execSetReg, h]

theorem exec_getReg_of_regOf_none {n : BitVec 16} (h : regOf n = none) (s : State) :
    exec (.getReg n) s = .next (raise .cmdInvalid (respond [0#32] s)) := by
  simp [exec, execGetReg, h, refuseCommand_one]

/-- Settles O12: `regOf` is `none` exactly at the reserved numbers, and there both commands are refused. -/
theorem reservedRegistersAreRefused : Obligations.ReservedRegistersAreRefused := fun n =>
  ⟨regOf_eq_none_iff_reserved n, fun hres s v =>
    have hnone := (regOf_eq_none_iff_reserved n).mpr hres
    ⟨exec_setReg_of_regOf_none hnone v s, exec_getReg_of_regOf_none hnone s⟩⟩

/-! The views as numbers: each field stands at the power of two of its low bit. -/

/-- The value of an append as a sum: what lets `omega` place the fields of a register. -/
theorem toNat_append_eq_add {m n : Nat} (x : BitVec m) (y : BitVec n) :
    (x ++ y).toNat = 2 ^ n * x.toNat + y.toNat := by
  rw [BitVec.toNat_append, Nat.shiftLeft_eq, Nat.mul_comm, Nat.two_pow_add_eq_or_of_lt y.isLt]

theorem fillCount_lt (d : Spdif) : fillCount d < 192 := by
  unfold fillCount
  split
  · decide
  · next f _ => exact f.2.isLt

theorem onSilence_iff (tx : TxSeq) : onSilence tx = true ↔ ∃ p, tx = .run .sil p := by
  cases tx with
  | idle => simp [onSilence]
  | run src p => cases src <;> simp [onSilence]

/-- QSTATE (R49). -/
theorem qstateView_toNat (q : Queue) : (qstateView q).toNat = q.head.toNat + 2 ^ 8 * q.tail.toNat := by
  simp only [qstateView, toNat_append_eq_add, BitVec.toNat_ofNat]
  omega

/-- PDM_PTRS (R50). -/
theorem pdmPtrsView_toNat (p : Pdm) : (pdmPtrsView p).toNat = p.pwi.toNat + 2 ^ 16 * p.pri.toNat := by
  simp only [pdmPtrsView, toNat_append_eq_add, BitVec.toNat_ofNat]
  omega

/-- SPDIF_POOL (R51), where the two buffer lists fit their 4-bit counts. -/
theorem spdifPoolView_toNat {d : Spdif} (tx : TxSeq) (hfree : d.free.length ≤ 8) (hready : d.ready.length ≤ 8) :
    (spdifPoolView d tx).toNat = d.free.length + 2 ^ 4 * d.ready.length + 2 ^ 8 * fillCount d
      + 2 ^ 16 * d.fill.isSome.toNat + 2 ^ 17 * d.running.toNat + 2 ^ 18 * (onSilence tx).toNat := by
  have hcount := fillCount_lt d
  simp only [spdifPoolView, toNat_append_eq_add, BitVec.toNat_ofNat, BitVec.toNat_ofBool]
  omega

/-- A one-bit flag as the number its field shows. -/
theorem toNat_eq_ite {b : Bool} {P : Prop} [Decidable P] (h : b = true ↔ P) : b.toNat = if P then 1 else 0 := by
  cases b <;> simp [← h]

theorem fill_isSome_toNat (d : Spdif) : d.fill.isSome.toNat = if d.fill = none then 0 else 1 := by
  cases h : d.fill <;> simp

/-! The views after power-on. -/

theorem targetLead_lt {p : Params} (h : p.ok = true) : p.targetLead < 1024 := by
  simp only [Params.ok, Bool.and_eq_true, decide_eq_true_eq] at h
  omega

theorem reset_qstate (p : Params) : readReg (State.resetWith p) .qstate = 0#32 :=
  show qstateView ⟨[], 0#8, 0#8⟩ = 0#32 by decide

theorem reset_pdmPtrs_toNat {p : Params} (h : p.ok = true) :
    (readReg (State.resetWith p) .pdmPtrs).toNat = p.targetLead := by
  have hlead := targetLead_lt h
  calc (readReg (State.resetWith p) .pdmPtrs).toNat
      = (BitVec.ofNat 11 p.targetLead).toNat + 2 ^ 16 * (0#11).toNat := pdmPtrsView_toNat _
    _ = p.targetLead := by simp only [BitVec.toNat_ofNat]; omega

theorem reset_spdifPool (p : Params) : readReg (State.resetWith p) .spdifPool = 0x00000008#32 :=
  show spdifPoolView Spdif.reset .idle = 0x00000008#32 by decide

/-- Settles O13: each view's value is the sum of its fields, and the reset state has an empty queue, the ring's write index at
TARGET_LEAD and all eight buffers free. -/
theorem viewRegistersShowIndicesAndCounts : Obligations.ViewRegistersShowIndicesAndCounts := by
  refine ⟨fun s => ⟨qstateView_toNat s.queue, pdmPtrsView_toNat s.pdm, fun hfree hready => ?_⟩,
    by decide, by decide, by decide, rfl, rfl, rfl,
    fun p hp => ⟨reset_qstate p, reset_pdmPtrs_toNat hp, reset_spdifPool p⟩⟩
  rw [← fill_isSome_toNat, ← toNat_eq_ite Iff.rfl, ← toNat_eq_ite (onSilence_iff s.txSeq)]
  exact spdifPoolView_toNat s.txSeq hfree hready

end Sys2Proof.Machine
end

section
/-! PROOFS. An undefined OP at the head of the command port (30_encoding.md R146). -/

namespace Sys2Proof.Machine

/-! The decoder at an undefined OP. -/

/-- An OP value is undefined exactly when no row of the opcode map has it. -/
theorem opcodeOf_eq_none_iff (op : BitVec 8) : opcodeOf op = none ↔ ∀ o ∈ opcodeTable, o.code ≠ op := by
  simp [opcodeOf]

theorem decode_of_opcodeOf_none {w : Word} (h : opcodeOf (opField w) = none) (ws : List Word) :
    decode (w :: ws) = .undefinedOp (opField w) ws := by
  simp [decode, h]

/-- What a command word's OP stands for decides how it is decoded. -/
theorem decode_of_opField_eq_code {w : Word} {op : Opcode} (h : opField w = op.code) (ws : List Word) :
    decode (w :: ws) = decodeAs op w ws := by
  simp [decode, h, opcodeOf_code]

/-! The turn of CMD in IDLE, by what the port's words decode to. -/

/-- In IDLE the guard of CMD's step adds nothing: where the words are incomplete, the step itself waits. -/
theorem agentStep_cmd_of_idle {s : State} (h : s.cmdSeq = .idle) : agentStep .cmd s = cmdIdle s := by
  cases hd : decode s.port with
  | command i rest => simp [agentStep, enabled, commandReady, cmdStep, h, hd]
  | undefinedOp op rest => simp [agentStep, enabled, commandReady, cmdStep, h, hd]
  | incomplete => simp [agentStep, enabled, commandReady, cmdIdle, h, hd]

theorem cmdIdle_of_undefinedOp {s : State} {op : BitVec 8} {rest : List Word}
    (h : decode s.port = .undefinedOp op rest) :
    cmdIdle s = .next (raise .cmdInvalid { s with port := rest }) := by
  simp [cmdIdle, h, undefinedOp]

/-- Settles O5: the word decodes to an undefined OP, so CMD's turn drops it from the port and counts CMD_INVALID. -/
theorem undefinedOpcodeConsumesOneWord : Obligations.UndefinedOpcodeConsumesOneWord := by
  intro s w ws hidle hport hundef
  have hdecode : decode s.port = .undefinedOp (opField w) ws := by
    rw [hport]
    exact decode_of_opcodeOf_none ((opcodeOf_eq_none_iff _).mpr hundef) ws
  constructor
  · rw [agentStep_cmd_of_idle hidle, cmdIdle_of_undefinedOp hdecode]
    rfl
  · exact decode_of_opField_eq_code (op := .nop) (by decide) ws

end Sys2Proof.Machine
end

section
/-! PROOFS. The PACKET command: its start step, its refusal and its end step (41_ingest.md R201, R203, R205). -/

namespace Sys2Proof.Machine

/-! A PACKET at the head of the port. -/

theorem packetCountOk_iff (n : BitVec 16) : packetCountOk n = true ↔ 32 ≤ n.toNat ∧ n.toNat ≤ 96 := by
  simp [packetCountOk]

/-- The decoder takes as many frame words as IMM says, for any CH and SEL (30_encoding.md R145). -/
theorem decode_packet {w : Word} {n : BitVec 16} {fs : List Word} (hop : opField w = 0x40#8) (himm : immField w = n)
    (hlen : fs.length = n.toNat) (gap : Word) (rest : List Word) :
    decode (w :: gap :: (fs ++ rest)) = .command (.packet n gap fs) rest := by
  have hcode : opField w = Opcode.packet.code := hop
  rw [decode_of_opField_eq_code hcode]
  simp [decodeAs, himm, ← hlen]

theorem cmdIdle_of_command {s : State} {i : Instr} {rest : List Word} (h : decode s.port = .command i rest) :
    cmdIdle s = exec i { s with port := rest } := by
  simp [cmdIdle, h]

/-! What the two kinds of PACKET do. -/

theorem exec_packet_of_countOk {n : BitVec 16} (h : packetCountOk n = true) (gap : Word) (fs : List Word) (s : State) :
    exec (.packet n gap fs) s = .next (latchPacket n gap fs (packetGap gap (countPacket s))) := by
  simp [exec, execPacket, h]

theorem exec_packet_of_not_countOk {n : BitVec 16} (h : ¬ packetCountOk n = true) (gap : Word) (fs : List Word)
    (s : State) : exec (.packet n gap fs) s = .next (raise .cmdInvalid s) := by
  simp [exec, execPacket, h]

theorem clearFirst_of_first_false (s : State) (h : s.pkt.first = false) :
    { s with pkt := { s.pkt with first := false } } = s := by
  rw [← h]

/-- The three cases of the gap as one update, with a flag for the prefill and one for the underrun. FIRST is 0 after each of
them, because the two that do not clear it need it to be 0 already (R201). -/
theorem packetGap_eq_update (gap : Word) (s : State) : ∃ resume underrun : Bool,
    (resume = true ↔ s.pkt.first = true ∨ 50000 < gap.toNat)
      ∧ (underrun = true ↔ resume = false ∧ 2000 ≤ gap.toNat)
      ∧ packetGap gap s = { s with
          cnt := { s.cnt with usbUnderrun := if underrun = true then s.cnt.usbUnderrun + 1#32 else s.cnt.usbUnderrun }
          spdif := if resume = true then prefill s.regs.chstat 2 s.spdif else s.spdif
          pkt := { s.pkt with first := false } } := by
  obtain ⟨hresume, heq⟩ | ⟨hfirst, hle, hge, heq⟩ | ⟨hfirst, hlt, heq⟩ := packetGap_cases gap s
  · exact ⟨true, false, by simp [hresume], by simp, heq⟩
  · exact ⟨false, true, by simp [hfirst, hle], by simp [hge],
      heq.trans (clearFirst_of_first_false (raise .usbUnderrun s) hfirst).symm⟩
  · have hresume : ¬ (s.pkt.first = true ∨ 50000 < gap.toNat) := not_or.mpr ⟨by simp [hfirst], by omega⟩
    exact ⟨false, false, by simp [hresume], by simp [hlt], heq.trans (clearFirst_of_first_false s hfirst).symm⟩

/-- Settles O22: the gap is one update by its two flags, and the count before it and the latches after it write each their own
fields. -/
theorem packetStartStep : Obligations.PacketStartStep := by
  intro s n gap fs hmin hmax
  have hcount := (packetCountOk_iff n).mpr ⟨hmin, hmax⟩
  obtain ⟨resume, underrun, hresume, hunderrun, hgap⟩ := packetGap_eq_update gap (countPacket s)
  have hexec := exec_packet_of_countOk hcount gap fs s
  rw [hgap] at hexec
  exact ⟨_, resume, underrun, hexec, fun w rest hop himm hlen => decode_packet hop himm hlen gap rest,
    hresume, hunderrun, rfl, rfl, rfl, rfl, rfl⟩

/-- Settles O23: the command decodes whole, its 2 + N words leave the port, and the count is refused with no response. -/
theorem packetOutOfRangeIsRefused : Obligations.PacketOutOfRangeIsRefused := by
  intro s w n gap fs rest hop himm hrange hlen hidle hport
  have hcount : ¬ packetCountOk n = true := by
    rw [packetCountOk_iff]
    omega
  have hdecode : decode s.port = .command (.packet n gap fs) rest := by
    rw [hport]
    exact decode_packet hop himm hlen gap rest
  constructor
  · simp only [List.length_cons, hlen]
    omega
  · rw [agentStep_cmd_of_idle hidle, cmdIdle_of_command hdecode, exec_packet_of_not_countOk hcount]
    rfl

/-! The packet end step. -/

/-- A packet in progress needs no word of the port: PKT_END is always enabled (41_ingest.md R207). -/
theorem agentStep_cmd_of_pktEnd {s : State} (h : s.cmdSeq = .pktEnd) : agentStep .cmd s = .next (endStep s) := by
  simp [agentStep, enabled, cmdStep, h]

/-- The end step as one update: a dropped frame counts once, whatever the number of drops (R203). -/
theorem endStep_eq_update (s : State) :
    endStep s = { s with
      peaks := s.pkt.pacc
      cnt := { s.cnt with
        spdifOverrun := if s.pkt.dropped = true then s.cnt.spdifOverrun + 1#32 else s.cnt.spdifOverrun }
      cmdSeq := .idle } := by
  cases hdropped : s.pkt.dropped <;> simp [endStep, publishPeaks, hdropped, raise, bump]

/-- Settles O25: CMD's turn in PKT_END is the end step, an update of the peaks, SPDIF_OVERRUN and CMD.seq. -/
theorem packetEndStepPublishesThePeaks : Obligations.PacketEndStepPublishesThePeaks := by
  intro s hend
  have hstep := agentStep_cmd_of_pktEnd hend
  rw [endStep_eq_update] at hstep
  exact ⟨_, hstep, rfl, rfl, rfl, rfl⟩

end Sys2Proof.Machine
end

section
/-! PROOFS. Stages of the signal path: the cascade of one channel, loudness, the split, and the gains and mutes
(42_dsp_pipeline.md R224 to R227, R232, R234 and R235). -/

namespace Sys2Proof.Machine

/-! One biquad and the cascade of a channel (R225 to R227). -/

theorem bqOut_of_bypass {q : Filter} (h : q.bypass = true) (st : BqState) (x : Word) : bqOut q st x = x := by
  simp [bqOut, h]

theorem bqState_of_bypass {q : Filter} (h : q.bypass = true) (st : BqState) (x : Word) : bqState q st x = st := by
  simp [bqState, h]

/-- A slot after its band has run on a sample: the same filter, the stepped states. -/
def BqSlot.stepped (slot : BqSlot) (x : Word) : BqSlot := ⟨slot.filter, bqState slot.filter slot.st x⟩

theorem BqSlot.stepped_of_bypass {slot : BqSlot} (h : slot.filter.bypass = true) (x : Word) : slot.stepped x = slot := by
  simp [BqSlot.stepped, bqState_of_bypass h]

/-- The sample that reaches band `b` of a cascade over the bank `m`. -/
def bandInput (ch : Channel) (m : Mem BqSlot) (x : Word) : Nat → Word
  | 0 => x
  | b + 1 => bqOut (readBq m ch b).filter (readBq m ch b).st (bandInput ch m x b)

theorem bqIndex_inj {ch : Channel} {b c : Nat} : bqIndex ch b = bqIndex ch c ↔ b = c := by
  simp [bqIndex]

/-- One band of the cascade, bypassed or not: the sample goes through the band, and its slot alone is stepped. -/
theorem runBands_succ (ch : Channel) (n b : Nat) (m : Mem BqSlot) (x : Word) : ∃ m' : Mem BqSlot,
    runBands ch (n + 1) b m x = runBands ch n (b + 1) m' (bqOut (readBq m ch b).filter (readBq m ch b).st x)
      ∧ ∀ c, readBq m' ch c = if c = b then (readBq m ch b).stepped x else readBq m ch c := by
  cases h : (readBq m ch b).filter.bypass with
  | false =>
    refine ⟨_, runBands_active h, fun c => ?_⟩
    simp only [readBq, read_writeBq, bqIndex_inj, BqSlot.stepped]
  | true =>
    refine ⟨m, by rw [runBands_bypassed h, bqOut_of_bypass h], fun c => ?_⟩
    rw [BqSlot.stepped_of_bypass h]
    split
    · next hc => rw [hc]
    · rfl

/-- The cascade from band `b` on, over a bank that still has the slots of `m₀` there: each band takes its input over `m₀`. -/
theorem runBands_bandInput {ch : Channel} {m₀ : Mem BqSlot} {x : Word} (n b : Nat) (m : Mem BqSlot)
    (hm : ∀ c, b ≤ c → readBq m ch c = readBq m₀ ch c) :
    (runBands ch n b m (bandInput ch m₀ x b)).2 = bandInput ch m₀ x (b + n)
      ∧ ∀ c, b ≤ c → c < b + n →
        readBq (runBands ch n b m (bandInput ch m₀ x b)).1 ch c = (readBq m₀ ch c).stepped (bandInput ch m₀ x c) := by
  induction n generalizing b m with
  | zero => exact ⟨rfl, fun c hle hlt => by omega⟩
  | succ n ih =>
    obtain ⟨m', hrun, hslots⟩ := runBands_succ ch n b m (bandInput ch m₀ x b)
    rw [hm b le_rfl] at hrun hslots
    have htail : ∀ c, b + 1 ≤ c → readBq m' ch c = readBq m₀ ch c := fun c hc => by
      rw [hslots, if_neg (by omega), hm c (by omega)]
    obtain ⟨hout, hlater⟩ := ih (b + 1) m' htail
    rw [hrun]
    refine ⟨hout.trans (congrArg _ (by omega)), fun c hle hlt => ?_⟩
    rcases hle.eq_or_lt with rfl | hgt
    · have hkept : readBq (runBands ch n (b + 1) m' (bandInput ch m₀ x (b + 1))).1 ch b = readBq m' ch b :=
        runBands_other fun c hc _ => bqIndex_inj.not.mpr (by omega)
      exact hkept.trans (by rw [hslots, if_pos rfl])
    · exact hlater c hgt (by omega)

theorem chain_of_bypassed {ch : Channel} {s : State} (h : channelBypassed s.regs ch = true) (x : Word) :
    chain ch s x = (s.bq, x) := by
  simp [chain, h]

theorem chain_of_not_bypassed {ch : Channel} {s : State} (h : channelBypassed s.regs ch = false) (x : Word) :
    chain ch s x = runBands ch (s.par.bands ch) 0 s.bq x := by
  simp [chain, h]

/-- Settles O31: the values are the inputs of the bands over the bank the cascade started with, because a band writes its own
slot only. -/
theorem chainRunsTheBandsInOrder : Obligations.ChainRunsTheBandsInOrder := by
  intro ch s x _
  refine ⟨fun h => chain_of_bypassed h x, fun h => ⟨bandInput ch s.bq x, rfl, ?_⟩⟩
  rw [chain_of_not_bypassed h]
  obtain ⟨hout, hslots⟩ := runBands_bandInput (x := x) (s.par.bands ch) 0 s.bq fun c _ => rfl
  rw [Nat.zero_add] at hout hslots
  exact ⟨hout, fun b hb => ⟨rfl, hslots b (Nat.zero_le b) hb⟩,
    fun a ha => runBands_other fun c _ hc => ha c (by omega)⟩

/-! Loudness (R224). -/

theorem stageLoudness_of_enabled {f : Flight} (h : loudEnabled f.st.regs = true) : stageLoudness f = loudness f := by
  simp [stageLoudness, h]

theorem stageLoudness_of_disabled {f : Flight} (h : loudEnabled f.st.regs = false) : stageLoudness f = f := by
  simp [stageLoudness, h]

/-- Loudness writes its own four states and no other. -/
theorem stageLoudness_st (f : Flight) : (stageLoudness f).st = { f.st with lstate := (stageLoudness f).st.lstate } := by
  cases h : loudEnabled f.st.regs with
  | false => rw [stageLoudness_of_disabled h]
  | true => rw [stageLoudness_of_enabled h, loudness]

theorem loudness_of_bypass {f : Flight}
    (hlow : (readLoud f.st.loud f.st.pkt.act f.st.pkt.vi.toNat 0).bypass = true)
    (hhigh : (readLoud f.st.loud f.st.pkt.act f.st.pkt.vi.toNat 1).bypass = true) : loudness f = f := by
  simp [loudness, bqOut_of_bypass, bqState_of_bypass, hlow, hhigh]

/-- Settles O32: by the enable flag; enabled, the stage is LOUDNESS, whose shelves are those of the latched table and row. -/
theorem loudnessRunsTheLatchedShelves : Obligations.LoudnessRunsTheLatchedShelves := by
  intro f
  refine ⟨stageLoudness_of_disabled, fun h => ?_⟩
  have hstage : loudness f = stageLoudness f := (stageLoudness_of_enabled h).symm
  exact ⟨loudness f, _, _, hstage, rfl, rfl, rfl, rfl, rfl, rfl, rfl, rfl, rfl, rfl, loudness_of_bypass⟩

/-! The split, the gains and mutes and the master volume (R232, R234, R235). -/

/-- Half the sum of two 32-bit samples needs no 33rd bit. -/
theorem splitSub_toInt (l r : Word) : (splitSub l r).toInt = (l.toInt + r.toInt) / 2 := by
  have hl := l.le_toInt
  have hl' := l.toInt_lt
  have hr := r.le_toInt
  have hr' := r.toInt_lt
  have hhalf : asr (l.toInt + r.toInt) 1 = (l.toInt + r.toInt) / 2 := rfl
  have hwrap : splitSub l r = wrap 32 ((l.toInt + r.toInt) / 2) := by rw [splitSub, hhalf, wrap]
  rw [hwrap, wrap32_toInt] <;> omega

/-- Settles O34: the halved sum fits 32 bits, and the two gain stages are MUTE or MULQ output by output. -/
theorem splitGainAndMuteStages : Obligations.SplitGainAndMuteStages := fun f =>
  ⟨splitSub_toInt f.l f.r, rfl, rfl, rfl, rfl, rfl, rfl, rfl, rfl, rfl, rfl, rfl⟩

end Sys2Proof.Machine
end

section
/-! PROOFS. The order of the stages of a frame, each from the state the frame started with (42_dsp_pipeline.md section 1). -/

namespace Sys2Proof.Machine

/-! The peak meters (R238). -/

theorem maxPeak_toNat (a b : BitVec 16) : (maxPeak a b).toNat = max a.toNat b.toNat := by
  unfold maxPeak
  split
  · next h => exact (max_eq_right (BitVec.le_def.mp h)).symm
  · next h => exact (max_eq_left (Nat.le_of_not_le h)).symm

theorem peakOf_toNat (x : Word) : (peakOf x).toNat = min 32767 (x.toInt.natAbs / 2 ^ 14) := by
  rw [peakOf, BitVec.toNat_ofNat, Nat.mod_eq_of_lt (by omega), Config.inShift]

/-! The chains of a stage, each over the slots of its own channel (R228, R233). -/

/-- Two banks hold the same slots of a channel. -/
def sameSlots (ch : Channel) (m m' : Mem BqSlot) : Prop := ∀ b, b < 10 → readBq m ch b = readBq m' ch b

theorem sameSlots.trans {ch : Channel} {m₁ m₂ m₃ : Mem BqSlot} (h : sameSlots ch m₁ m₂) (h' : sameSlots ch m₂ m₃) :
    sameSlots ch m₁ m₃ := fun b hb => (h b hb).trans (h' b hb)

theorem sameSlots_chain_other {ch ch' : Channel} {s : State} (ho : s.par.ok = true) (hne : ch' ≠ ch) (x : Word) :
    sameSlots ch' (chain ch s x).1 s.bq := fun _ hb => chain_other ho hne hb

/-- The master EQ leaves the slots of the output channels. -/
theorem sameSlots_stageMasterEq_other {f : Flight} {ch : Channel} (ho : f.st.par.ok = true) (hl : ch ≠ .masterL)
    (hr : ch ≠ .masterR) : sameSlots ch (stageMasterEq f).st.bq f.st.bq :=
  (sameSlots_chain_other (s := (chainL .masterL f).st) ho hr f.r).trans (sameSlots_chain_other ho hl f.l)

/-- The output EQ leaves the slots of the master channels. -/
theorem sameSlots_stageOutputEq_other {f : Flight} {ch : Channel} (ho : f.st.par.ok = true) (hl : ch ≠ .outL)
    (hr : ch ≠ .outR) (hsub : ch ≠ .sub) : sameSlots ch (stageOutputEq f).st.bq f.st.bq :=
  ((sameSlots_chain_other (s := (chainR .outR (chainL .outL f)).st) ho hsub f.sub).trans
    (sameSlots_chain_other (s := (chainL .outL f).st) ho hr f.r)).trans (sameSlots_chain_other ho hl f.l)

section
variable {f : Flight} {s : State} (hregs : f.st.regs = s.regs) (hpar : f.st.par = s.par) (ho : s.par.ok = true)
include hregs hpar ho

/-- The master EQ runs each of its chains as from the state `s`, whose registers and slots the flight still has. -/
theorem stageMasterEq_congr (hbq : f.st.bq = s.bq) :
    (stageMasterEq f).l = (chain .masterL s f.l).2 ∧ (stageMasterEq f).r = (chain .masterR s f.r).2
      ∧ sameSlots .masterL (stageMasterEq f).st.bq (chain .masterL s f.l).1
      ∧ sameSlots .masterR (stageMasterEq f).st.bq (chain .masterR s f.r).1 := by
  have hof : f.st.par.ok = true := hpar ▸ ho
  have hslots : ∀ ch, sameSlots ch f.st.bq s.bq := fun ch b _ => by rw [hbq]
  obtain ⟨hl, hbankL⟩ := chain_congr (ch := .masterL) (x := f.l) hregs hpar ho (hslots _)
  obtain ⟨hr, hbankR⟩ := chain_congr (ch := .masterR) (t := (chainL .masterL f).st) (x := f.r) hregs hpar ho
    ((sameSlots_chain_other hof (by decide) f.l).trans (hslots _))
  exact ⟨hl, hr, (sameSlots_chain_other (s := (chainL .masterL f).st) hof (by decide) f.r).trans hbankL, hbankR⟩

/-- The output EQ runs each of its chains as from the state `s`, whose registers and output slots the flight still has. -/
theorem stageOutputEq_congr (hslots : ∀ ch, ch ≠ .masterL → ch ≠ .masterR → sameSlots ch f.st.bq s.bq) :
    (stageOutputEq f).l = (chain .outL s f.l).2 ∧ (stageOutputEq f).r = (chain .outR s f.r).2
      ∧ (stageOutputEq f).sub = (chain .sub s f.sub).2
      ∧ sameSlots .outL (stageOutputEq f).st.bq (chain .outL s f.l).1
      ∧ sameSlots .outR (stageOutputEq f).st.bq (chain .outR s f.r).1
      ∧ sameSlots .sub (stageOutputEq f).st.bq (chain .sub s f.sub).1 := by
  have hof : f.st.par.ok = true := hpar ▸ ho
  have hafterL : ∀ ch, ch ≠ .outL → sameSlots ch (chainL .outL f).st.bq f.st.bq := fun ch hne =>
    sameSlots_chain_other hof hne f.l
  have hafterR : ∀ ch, ch ≠ .outR → sameSlots ch (chainR .outR (chainL .outL f)).st.bq (chainL .outL f).st.bq :=
    fun ch hne => sameSlots_chain_other (s := (chainL .outL f).st) hof hne f.r
  have hafterSub : ∀ ch, ch ≠ .sub →
      sameSlots ch (stageOutputEq f).st.bq (chainR .outR (chainL .outL f)).st.bq :=
    fun ch hne => sameSlots_chain_other (s := (chainR .outR (chainL .outL f)).st) hof hne f.sub
  obtain ⟨hl, hbankL⟩ := chain_congr (ch := .outL) (x := f.l) hregs hpar ho (hslots _ (by decide) (by decide))
  obtain ⟨hr, hbankR⟩ := chain_congr (ch := .outR) (t := (chainL .outL f).st) (x := f.r) hregs hpar ho
    ((hafterL _ (by decide)).trans (hslots _ (by decide) (by decide)))
  obtain ⟨hsub, hbankSub⟩ := chain_congr (ch := .sub) (t := (chainR .outR (chainL .outL f)).st) (x := f.sub) hregs hpar ho
    (((hafterR _ (by decide)).trans (hafterL _ (by decide))).trans (hslots _ (by decide) (by decide)))
  exact ⟨hl, hr, hsub, ((hafterSub _ (by decide)).trans (hafterR _ (by decide))).trans hbankL,
    (hafterSub _ (by decide)).trans hbankR, hbankSub⟩

end

/-- The gains, mutes and volume read the registers and the three samples only. -/
theorem gainStages_congr {f : Flight} {s : State} (hregs : f.st.regs = s.regs) {g : Flight}
    (hg : g = stageMasterVolume (stageGainMute ⟨f.l, f.r, f.sub, s⟩)) :
    (stageMasterVolume (stageGainMute f)).l = g.l ∧ (stageMasterVolume (stageGainMute f)).r = g.r
      ∧ (stageMasterVolume (stageGainMute f)).sub = g.sub := by
  simp [hg, stageMasterVolume, stageGainMute, hregs]

/-! The flight of a frame at the points between its stages (R220). -/

/-- The flight after step 3. -/
def afterLoudness (w : Word) (s : State) : Flight := stageLoudness (stagePreamp (stageNorm w s))

/-- The flight after step 4. -/
def afterMasterEq (w : Word) (s : State) : Flight := stageMasterEq (afterLoudness w s)

/-- The flight after step 5. -/
def afterCrossfeed (w : Word) (s : State) : Flight := stageCrossfeed (stageMeterMaster (afterMasterEq w s))

/-- The flight after step 7. -/
def afterOutputEq (w : Word) (s : State) : Flight := stageOutputEq (stageSplit (afterCrossfeed w s))

theorem beforeDelay_eq (w : Word) (s : State) :
    beforeDelay w s = stageMasterVolume (stageGainMute (afterOutputEq w s)) := rfl

theorem afterLoudness_st (w : Word) (s : State) :
    (afterLoudness w s).st = { s with lstate := (afterLoudness w s).st.lstate } :=
  stageLoudness_st (stagePreamp (stageNorm w s))

/-- After the master EQ only the loudness states and the bank differ from the start of the frame. -/
theorem afterMasterEq_st (w : Word) (s : State) :
    (afterMasterEq w s).st
      = { s with lstate := (afterLoudness w s).st.lstate, bq := (afterMasterEq w s).st.bq } := by
  have h : (afterMasterEq w s).st = { (afterLoudness w s).st with bq := (afterMasterEq w s).st.bq } := rfl
  rw [afterLoudness_st] at h
  exact h

/-- After the master meters the two master accumulators differ too. -/
theorem meterMaster_st (w : Word) (s : State) :
    (stageMeterMaster (afterMasterEq w s)).st
      = { s with
          lstate := (afterLoudness w s).st.lstate
          bq := (afterMasterEq w s).st.bq
          pkt := { s.pkt with
            pacc := peakUpdate .masterR (afterMasterEq w s).r (peakUpdate .masterL (afterMasterEq w s).l s.pkt.pacc) } } := by
  have h : (stageMeterMaster (afterMasterEq w s)).st
      = meter .masterR (afterMasterEq w s).r (meter .masterL (afterMasterEq w s).l (afterMasterEq w s).st) := rfl
  rw [afterMasterEq_st] at h
  exact h

/-- Crossfeed as from the state `s` on the samples after the master EQ. -/
def crossfed (w : Word) (s : State) : Flight :=
  stageCrossfeed ⟨(afterMasterEq w s).l, (afterMasterEq w s).r, 0#32, s⟩

/-- Crossfeed meets the registers and its own states as they were at the start of the frame. -/
theorem afterCrossfeed_eq_crossfed (w : Word) (s : State) :
    (afterCrossfeed w s).l = (crossfed w s).l ∧ (afterCrossfeed w s).r = (crossfed w s).r
      ∧ (afterCrossfeed w s).st = { (stageMeterMaster (afterMasterEq w s)).st with xf := (crossfed w s).st.xf } :=
  stageCrossfeed_congr (f := stageMeterMaster (afterMasterEq w s)) (by rw [meterMaster_st]) (by rw [meterMaster_st]) 0#32

/-- After crossfeed its own states differ too. -/
theorem afterCrossfeed_st (w : Word) (s : State) :
    (afterCrossfeed w s).st
      = { s with
          lstate := (afterLoudness w s).st.lstate
          bq := (afterMasterEq w s).st.bq
          xf := (crossfed w s).st.xf
          pkt := { s.pkt with
            pacc := peakUpdate .masterR (afterMasterEq w s).r (peakUpdate .masterL (afterMasterEq w s).l s.pkt.pacc) } } := by
  obtain ⟨_, _, hst⟩ := afterCrossfeed_eq_crossfed w s
  rw [hst, meterMaster_st]

/-- After the output EQ the bank alone has changed again. -/
theorem afterOutputEq_st (w : Word) (s : State) :
    (afterOutputEq w s).st = { (afterCrossfeed w s).st with bq := (afterOutputEq w s).st.bq } := rfl

/-! The samples and the slots after the two EQ stages. -/

/-- The samples and the slots after the master EQ are those of its two chains from the start of the frame. -/
theorem afterMasterEq_chains (w : Word) {s : State} (ho : s.par.ok = true) :
    (afterMasterEq w s).l = (chain .masterL s (afterLoudness w s).l).2
      ∧ (afterMasterEq w s).r = (chain .masterR s (afterLoudness w s).r).2
      ∧ sameSlots .masterL (afterMasterEq w s).st.bq (chain .masterL s (afterLoudness w s).l).1
      ∧ sameSlots .masterR (afterMasterEq w s).st.bq (chain .masterR s (afterLoudness w s).r).1 :=
  stageMasterEq_congr (by rw [afterLoudness_st]) (by rw [afterLoudness_st]) ho (by rw [afterLoudness_st])

/-- After crossfeed the output channels still have the slots of the start of the frame. -/
theorem sameSlots_afterCrossfeed (w : Word) {s : State} (ho : s.par.ok = true) {ch : Channel} (hl : ch ≠ .masterL)
    (hr : ch ≠ .masterR) : sameSlots ch (afterCrossfeed w s).st.bq s.bq := by
  have hmaster : sameSlots ch (afterMasterEq w s).st.bq (afterLoudness w s).st.bq :=
    sameSlots_stageMasterEq_other (by rw [afterLoudness_st]; exact ho) hl hr
  rw [afterLoudness_st] at hmaster
  rw [afterCrossfeed_st]
  exact hmaster

/-- The samples and the slots after the output EQ are those of its three chains from the start of the frame, on the samples
after crossfeed and the split. -/
theorem afterOutputEq_chains (w : Word) {s : State} (ho : s.par.ok = true) :
    (afterOutputEq w s).l = (chain .outL s (crossfed w s).l).2
      ∧ (afterOutputEq w s).r = (chain .outR s (crossfed w s).r).2
      ∧ (afterOutputEq w s).sub = (chain .sub s (stageSplit (crossfed w s)).sub).2
      ∧ sameSlots .outL (afterOutputEq w s).st.bq (chain .outL s (crossfed w s).l).1
      ∧ sameSlots .outR (afterOutputEq w s).st.bq (chain .outR s (crossfed w s).r).1
      ∧ sameSlots .sub (afterOutputEq w s).st.bq (chain .sub s (stageSplit (crossfed w s)).sub).1 := by
  obtain ⟨hl, hr, _⟩ := afterCrossfeed_eq_crossfed w s
  have hsub : (stageSplit (crossfed w s)).sub = splitSub (crossfed w s).l (crossfed w s).r := rfl
  have hregs : (afterCrossfeed w s).st.regs = s.regs := by rw [afterCrossfeed_st]
  have hpar : (afterCrossfeed w s).st.par = s.par := by rw [afterCrossfeed_st]
  have hslots : ∀ ch, ch ≠ .masterL → ch ≠ .masterR → sameSlots ch (afterCrossfeed w s).st.bq s.bq := by
    intro ch hneL hneR
    have hmaster := sameSlots_stageMasterEq_other (f := afterLoudness w s) (by rw [afterLoudness_st]; exact ho) hneL hneR
    rw [afterLoudness_st] at hmaster
    rw [afterCrossfeed_st]
    exact hmaster
  rw [hsub, ← hl, ← hr]
  exact stageOutputEq_congr (f := stageSplit (afterCrossfeed w s)) hregs hpar ho hslots

/-- The output EQ keeps the slots the master EQ left to its own channels. -/
theorem sameSlots_afterOutputEq_master (w : Word) {s : State} (ho : s.par.ok = true) {ch : Channel} (hl : ch ≠ .outL)
    (hr : ch ≠ .outR) (hsub : ch ≠ .sub) : sameSlots ch (afterOutputEq w s).st.bq (afterMasterEq w s).st.bq := by
  have hpar : (afterCrossfeed w s).st.par.ok = true := by rw [afterCrossfeed_st]; exact ho
  have hbq : (afterCrossfeed w s).st.bq = (afterMasterEq w s).st.bq := by rw [afterCrossfeed_st]
  rw [← hbq]
  exact sameSlots_stageOutputEq_other (f := stageSplit (afterCrossfeed w s)) hpar hl hr hsub

/-! The state a frame leaves, field by field. -/

@[simp] theorem spdifAppend_pacc (s : State) (l r : BitVec 16) : (spdifAppend l r s).pkt.pacc = s.pkt.pacc := by
  unfold spdifAppend
  split <;> rfl

/-- The handoffs and the delay lines touch no biquad, loudness or crossfeed state. -/
theorem frame_filterStates (w : Word) (s : State) :
    (frame w s).bq = (afterOutputEq w s).st.bq ∧ (frame w s).lstate = (afterLoudness w s).st.lstate
      ∧ (frame w s).xf = (crossfed w s).st.xf := by
  simp only [frame_eq, queuePush_bq, queuePush_lstate, queuePush_xf, spdifAppend_bq, spdifAppend_lstate, spdifAppend_xf]
  have hlstate : (signalPath w s).st.lstate = (afterOutputEq w s).st.lstate := rfl
  have hxf : (signalPath w s).st.xf = (afterOutputEq w s).st.xf := rfl
  rw [hlstate, hxf, afterOutputEq_st, afterCrossfeed_st]
  exact ⟨rfl, rfl, rfl⟩

theorem frame_delay (w : Word) (s : State) : (frame w s).delay = (signalPath w s).st.delay := by
  simp only [frame_eq, queuePush_delay, spdifAppend_delay]

/-- The delay lines hold the frame's samples at the old write index. -/
theorem frame_lines (w : Word) (s : State) :
    readLine (frame w s).delay.lineL s.delay.dw = (beforeDelay w s).l
      ∧ readLine (frame w s).delay.lineR s.delay.dw = (beforeDelay w s).r
      ∧ readLine (frame w s).delay.lineSub s.delay.dw = (beforeDelay w s).sub := by
  simp only [frame_delay, signalPath_delay, readLine_writeLine, if_true, and_self]

/-- The output meters take the samples that leave the delay lines. -/
theorem stageMeterOut_pacc (f : Flight) :
    (stageMeterOut f).st.pkt.pacc
      = peakUpdate .sub (stageMeterOut f).sub (peakUpdate .outR (stageMeterOut f).r
          (peakUpdate .outL (stageMeterOut f).l f.st.pkt.pacc)) := rfl

/-- The peaks after a frame: each accumulator meets its one sample. -/
theorem frame_pacc (w : Word) (s : State) :
    (frame w s).pkt.pacc
      = { masterL := maxPeak s.pkt.pacc.masterL (peakOf (afterMasterEq w s).l)
          masterR := maxPeak s.pkt.pacc.masterR (peakOf (afterMasterEq w s).r)
          outL := maxPeak s.pkt.pacc.outL (peakOf (signalPath w s).l)
          outR := maxPeak s.pkt.pacc.outR (peakOf (signalPath w s).r)
          sub := maxPeak s.pkt.pacc.sub (peakOf (signalPath w s).sub) } := by
  have hbefore : (stageDelay (beforeDelay w s)).st.pkt.pacc = (afterCrossfeed w s).st.pkt.pacc := rfl
  rw [frame_eq, queuePush_pkt, spdifAppend_pacc, signalPath_eq, stageMeterOut_pacc, hbefore, afterCrossfeed_st]
  rfl

/-- The Sub delay is the register plus the alignment offset, at most 8191 (R236). -/
theorem subDelay_toNat (s : State) : (subDelay s).toNat = min 8191 (s.regs.delaySub.toNat + s.par.subAlign) := by
  rw [subDelay, BitVec.toNat_ofNat, Nat.mod_eq_of_lt (by omega)]

/-- Settles O37: stage by stage, each reads only what the frame started with: the registers are never written, each chain's
slots by that chain alone, and crossfeed's states and the delay lines by their own stage. -/
theorem frameRunsTheStagesInOrder : Obligations.FrameRunsTheStagesInOrder := by
  intro s w ho
  obtain ⟨hmL, hmR, hbankML, hbankMR⟩ := afterMasterEq_chains w ho
  obtain ⟨hol, hor, hosub, hbankOL, hbankOR, hbankSub⟩ := afterOutputEq_chains w ho
  have hregs : (afterOutputEq w s).st.regs = s.regs := by rw [afterOutputEq_st, afterCrossfeed_st]
  obtain ⟨hgl, hgr, hgsub⟩ := gainStages_congr hregs rfl
  rw [← beforeDelay_eq, hol, hor, hosub] at hgl hgr hgsub
  obtain ⟨hlineL, hlineR, hlineSub⟩ := frame_lines w s
  obtain ⟨hbq, hlstate, hxf⟩ := frame_filterStates w s
  refine ⟨afterLoudness w s, crossfed w s, _, signalPath w s, _, _, frame w s, rfl, rfl, rfl, rfl, rfl,
    by rw [crossfed, hmL, hmR], rfl, ?_, ?_, ?_, subDelay_toNat s, hlineL.trans hgl, hlineR.trans hgr,
    hlineSub.trans hgsub, ?_, ?_, ?_, ?_, ?_, hlstate, hxf, fun b hb => ?_⟩
  · rw [signalPath_l, lineOut_eq, hgl]
  · rw [signalPath_r, lineOut_eq, hgr]
  · rw [signalPath_sub, lineOut_eq, hgsub]
  · rw [frame_pacc, maxPeak_toNat, peakOf_toNat, hmL]
  · rw [frame_pacc, maxPeak_toNat, peakOf_toNat, hmR]
  · rw [frame_pacc, maxPeak_toNat, peakOf_toNat]
  · rw [frame_pacc, maxPeak_toNat, peakOf_toNat]
  · rw [frame_pacc, maxPeak_toNat, peakOf_toNat]
  · have hmasterL := sameSlots_afterOutputEq_master w ho (ch := .masterL) (by decide) (by decide) (by decide)
    have hmasterR := sameSlots_afterOutputEq_master w ho (ch := .masterR) (by decide) (by decide) (by decide)
    rw [hbq]
    exact ⟨(hmasterL.trans hbankML) b hb, (hmasterR.trans hbankMR) b hb, hbankOL b hb, hbankOR b hb, hbankSub b hb⟩

end Sys2Proof.Machine
end

section
/-! PROOFS. Biphase-mark coding of a subframe's slots (43_spdif.md R273). -/

namespace Sys2Proof.Machine

/-! The cells of a list of bits. -/

theorem bmc_cons (lvl b : Bool) (bs : List Bool) :
    bmc lvl (b :: bs) = (!lvl) :: xor (!lvl) b :: bmc (xor (!lvl) b) bs := rfl

theorem bmc_length (lvl : Bool) (bs : List Bool) : (bmc lvl bs).length = 2 * bs.length := by
  induction bs generalizing lvl with
  | nil => rfl
  | cons b bs ih => simp only [bmc_cons, List.length_cons, ih, Nat.mul_succ]

/-- A transition stands at every boundary: the first cell of a bit differs from the cell before it, which for the first bit is
the level the coding starts from. -/
theorem bmc_first_cell_ne (lvl : Bool) (bs : List Bool) (i : Nat) (hi : i < bs.length) :
    (bmc lvl bs).getD (2 * i) false ≠ (lvl :: bmc lvl bs).getD (2 * i) false := by
  induction bs generalizing lvl i with
  | nil => simp at hi
  | cons b bs ih =>
    cases i with
    | zero => simp [bmc_cons]
    | succ i =>
      have htail := ih (xor (!lvl) b) i (by simpa using hi)
      simpa only [bmc_cons, Nat.mul_succ, List.getD_cons_succ] using htail

/-- The two cells of a bit differ exactly for a 1. -/
theorem bmc_cells_xor (lvl : Bool) (bs : List Bool) (i : Nat) (hi : i < bs.length) :
    xor ((bmc lvl bs).getD (2 * i) false) ((bmc lvl bs).getD (2 * i + 1) false) = bs.getD i false := by
  induction bs generalizing lvl i with
  | nil => simp at hi
  | cons b bs ih =>
    cases i with
    | zero => simp [bmc_cons]
    | succ i =>
      have htail := ih (xor (!lvl) b) i (by simpa using hi)
      simpa only [bmc_cons, Nat.mul_succ, List.getD_cons_succ] using htail

/-! The cells of a subframe. -/

@[simp] theorem subframeSlots_length (s : BitVec 16) (c : Bool) : (subframeSlots s c).length = 28 := rfl

theorem encSubframe_length (s : BitVec 16) (pre : Preamble) (c : Bool) : (encSubframe s pre c).length = 64 := by
  have hpre : (preambleCells pre).length = 8 := by cases pre <;> rfl
  rw [encSubframe, List.length_append, hpre, bmc_length, subframeSlots_length]

/-- The coded slots start at cell 8. -/
theorem encSubframe_getD_slots (s : BitVec 16) (pre : Preamble) (c : Bool) (j : Nat) :
    (encSubframe s pre c).getD (8 + j) false = (bmc false (subframeSlots s c)).getD j false := by
  rw [Nat.add_comm]
  cases pre <;> rfl

/-- Every preamble ends with a cell of 0, so from cell 7 on a subframe is that level and the cells coded after it (R274). -/
theorem encSubframe_getD_level (s : BitVec 16) (pre : Preamble) (c : Bool) (j : Nat) :
    (encSubframe s pre c).getD (7 + j) false = (false :: bmc false (subframeSlots s c)).getD j false := by
  rw [Nat.add_comm]
  cases pre <;> rfl

/-- A subframe's cells carry its slots. -/
theorem slotValue_encSubframe (s : BitVec 16) (pre : Preamble) (c : Bool) {i : Nat} (hi : i < 28) :
    slotValue (encSubframe s pre c) i = (subframeSlots s c).getD i false := by
  have hcell : 9 + 2 * i = 8 + (2 * i + 1) := by omega
  rw [slotValue, hcell, encSubframe_getD_slots, encSubframe_getD_slots]
  exact bmc_cells_xor false (subframeSlots s c) i hi

/-- Settles O40: the laws of the cells of a list of bits, at the slots that follow a preamble. -/
theorem biphaseMarkCarriesTheSlots : Obligations.BiphaseMarkCarriesTheSlots := by
  intro s pre c i hi
  refine ⟨encSubframe_length s pre c, ?_, slotValue_encSubframe s pre c hi, by decide, by decide⟩
  rw [encSubframe_getD_slots, encSubframe_getD_level]
  exact bmc_first_cell_ne false (subframeSlots s c) i hi

end Sys2Proof.Machine
end

section
/-! PROOFS. The S/PDIF pool's producer side: the prefill and the appended frame (43_spdif.md R280 to R282). -/

namespace Sys2Proof.Machine

/-! The prefill. -/

theorem prefillOne_of_free_nil {d : Spdif} (h : d.free = []) (chstat : Word) : prefillOne chstat d = d := by
  simp [prefillOne, h]

/-- With a buffer free, `prefillOne_cases` leaves its second case. -/
theorem prefillOne_of_free_cons {d : Spdif} {id : Fin 8} {rest : List (Fin 8)} (h : d.free = id :: rest) (chstat : Word) :
    ∃ pool : Mem Word,
      (∀ id' p, readPool pool id' p = if id' = id then zeroBlockWord chstat p.val else readPool d.pool id' p)
        ∧ prefillOne chstat d = { d with free := rest, pool := pool, ready := d.ready ++ [id] } := by
  obtain ⟨hnil, _⟩ | ⟨id', rest', pool, hcons, hread, _, heq⟩ := prefillOne_cases chstat d
  · simp [hnil] at h
  · obtain ⟨rfl, rfl⟩ := List.cons.inj (hcons.symm.trans h)
    exact ⟨pool, hread, heq⟩

theorem spdifPrefill_two (s : State) :
    spdifPrefill 2 s
      = { s with spdif := prefillOne s.regs.chstat (prefillOne s.regs.chstat s.spdif) } := rfl

/-- Settles O26: by what FREE holds, one prefill of one buffer after the other. -/
theorem prefillMovesSilentBuffers : Obligations.PrefillMovesSilentBuffers := by
  intro s id₁ id₂ rest
  rw [spdifPrefill_two]
  refine ⟨fun hfree => ?_, fun hfree => ?_, fun hfree => ?_⟩
  · rw [prefillOne_of_free_nil hfree, prefillOne_of_free_nil hfree]
  · obtain ⟨pool, hread, heq⟩ := prefillOne_of_free_cons hfree s.regs.chstat
    refine ⟨pool, ?_, hread⟩
    rw [heq, prefillOne_of_free_nil rfl]
  · obtain ⟨pool₁, hread₁, heq₁⟩ := prefillOne_of_free_cons hfree s.regs.chstat
    rw [heq₁]
    obtain ⟨pool₂, hread₂, heq₂⟩ := prefillOne_of_free_cons
      (d := { s.spdif with free := id₂ :: rest, pool := pool₁, ready := s.spdif.ready ++ [id₁] }) rfl s.regs.chstat
    refine ⟨pool₂, by rw [heq₂]; simp, fun id p => ?_⟩
    rw [hread₂, hread₁]
    by_cases hid : id = id₂ <;> simp [hid]

/-! The appended frame. -/

theorem encFrame_getElem? (chstat : Word) (k : Nat) (l r : BitVec 16) {j : Nat} (hj : j < 4) :
    (encFrame chstat k l r)[j]? = some (encFrameWord chstat k l r j) := by
  simp [encFrame, hj]

theorem spdifAppend_of_no_buffer {s : State} (hfill : s.spdif.fill = none) (hfree : s.spdif.free = []) (l r : BitVec 16) :
    spdifAppend l r s = { s with pkt := { s.pkt with dropped := true } } := by
  simp [spdifAppend, appendFrame, hfill, hfree]

/-- The buffer a frame goes to, with the frames it holds and FREE without it: the held fill buffer, else the head of FREE
(R280). -/
def fillTarget (d : Spdif) (id : Fin 8) (k : Fin 192) (free : List (Fin 8)) : Prop :=
  (d.fill = some (id, k) ∧ free = d.free) ∨ (d.fill = none ∧ d.free = id :: free ∧ k = 0)

theorem appendFrame_of_fill {d : Spdif} {f : Fin 8 × Fin 192} (h : d.fill = some f) (chstat : Word) (l r : BitVec 16) :
    appendFrame chstat l r d = some (storeFrame chstat l r f.1 f.2 d) := by
  rw [appendFrame, h]

theorem spdifAppend_of_fillTarget {s : State} {id : Fin 8} {k : Fin 192} {free : List (Fin 8)}
    (h : fillTarget s.spdif id k free) (l r : BitVec 16) :
    spdifAppend l r s = { s with spdif := storeFrame s.regs.chstat l r id k { s.spdif with free := free } } := by
  obtain ⟨hfill, rfl⟩ | ⟨hfill, hfree, rfl⟩ := h
  · rw [spdifAppend, appendFrame_of_fill hfill]
  · simp [spdifAppend, appendFrame, hfill, hfree]

/-- Settles O42: the frame is stored in its target buffer, and `storeFrame_cases` says what that does to the pool, FILL and
READY. -/
theorem appendStoresOneFrame : Obligations.AppendStoresOneFrame := by
  intro s l r
  refine ⟨fun hfill hfree => spdifAppend_of_no_buffer hfill hfree l r, fun id k free htarget => ?_⟩
  obtain ⟨pool, hread, _, hstore⟩ := storeFrame_cases s.regs.chstat l r id k { s.spdif with free := free }
  have hframe : ∀ (j : Nat) (p : Fin 768), j < 4 → p.val = 4 * k.val + j →
      some (readPool pool id p) = (encFrame s.regs.chstat k.val l r)[j]? := by
    intro j p hj hp
    rw [hread, if_pos ⟨rfl, by omega, by omega⟩, encFrame_getElem? _ _ _ _ hj, hp, Nat.add_sub_cancel_left]
  have hother : ∀ (id' : Fin 8) (p : Fin 768), id' ≠ id ∨ p.val < 4 * k.val ∨ 4 * k.val + 4 ≤ p.val →
      readPool pool id' p = readPool s.spdif.pool id' p := by
    intro id' p hout
    rw [hread, if_neg]
    rintro ⟨hid, hlo, hhi⟩
    omega
  refine ⟨pool, _, spdifAppend_of_fillTarget htarget l r, ?_⟩
  obtain ⟨hlt, heq⟩ | ⟨hlast, heq⟩ := hstore <;> rw [heq]
  · refine ⟨rfl, fun h => by omega, fun k' hk' => ?_, hframe, hother⟩
    obtain rfl : k' = ⟨k.val + 1, hlt⟩ := Fin.ext hk'
    exact ⟨rfl, rfl⟩
  · exact ⟨rfl, fun _ => ⟨rfl, rfl⟩, fun k' hk' => by omega, hframe, hother⟩

end Sys2Proof.Machine
end

section
/-! PROOFS. The transmitter's TX_RUN step (43_spdif.md R284 and R285). -/

namespace Sys2Proof.Machine

/-- FREE after the block of a source is done: a pool buffer comes back to it, the silence block is none (R285). -/
def freeAfter (src : TxSrc) (free : List (Fin 8)) : List (Fin 8) :=
  match src with
  | .sil => free
  | .buffer id => free ++ [id]

theorem releaseSource_eq (src : TxSrc) (s : State) :
    releaseSource src s = { s with spdif := { s.spdif with free := freeAfter src s.spdif.free } } := by
  cases src <;> rfl

theorem nextBlock_of_ready_nil {s : State} (h : s.spdif.ready = []) :
    nextBlock s = { raise .spdifUnderrun s with txSeq := .run .sil 0 } := by
  simp [nextBlock, h]

theorem nextBlock_of_ready_cons {s : State} {id : Fin 8} {rest : List (Fin 8)} (h : s.spdif.ready = id :: rest) :
    nextBlock s = { s with spdif := { s.spdif with ready := rest }, txSeq := .run (.buffer id) 0 } := by
  simp [nextBlock, h]

theorem txRun_of_lt {p q : Fin 768} (h : q.val = p.val + 1) (src : TxSrc) (s : State) :
    txRun src p s = { emitSpdif (txWord src p s) s with txSeq := .run src q } := by
  have hlt : p.val + 1 < 768 := h ▸ q.isLt
  obtain rfl : q = ⟨p.val + 1, hlt⟩ := Fin.ext h
  simp [txRun, hlt]

theorem txRun_of_last {p : Fin 768} (h : p.val = 767) (src : TxSrc) (s : State) :
    txRun src p s = nextBlock (releaseSource src (emitSpdif (txWord src p s) s)) := by
  simp [txRun, h, blockDone]

theorem txRun_out (src : TxSrc) (p : Fin 768) (s : State) :
    (txRun src p s).out = { s.out with spdif := s.out.spdif ++ bitsOfWord (txWord src p s) } := by
  unfold txRun
  split
  · rfl
  · simp only [blockDone, nextBlock_out, releaseSource_out, emitSpdif_out]

/-- A turn of a running transmitter: TX_RUN needs nothing to be enabled. -/
theorem agentStep_spdifTx_of_run {s : State} {src : TxSrc} {p : Fin 768} (h : s.txSeq = .run src p) :
    enabled .spdifTx s = true ∧ agentStep .spdifTx s = .next (txRun src p s) := by
  simp [agentStep, enabled, txStep, h]

/-- Settles O44: below the last word the step only moves on; at the last word the source is released and the next block is by
what READY holds. -/
theorem transmitterSendsOneWord : Obligations.TransmitterSendsOneWord := by
  intro s src p hrun
  obtain ⟨henabled, hstep⟩ := agentStep_spdifTx_of_run hrun
  refine ⟨txWord src p s, freeAfter src s.spdif.free, txRun src p s, hstep, henabled, ?_, ?_, txRun_out src p s,
    ?_, ?_, fun q hq => ?_, fun hp id rest hready => ?_, fun hp hready => ?_⟩
  · rintro rfl
    rfl
  · rintro id rfl
    rfl
  · rintro rfl
    rfl
  · rintro id rfl
    rfl
  · rw [txRun_of_lt hq]
    rfl
  · rw [txRun_out, txRun_of_last hp, releaseSource_eq, nextBlock_of_ready_cons (by exact hready)]
    rfl
  · rw [txRun_out, txRun_of_last hp, releaseSource_eq, nextBlock_of_ready_nil (by exact hready)]
    rfl

end Sys2Proof.Machine
end

section
/-! PROOFS. The silence block stays the zero block under the current CHSTAT (43_spdif.md R286). -/

namespace Sys2Proof.Machine

/-- Neither CHSTAT nor the silence block has changed. -/
def sameSilence (s t : State) : Prop := t.regs.chstat = s.regs.chstat ∧ t.spdif.silblk = s.spdif.silblk

/-- The silence block's currency is a matter of these two fields. -/
theorem sameSilence.keepsCurrent {s t : State} (h : sameSilence s t) (hs : silblkCurrent s) : silblkCurrent t := by
  obtain ⟨hchstat, hsilblk⟩ := h
  intro p
  rw [hchstat, hsilblk]
  exact hs p

/-! The operations of the pool and of the transmitter that write other fields of the S/PDIF state only. -/

@[simp] theorem storeFrame_silblk (chstat : Word) (l r : BitVec 16) (id : Fin 8) (k : Fin 192) (d : Spdif) :
    (storeFrame chstat l r id k d).silblk = d.silblk := by
  unfold storeFrame
  split <;> rfl

@[simp] theorem spdifAppend_silblk (s : State) (l r : BitVec 16) :
    (spdifAppend l r s).spdif.silblk = s.spdif.silblk := by
  obtain ⟨_, _, h⟩ | ⟨id, rest, _, _, h⟩ | ⟨f, _, h⟩ := spdifAppend_cases l r s <;> simp [h]

@[simp] theorem prefillOne_silblk (chstat : Word) (d : Spdif) : (prefillOne chstat d).silblk = d.silblk := by
  unfold prefillOne
  split <;> rfl

@[simp] theorem prefill_silblk (chstat : Word) (n : Nat) (d : Spdif) : (prefill chstat n d).silblk = d.silblk := by
  induction n generalizing d with
  | zero => rfl
  | succ n ih => rw [prefill, ih, prefillOne_silblk]

@[simp] theorem packetGap_silblk (s : State) (gap : Word) : (packetGap gap s).spdif.silblk = s.spdif.silblk := by
  obtain ⟨_, h⟩ | ⟨_, _, _, h⟩ | ⟨_, _, h⟩ := packetGap_cases gap s <;> simp [h]

@[simp] theorem txStart_silblk (s : State) : (txStart s).spdif.silblk = s.spdif.silblk := by
  unfold txStart
  split <;> rfl

@[simp] theorem nextBlock_silblk (s : State) : (nextBlock s).spdif.silblk = s.spdif.silblk := by
  unfold nextBlock
  split <;> rfl

/-! The agents that write neither field. -/

theorem sameSilence_txRun (src : TxSrc) (p : Fin 768) (s : State) : sameSilence s (txRun src p s) := by
  unfold txRun
  split
  · exact ⟨rfl, rfl⟩
  · simp [sameSilence, blockDone, releaseSource_eq]

theorem sameSilence_txStep (s : State) : sameSilence s (txStep s) := by
  unfold txStep
  split
  · simp [sameSilence]
  · exact sameSilence_txRun _ _ s

theorem sameSilence_modStep (s : State) : sameSilence s (modStep s) := by
  unfold modStep modChunk
  split
  · simp [sameSilence]
  · split <;> simp [sameSilence]

theorem sameSilence_dmaStep (s : State) : sameSilence s (dmaStep s) := by
  simp [sameSilence]

theorem sameSilence_takeTurn (s : State) : sameSilence s (takeTurn s) := by
  simp [sameSilence]

/-! The steps of CMD after a packet's start. -/

theorem sameSilence_frame (w : Word) (s : State) : sameSilence s (frame w s) := by
  rw [frame_eq, sameSilence, queuePush_regs, queuePush_spdif, spdifAppend_regs, spdifAppend_silblk,
    (passed_signalPath w s).shape]
  exact ⟨rfl, rfl⟩

theorem sameSilence_frameStep (k : Nat) (s : State) : sameSilence s (frameStep k s) := sameSilence_frame _ s

theorem sameSilence_endStep (s : State) : sameSilence s (endStep s) := by
  rw [endStep_eq_update]
  exact ⟨rfl, rfl⟩

/-! The three writers of CHSTAT (R286). -/

theorem silblkCurrent_syncSilblk (s : State) : silblkCurrent (syncSilblk s) := by
  obtain ⟨m, hread, _, heq⟩ := syncSilblk_spec s
  rw [heq]
  exact hread

theorem silblkCurrent_resetWith (p : Params) : silblkCurrent (State.resetWith p) := fun _ => rfl

theorem silblkCurrent_resetBlock (s : State) : silblkCurrent (resetBlock s) := silblkCurrent_resetWith s.par

theorem writeReg_chstat (r : RegId) (v : Word) (g : Regs) :
    (writeReg r v g).chstat = if r = .chstat then v else g.chstat := by
  cases r <;> rfl

theorem silblkCurrent_storeReg {s : State} (hs : silblkCurrent s) (r : RegId) (v : Word) :
    silblkCurrent (storeReg r v s) := by
  unfold storeReg
  by_cases hr : r = .chstat
  · rw [if_pos hr]
    exact silblkCurrent_syncSilblk _
  · have hsame : sameSilence s { s with regs := writeReg r (legal r v) s.regs } :=
      ⟨by simp only [writeReg_chstat, if_neg hr], rfl⟩
    rw [if_neg hr]
    exact hsame.keepsCurrent hs

/-! The commands. -/

theorem sameSilence_refuseCommand (n : Nat) (s : State) : sameSilence s (refuseCommand n s) := ⟨rfl, rfl⟩

/-- Every command keeps the silence block current: RESET, SET_REG and SET_RATE rewrite it with CHSTAT, and the others write
neither. -/
theorem silblkCurrent_exec {i : Instr} {s t : State} (hs : silblkCurrent s) (h : exec i s = .next t) :
    silblkCurrent t := by
  have hrefuse : ∀ n, silblkCurrent (refuseCommand n s) := fun n => (sameSilence_refuseCommand n s).keepsCurrent hs
  cases i with
  | nop => cases h; exact hs
  | reset => cases h; exact silblkCurrent_resetBlock s
  | setReg reg v =>
    simp only [exec, execSetReg] at h
    split at h
    · cases h; exact hrefuse 0
    · split at h <;> cases h
      · exact silblkCurrent_storeReg hs _ v
      · exact hrefuse 0
  | getReg reg =>
    simp only [exec, execGetReg] at h
    split at h <;> cases h
    · exact hrefuse 1
    · exact hs
  | bqWrite ch band b0 b1 b2 a1 a2 =>
    simp only [exec, execBqWrite] at h
    split at h <;> cases h
    · exact hrefuse 0
    · exact hs
  | bqRead ch band =>
    simp only [exec, execBqRead] at h
    split at h <;> cases h
    · exact hrefuse 6
    · exact hs
  | loudWrite shelf k b0 b1 b2 a1 a2 =>
    simp only [exec, execLoudWrite] at h
    split at h <;> cases h
    · exact hrefuse 0
    · exact hs
  | loudFlip => cases h; exact hs
  | xfWrite lpA0 lpB1 apA => cases h; exact hs
  | setRate r => cases h; exact silblkCurrent_syncSilblk _
  | packet n gap frames =>
    simp only [exec, execPacket] at h
    split at h <;> cases h
    · exact sameSilence.keepsCurrent (s := s) (by simp [sameSilence]) hs
    · exact hrefuse 0
  | pdmMark =>
    cases h
    exact sameSilence.keepsCurrent (s := s) (by simp [sameSilence]) hs

/-! The steps. -/

theorem silblkCurrent_cmdIdle {s t : State} (hs : silblkCurrent s) (h : cmdIdle s = .next t) : silblkCurrent t := by
  unfold cmdIdle at h
  split at h
  · next i rest _ => exact silblkCurrent_exec (s := { s with port := rest }) hs h
  · cases h; exact hs
  · cases h; exact hs

theorem silblkCurrent_cmdStep {s t : State} (hs : silblkCurrent s) (h : cmdStep s = .next t) : silblkCurrent t := by
  unfold cmdStep at h
  split at h
  · exact silblkCurrent_cmdIdle hs h
  · cases h; exact (sameSilence_frameStep _ s).keepsCurrent hs
  · cases h; exact (sameSilence_endStep s).keepsCurrent hs

/-- Only CMD can write CHSTAT or the silence block. -/
theorem silblkCurrent_agentStep {a : Agent} {s t : State} (hs : silblkCurrent s) (h : agentStep a s = .next t) :
    silblkCurrent t := by
  obtain ⟨_, heq⟩ | ⟨_, _, heq⟩ | ⟨_, _, heq⟩ | ⟨_, _, heq⟩ | ⟨_, _, heq⟩ := agentStep_cases a s <;> rw [heq] at h
  · cases h; exact hs
  · exact silblkCurrent_cmdStep hs h
  · cases h; exact (sameSilence_txStep s).keepsCurrent hs
  · cases h; exact (sameSilence_modStep s).keepsCurrent hs
  · cases h; exact (sameSilence_dmaStep s).keepsCurrent hs

/-- Settles O58: a step is a turn taken and an agent's step, and each keeps the block current. -/
theorem stepKeepsTheSilenceBlockCurrent : Obligations.StepKeepsTheSilenceBlockCurrent :=
  ⟨silblkCurrent_resetWith, fun s _ hs hstep =>
    silblkCurrent_agentStep ((sameSilence_takeTurn s).keepsCurrent hs) hstep⟩

end Sys2Proof.Machine
end

section
/-! PROOFS. The word of a chunk and the decisions it packs (45_pdm.md R350, R351). -/

namespace Sys2Proof.Machine

/-! A packed word. -/

/-- The number a word packs has its cells as its binary digits, the last cell the lowest. -/
theorem testBit_foldl_cells (cells : List Bool) (i : Nat) :
    (cells.foldl (fun a (b : Bool) => 2 * a + b.toNat) 0).testBit i = cells.reverse.getD i false := by
  induction cells using List.reverseRecOn generalizing i with
  | nil => simp
  | append_singleton cells b ih =>
    rw [List.foldl_concat, List.reverse_concat, ← Nat.bit_val]
    cases i with
    | zero => rw [Nat.testBit_bit_zero, List.getD_cons_zero]
    | succ i => rw [Nat.testBit_bit_succ, ih, List.getD_cons_succ]

/-- Cell `b` of the 32 cells of a word is its bit 31 - b (R351). -/
theorem packWord_getLsbD {cells : List Bool} (hlen : cells.length = 32) {b : Nat} (hb : b < 32) :
    (packWord cells).getLsbD (31 - b) = cells.getD b false := by
  have hcell : cells.length - 1 - (31 - b) = b := by omega
  rw [packWord, BitVec.getLsbD_ofNat, testBit_foldl_cells, List.getD_eq_getElem?_getD,
    List.getElem?_reverse (by omega), hcell, List.getD_eq_getElem?_getD, decide_eq_true (by omega), Bool.true_and]

/-! A run of decisions. -/

theorem decisions_bits_length (t : BitVec 16) (d : Int) (n : Nat) (e1 e2 : Word) :
    (decisions t d n e1 e2).bits.length = n := by
  induction n generalizing e1 e2 with
  | zero => rfl
  | succ n ih => rw [decisions_succ, List.length_cons, ih]

/-- Decision `b` of a run compares the integrator that the first `b` decisions leave. -/
theorem decisions_bits_getD (t : BitVec 16) (d : Int) {b n : Nat} (hb : b < n) (e1 e2 : Word) :
    (decisions t d n e1 e2).bits.getD b false = comparator (decisions t d b e1 e2).err2 d := by
  obtain ⟨k, rfl⟩ : ∃ k, n = b + (k + 1) := ⟨n - b - 1, by omega⟩
  rw [decisions_add, List.getD_append_right _ _ _ _ (decisions_bits_length ..).le, decisions_bits_length, Nat.sub_self,
    decisions_succ, List.getD_cons_zero]

theorem decisions_succ_err1 (t : BitVec 16) (d : Int) (b : Nat) (e1 e2 : Word) :
    (decisions t d (b + 1) e1 e2).err1
      = wrap 32 ((decisions t d b e1 e2).err1.toInt + t.toNat
          - feedback (comparator (decisions t d b e1 e2).err2 d)) := by
  rw [decisions_add]
  rfl

/-- The second integrator of one more decision reads the first one just written (R350). -/
theorem decisions_succ_err2 (t : BitVec 16) (d : Int) (b : Nat) (e1 e2 : Word) :
    (decisions t d (b + 1) e1 e2).err2
      = wrap 32 ((decisions t d b e1 e2).err2.toInt + (decisions t d (b + 1) e1 e2).err1.toInt
          - feedback (comparator (decisions t d b e1 e2).err2 d)) := by
  rw [decisions_add]
  rfl

theorem comparator_iff (err2 : Word) (d : Int) : comparator err2 d = true ↔ 0 ≤ err2.toInt + d := decide_eq_true_iff

theorem feedback_comparator_of_nonneg {err2 : Word} {d : Int} (h : 0 ≤ err2.toInt + d) :
    feedback (comparator err2 d) = 65535 := by
  rw [(comparator_iff err2 d).mpr h]
  rfl

theorem feedback_comparator_of_neg {err2 : Word} {d : Int} (h : err2.toInt + d < 0) :
    feedback (comparator err2 d) = 0 := by
  have hzero : comparator err2 d = false := decide_eq_false (by omega)
  rw [hzero]
  rfl

/-- The rule's example: half scale from rest, without dither (R350). -/
theorem packWord_half_scale : packWord (decisions 32768#16 0 32 0#32 0#32).bits = 0x8B333333#32 := by decide

/-- Settles O48: bit 31 - b of the word is decision b, which compares the integrators of the run of b decisions, and the run
of b + 1 decisions is that run and this decision. -/
theorem chunkBitsAreTheDecisions : Obligations.ChunkBitsAreTheDecisions := by
  intro target d e1 e2 b hb
  refine ⟨?_, ⟨feedback (comparator (decisions target d b e1 e2).err2 d), feedback_comparator_of_nonneg,
    feedback_comparator_of_neg, decisions_succ_err1 target d b e1 e2, decisions_succ_err2 target d b e1 e2⟩,
    packWord_half_scale⟩
  rw [packWord_getLsbD (decisions_bits_length ..) hb, decisions_bits_getD target d hb, comparator_iff]

end Sys2Proof.Machine
end

section
/-! PROOFS. The underrun test and the recovery of MOD_START (45_pdm.md R343). -/

namespace Sys2Proof.Machine

theorem leadUnderrun_iff (p : Pdm) : leadUnderrun p = true ↔ 1024 < (p.pwi - p.pri).toNat := decide_eq_true_iff

/-! An acquisition. -/

/-- With nothing in the queue and the cushion full, nothing is acquired (R344). -/
theorem acquire_of_cushion_full {l : Nat} {s : State} (hq : queueEmpty s.queue = true) (hl : s.par.targetLead ≤ l) :
    acquire l s = s := by
  simp [acquire, hq, Nat.not_lt.mpr hl]

theorem acquire_pwi (l : Nat) (s : State) : (acquire l s).pdm.pwi = s.pdm.pwi := by
  obtain ⟨_, _, heq⟩ | ⟨_, _, heq⟩ | ⟨_, _, heq⟩ | ⟨_, _, heq⟩ := acquire_cases l s <;> rw [heq] <;> rfl

/-! The MOD_START step, by its underrun test. -/

theorem modStart_of_underrun {s : State} (h : leadUnderrun s.pdm = true) :
    modStart s = acquire s.par.targetLead (recoverUnderrun s) := by
  simp [modStart, h]

theorem modStart_of_not_underrun {s : State} (h : leadUnderrun s.pdm = false) : modStart s = acquire (lead s.pdm) s := by
  simp [modStart, h]

/-- A MOD_START that is not enabled would change nothing. -/
theorem modStart_of_not_enabled {s : State} (h : modStartEnabled s = false) : modStart s = s := by
  simp only [modStartEnabled, Bool.or_eq_false_iff, Bool.not_eq_false', decide_eq_false_iff_not, Nat.not_lt] at h
  obtain ⟨⟨hq, hl⟩, hu⟩ := h
  rw [modStart_of_not_underrun hu, acquire_of_cushion_full hq hl]

/-- In MOD_START the guard of the modulator's turn adds nothing: where it is not enabled, the step itself changes nothing. -/
theorem agentStep_pdmMod_of_start {s : State} (h : s.modSeq = .start) : agentStep .pdmMod s = .next (modStart s) := by
  cases he : modStartEnabled s with
  | true => simp [agentStep, enabled, modStep, h, he]
  | false => simp [agentStep, enabled, h, he, modStart_of_not_enabled he]

/-! The recovery. -/

/-- After the recovery the cushion is exactly full: TARGET_LEAD fits the 11 bits of the ring's indices. -/
theorem lead_recoverUnderrun {s : State} (hok : s.par.ok = true) : lead (recoverUnderrun s).pdm = s.par.targetLead := by
  have hlt := targetLead_lt hok
  calc lead (recoverUnderrun s).pdm
      = (s.pdm.pri + BitVec.ofNat 11 s.par.targetLead - s.pdm.pri).toNat := rfl
    _ = (BitVec.ofNat 11 s.par.targetLead).toNat := by rw [add_sub_cancel_left]
    _ = s.par.targetLead := by rw [BitVec.toNat_ofNat]; omega

/-- A recovered state is no underrun, so its own MOD_START goes on as with a lead of TARGET_LEAD. -/
theorem modStart_recoverUnderrun {s : State} (hok : s.par.ok = true) :
    modStart (recoverUnderrun s) = acquire s.par.targetLead (recoverUnderrun s) := by
  have hlead := lead_recoverUnderrun hok
  have hnot : leadUnderrun (recoverUnderrun s).pdm = false := by
    have hlt := targetLead_lt hok
    rw [leadUnderrun, hlead]
    exact decide_eq_false (by omega)
  rw [modStart_of_not_underrun hnot, hlead]

/-- Settles O46: with an underrun MOD_START is the recovery and then the recovered state's own MOD_START; at a lead of 1024
it is an acquisition with the cushion full, which moves neither PWI nor a counter. -/
theorem underrunRecoveryMovesTheWriteIndex : Obligations.UnderrunRecoveryMovesTheWriteIndex := by
  intro s hstart hok
  rw [agentStep_pdmMod_of_start hstart]
  refine ⟨fun hlead => ?_, fun hlead => ?_⟩
  · have hunder := modStart_of_underrun ((leadUnderrun_iff s.pdm).mpr hlead)
    refine ⟨recoverUnderrun s, rfl, lead_recoverUnderrun hok, ?_, fun hq => ?_⟩
    · rw [agentStep_pdmMod_of_start (s := recoverUnderrun s) hstart, hunder, modStart_recoverUnderrun hok]
    · rw [hunder, acquire_of_cushion_full (l := s.par.targetLead) (s := recoverUnderrun s) hq le_rfl]
  · have hnot : leadUnderrun s.pdm = false := decide_eq_false (by rw [lead]; omega)
    rw [modStart_of_not_underrun hnot]
    refine ⟨_, rfl, acquire_cnt s _, acquire_pwi _ s, fun hq => acquire_of_cushion_full hq ?_⟩
    have hlt := targetLead_lt hok
    rw [lead]
    omega

end Sys2Proof.Machine
end

section
/-! PROOFS. The ring reader's step (45_pdm.md R354). -/

namespace Sys2Proof.Machine

theorem agentStep_pdmDma (s : State) : agentStep .pdmDma s = .next (dmaStep s) := rfl

theorem dmaStep_out (s : State) :
    (dmaStep s).out = { s.out with pdm := s.out.pdm ++ bitsOfWord (readRing s.pdm.ring s.pdm.pri) } := rfl

theorem dmaStep_pdm (s : State) : (dmaStep s).pdm = { s.pdm with pri := s.pdm.pri + 1#11 } := rfl

/-- Settles O52: the step writes only the pin's stream and PRI, whose 11 bits make its advance one modulo 2048. -/
theorem ringReaderSendsOneWord : Obligations.RingReaderSendsOneWord := by
  intro s
  refine ⟨rfl, dmaStep s, agentStep_pdmDma s, ?_, ?_, rfl⟩
  · rw [dmaStep_out, bitsOfWord]
  · rw [dmaStep_pdm]
    exact BitVec.toNat_add s.pdm.pri 1#11

end Sys2Proof.Machine
end

section
/-! PROOFS. The commands without an operand that can be refused: NOP, RESET, LOUD_FLIP and XF_WRITE (46_control.md R381,
R382, R388 and R389). -/

namespace Sys2Proof.Machine

/-! The all-zero word and the one-word commands at the head of the port. -/

theorem decode_nop {w : Word} (hop : opField w = 0x00#8) (rest : List Word) : decode (w :: rest) = .command .nop rest :=
  decode_of_opField_eq_code (op := .nop) hop rest

theorem decode_reset {w : Word} (hop : opField w = 0x01#8) (rest : List Word) :
    decode (w :: rest) = .command .reset rest :=
  decode_of_opField_eq_code (op := .reset) hop rest

theorem decode_loudFlip {w : Word} (hop : opField w = 0x21#8) (rest : List Word) :
    decode (w :: rest) = .command .loudFlip rest :=
  decode_of_opField_eq_code (op := .loudFlip) hop rest

theorem decode_xfWrite {w : Word} (hop : opField w = 0x28#8) (lpA0 lpB1 apA : Word) (rest : List Word) :
    decode (w :: lpA0 :: lpB1 :: apA :: rest) = .command (.xfWrite lpA0 lpB1 apA) rest :=
  decode_of_opField_eq_code (op := .xfWrite) hop _

/-! What they do. -/

theorem exec_nop (s : State) : exec .nop s = .next s := rfl

theorem exec_reset (s : State) : exec .reset s = .next (resetBlock s) := rfl

theorem exec_loudFlip (s : State) :
    exec .loudFlip s = .next { s with regs := { s.regs with loudActive := 1#1 - s.regs.loudActive } } := rfl

theorem exec_xfWrite (lpA0 lpB1 apA : Word) (s : State) :
    exec (.xfWrite lpA0 lpB1 apA) s = .next { s with xf := ⟨lpA0, lpB1, apA, 0#32, 0#32, 0#64, 0#64⟩ } := rfl

/-- Settles O6: a command word with OP 0x00 is NOP, and the all-zero word is one. -/
theorem nopChangesNothing : Obligations.NopChangesNothing := fun s _ rest =>
  ⟨exec_nop s, fun hop => decode_nop hop rest, decode_nop (by decide) rest⟩

/-- Settles O7: `resetBlock` keeps the fields that the comparison masks, and takes every other one from the reset state. -/
theorem resetCommandRestoresTheResetState : Obligations.ResetCommandRestoresTheResetState :=
  ⟨fun _ rest hop => decode_reset hop rest, fun s => ⟨resetBlock s, exec_reset s, rfl, rfl, rfl⟩⟩

/-- Settles O19: the command is one update of the crossfeed state. -/
theorem xfWriteSetsCoefficientsAndClearsStates : Obligations.XfWriteSetsCoefficientsAndClearsStates :=
  fun s lpA0 lpB1 apA =>
    ⟨_, exec_xfWrite lpA0 lpB1 apA s, fun _ rest hop => decode_xfWrite hop lpA0 lpB1 apA rest,
      rfl, rfl, rfl, rfl, rfl, rfl, rfl, rfl⟩

/-! The loudness table in use. -/

/-- There are two loudness tables, and `1 - t` is the other one. -/
theorem other_table_ne (t : BitVec 1) : 1#1 - t ≠ t := by
  revert t
  decide

/-- An accepted PACKET latches the table that is active when it starts (41_ingest.md R201). -/
theorem exec_packet_latches_loudActive {n : BitVec 16} (h : packetCountOk n = true) (gap : Word) (fs : List Word)
    (s : State) : ∃ u, exec (.packet n gap fs) s = .next u ∧ u.pkt.act = s.regs.loudActive := by
  refine ⟨_, exec_packet_of_countOk h gap fs s, ?_⟩
  simp [latchPacket]

/-- Settles O18: the command writes LOUD_ACTIVE alone, and the next packet latches what it wrote. -/
theorem loudFlipTogglesTheActiveTable : Obligations.LoudFlipTogglesTheActiveTable :=
  ⟨fun _ rest hop => decode_loudFlip hop rest, fun s =>
    ⟨_, exec_loudFlip s, other_table_ne s.regs.loudActive, rfl, fun _ gap fs hcount =>
      exec_packet_latches_loudActive hcount gap fs _⟩⟩

end Sys2Proof.Machine
end

section
/-! PROOFS. SET_REG, GET_REG and the register map (10_state.md section 3; 46_control.md R383, R384 and R393). -/

namespace Sys2Proof.Machine

/-! The two commands at the head of the port. -/

theorem decode_setReg {w : Word} {n : BitVec 16} (hop : opField w = 0x02#8) (himm : immField w = n) (v : Word)
    (rest : List Word) : decode (w :: v :: rest) = .command (.setReg n v) rest := by
  subst himm
  exact decode_of_opField_eq_code (op := .setReg) hop _

theorem decode_getReg {w : Word} {n : BitVec 16} (hop : opField w = 0x03#8) (himm : immField w = n)
    (rest : List Word) : decode (w :: rest) = .command (.getReg n) rest := by
  subst himm
  exact decode_of_opField_eq_code (op := .getReg) hop _

/-! The register map. -/

/-- Every register is found again from its own number. -/
theorem regOf_regNum (r : RegId) : regOf (regNum r) = some r := by
  cases r <;> decide

/-- A row of the register map: number, register, whether SET_REG may write it, and what it reads as (10_state.md R34). -/
def mapRow (s : State) (r : RegId) : BitVec 16 × RegId × Bool × Word := (regNum r, r, regWritable r, readReg s r)

theorem mapRow_spec {s : State} {row : BitVec 16 × RegId × Bool × Word} (h : row ∈ regTable.map (mapRow s)) :
    regOf row.1 = some row.2.1 ∧ regWritable row.2.1 = row.2.2.1 ∧ readReg s row.2.1 = row.2.2.2 := by
  obtain ⟨r, _, rfl⟩ := List.mem_map.mp h
  exact ⟨regOf_regNum r, rfl, rfl⟩

/-! GET_REG. -/

theorem exec_getReg_of_regOf_some {n : BitVec 16} {r : RegId} (h : regOf n = some r) (s : State) :
    exec (.getReg n) s = .next (respond [readReg s r] s) := by
  simp [exec, execGetReg, h]

/-- Settles O11: an answer appends to the response stream alone, a refusal also counts, and the listed map is the model's
table of rows. -/
theorem getRegAnswersTheRegister : Obligations.GetRegAnswersTheRegister := fun s _ =>
  ⟨fun _ rest hop himm => decode_getReg hop himm rest,
    fun _ hreg => ⟨_, exec_getReg_of_regOf_some hreg s, rfl, rfl⟩,
    fun hnone => ⟨_, exec_getReg_of_regOf_none hnone s, rfl, rfl, rfl⟩,
    fun _ hrow => mapRow_spec (s := s) hrow⟩

/-! Legalisation (R393). -/

theorem toNat_minWord (v hi : Word) : (minWord v hi).toNat = min v.toNat hi.toNat := by
  unfold minWord
  split
  · next h => exact (min_eq_left (BitVec.le_def.mp h)).symm
  · next h => exact (min_eq_right (by rw [BitVec.le_def] at h; omega)).symm

theorem minWord_le (v hi : Word) : minWord v hi ≤ hi := by
  rw [BitVec.le_def, toNat_minWord]
  exact min_le_right ..

theorem and_word_le (v hi : Word) : v &&& hi ≤ hi := by
  rw [BitVec.le_def, BitVec.toNat_and]
  exact Nat.and_le_right

/-- A word up to a bound that fits a field of k bits reads back from the field. -/
theorem setWidth_setWidth_of_le_bound {k : Nat} {v hi : Word} (hle : v ≤ hi) (hfits : hi < BitVec.twoPow 32 k) :
    (v.setWidth k).setWidth 32 = v :=
  BitVec.setWidth_setWidth_eq_self (BitVec.lt_def.mpr (Nat.lt_of_le_of_lt hle hfits))

/-! The stored fields, each written by its own register alone. -/

section
variable (r : RegId) (v : Word) (g : Regs)

@[simp] theorem writeReg_rate : (writeReg r v g).rate = g.rate := by cases r <;> rfl
@[simp] theorem writeReg_loudActive : (writeReg r v g).loudActive = g.loudActive := by cases r <;> rfl
@[simp] theorem writeReg_spdifDiv : (writeReg r v g).spdifDiv = g.spdifDiv := by cases r <;> rfl
@[simp] theorem writeReg_pdmDiv : (writeReg r v g).pdmDiv = g.pdmDiv := by cases r <;> rfl
theorem writeReg_preamp : (writeReg r v g).preamp = if r = .preamp then v else g.preamp := by cases r <;> rfl
theorem writeReg_volMult : (writeReg r v g).volMult = if r = .volMult then v else g.volMult := by cases r <;> rfl
theorem writeReg_volIndex : (writeReg r v g).volIndex = if r = .volIndex then v.setWidth 7 else g.volIndex := by
  cases r <;> rfl
theorem writeReg_flags : (writeReg r v g).flags = if r = .flags then v.setWidth 3 else g.flags := by cases r <;> rfl
theorem writeReg_chBypass : (writeReg r v g).chBypass = if r = .chBypass then v.setWidth 5 else g.chBypass := by
  cases r <;> rfl
theorem writeReg_chMute : (writeReg r v g).chMute = if r = .chMute then v.setWidth 3 else g.chMute := by cases r <;> rfl
theorem writeReg_gainL : (writeReg r v g).gainL = if r = .gainL then v else g.gainL := by cases r <;> rfl
theorem writeReg_gainR : (writeReg r v g).gainR = if r = .gainR then v else g.gainR := by cases r <;> rfl
theorem writeReg_gainSub : (writeReg r v g).gainSub = if r = .gainSub then v else g.gainSub := by cases r <;> rfl
theorem writeReg_delayL : (writeReg r v g).delayL = if r = .delayL then v.setWidth 13 else g.delayL := by
  cases r <;> rfl
theorem writeReg_delayR : (writeReg r v g).delayR = if r = .delayR then v.setWidth 13 else g.delayR := by
  cases r <;> rfl
theorem writeReg_delaySub : (writeReg r v g).delaySub = if r = .delaySub then v.setWidth 13 else g.delaySub := by
  cases r <;> rfl

end

/-! SET_REG. -/

/-- No register shows the silence block. -/
theorem readReg_setSilblk (s : State) (m : Mem Word) (r : RegId) :
    readReg { s with spdif := { s.spdif with silblk := m } } r = readReg s r := by
  cases r <;> rfl

/-- A write of the control registers leaves what every other register reads as. -/
theorem readReg_writeReg_other {r r' : RegId} (hne : r' ≠ r) (v : Word) (s : State) :
    readReg { s with regs := writeReg r v s.regs } r' = readReg s r' := by
  have hne' := hne.symm
  cases r' <;>
    simp [readReg, hne', writeReg_preamp, writeReg_volMult, writeReg_volIndex, writeReg_flags, writeReg_chBypass,
      writeReg_chMute, writeReg_gainL, writeReg_gainR, writeReg_gainSub, writeReg_delayL, writeReg_delayR,
      writeReg_delaySub, writeReg_chstat]

/-- A legalised value fits the field that stores it, so it reads back. -/
theorem readReg_writeReg_legal {r : RegId} (hrw : regWritable r = true) (v : Word) (s : State) :
    readReg { s with regs := writeReg r (legal r v) s.regs } r = legal r v := by
  cases r with
  | preamp | volMult | gainL | gainR | gainSub | chstat => rfl
  | volIndex | delayL | delayR | delaySub => exact setWidth_setWidth_of_le_bound (minWord_le v _) (by decide)
  | flags | chBypass | chMute => exact setWidth_setWidth_of_le_bound (and_word_le v _) (by decide)
  | _ => cases hrw

/-- All that storing a register can do: the register is written, and with CHSTAT the silence block. The block's new memory is a
variable here, as in `syncSilblk_spec`. -/
theorem storeReg_spec (r : RegId) (v : Word) (s : State) :
    ∃ m : Mem Word,
      (∀ p, readSil m p = if r = .chstat then zeroBlockWord (legal r v) p.val else readSil s.spdif.silblk p)
      ∧ storeReg r v s
          = { s with regs := writeReg r (legal r v) s.regs, spdif := { s.spdif with silblk := m } } := by
  unfold storeReg
  by_cases hr : r = .chstat
  · obtain ⟨m, hread, _, heq⟩ := syncSilblk_spec { s with regs := writeReg r (legal r v) s.regs }
    refine ⟨m, fun p => ?_, by rw [if_pos hr, heq]⟩
    rw [hread, if_pos hr, writeReg_chstat, if_pos hr]
  · exact ⟨s.spdif.silblk, fun _ => by rw [if_neg hr], by rw [if_neg hr]⟩

theorem exec_setReg_of_writable {n : BitVec 16} {r : RegId} (h : regOf n = some r) (hrw : regWritable r = true)
    (v : Word) (s : State) : exec (.setReg n v) s = .next (storeReg r v s) := by
  simp [exec, execSetReg, h, hrw]

theorem exec_setReg_of_not_writable {n : BitVec 16} {r : RegId} (h : regOf n = some r) (hro : regWritable r = false)
    (v : Word) (s : State) : exec (.setReg n v) s = .next (raise .cmdInvalid s) := by
  simp [exec, execSetReg, h, hro]

/-- Settles O9: each clause is a row of `legal`, and storing a legalised value writes no counter. -/
theorem legalisationFollowsTheTable : Obligations.LegalisationFollowsTheTable := by
  intro v
  refine ⟨toNat_minWord v _, rfl, rfl, rfl, toNat_minWord v _, toNat_minWord v _, toNat_minWord v _, ?_, ?_⟩
  · intro r hr
    fin_cases hr <;> rfl
  · intro s n r hreg hrw
    obtain ⟨m, _, heq⟩ := storeReg_spec r v s
    exact ⟨_, exec_setReg_of_writable hreg hrw v s, by rw [heq]⟩

/-- Settles O10: an accepted SET_REG is one register write, joined by the silence block for CHSTAT, and the two kinds of
refused number only count. -/
theorem setRegStoresTheLegalValue : Obligations.SetRegStoresTheLegalValue := by
  intro s n v
  refine ⟨fun _ rest hop himm => decode_setReg hop himm v rest, fun r hreg hrw => ?_, ?_⟩
  · obtain ⟨m, hread, heq⟩ := storeReg_spec r v s
    have hexec := exec_setReg_of_writable hreg hrw v s
    rw [heq] at hexec
    have hview := readReg_setSilblk { s with regs := writeReg r (legal r v) s.regs } m
    exact ⟨_, hexec, (hview r).trans (readReg_writeReg_legal hrw v s),
      fun r' hne => (hview r').trans (readReg_writeReg_other hne (legal r v) s), hread, rfl⟩
  · rintro (hnone | ⟨r, hreg, hro⟩)
    · exact exec_setReg_of_regOf_none hnone v s
    · exact exec_setReg_of_not_writable hreg hro v s

end Sys2Proof.Machine
end

section
/-! PROOFS. The filter commands BQ_WRITE, BQ_READ and LOUD_WRITE (46_control.md R385, R386 and R387). -/

namespace Sys2Proof.Machine

/-! The three commands at the head of the port. -/

theorem decode_bqWrite {w : Word} {ch band : BitVec 4} (hop : opField w = 0x10#8) (hch : chField w = ch)
    (hsel : selField w = band) (b0 b1 b2 a1 a2 : Word) (rest : List Word) :
    decode (w :: b0 :: b1 :: b2 :: a1 :: a2 :: rest) = .command (.bqWrite ch band b0 b1 b2 a1 a2) rest := by
  subst hch hsel
  exact decode_of_opField_eq_code (op := .bqWrite) hop _

theorem decode_bqRead {w : Word} {ch band : BitVec 4} (hop : opField w = 0x11#8) (hch : chField w = ch)
    (hsel : selField w = band) (rest : List Word) : decode (w :: rest) = .command (.bqRead ch band) rest := by
  subst hch hsel
  exact decode_of_opField_eq_code (op := .bqRead) hop _

theorem decode_loudWrite {w : Word} {shelf : BitVec 4} {k : BitVec 16} (hop : opField w = 0x20#8)
    (hsel : selField w = shelf) (himm : immField w = k) (b0 b1 b2 a1 a2 : Word) (rest : List Word) :
    decode (w :: b0 :: b1 :: b2 :: a1 :: a2 :: rest) = .command (.loudWrite shelf k b0 b1 b2 a1 a2) rest := by
  subst hsel himm
  exact decode_of_opField_eq_code (op := .loudWrite) hop _

/-! The slot operand. -/

theorem channelOf_of_toNat_eq {ch : BitVec 4} {c : Channel} (h : ch.toNat = channelIndex c) : channelOf ch = some c := by
  have hch : ch = BitVec.ofNat 4 (channelIndex c) := by rw [← h, BitVec.ofNat_toNat, BitVec.setWidth_eq]
  subst hch
  cases c <;> rfl

theorem channelOf_of_gt {ch : BitVec 4} (h : 4 < ch.toNat) : channelOf ch = none := by
  revert ch
  decide

theorem slotOf_of_lt {p : Params} {ch band : BitVec 4} {c : Channel} (hch : ch.toNat = channelIndex c)
    (hband : band.toNat < p.bands c) : slotOf p ch band = some (c, band.toNat) := by
  simp [slotOf, channelOf_of_toNat_eq hch, hband]

/-- A slot operand is refused for its channel or for its band (30_encoding.md R147). -/
theorem slotOf_of_out_of_range {p : Params} {ch band : BitVec 4}
    (h : 4 < ch.toNat ∨ ∃ c : Channel, ch.toNat = channelIndex c ∧ p.bands c ≤ band.toNat) :
    slotOf p ch band = none := by
  obtain hgt | ⟨c, hch, hband⟩ := h
  · simp [slotOf, channelOf_of_gt hgt]
  · simp [slotOf, channelOf_of_toNat_eq hch, hband]

/-! The bypass bit of written coefficients. -/

/-- Only the identity is bypassed (90_conflicts.md C9). -/
theorem bypassOf_iff (b0 b1 b2 a1 a2 : Word) :
    bypassOf ⟨b0, b1, b2, a1, a2⟩ = true
      ↔ b0 = 0x10000000#32 ∧ b1 = 0#32 ∧ b2 = 0#32 ∧ a1 = 0#32 ∧ a2 = 0#32 := by
  simp [bypassOf, Coefs.identity, Config.unityQ28]

/-! BQ_WRITE and BQ_READ. -/

theorem readBq_writeBq_same (m : Mem BqSlot) (c : Channel) (b : Nat) (v : BqSlot) : readBq (writeBq m c b v) c b = v :=
  Mem.read_write_same

theorem exec_bqWrite_of_slot {s : State} {ch band : BitVec 4} {c : Channel} {b : Nat}
    (h : slotOf s.par ch band = some (c, b)) (b0 b1 b2 a1 a2 : Word) :
    exec (.bqWrite ch band b0 b1 b2 a1 a2) s
      = .next { s with bq := writeBq s.bq c b ⟨filterOf ⟨b0, b1, b2, a1, a2⟩, BqState.zero⟩ } := by
  simp [exec, execBqWrite, h]

theorem exec_bqWrite_of_no_slot {s : State} {ch band : BitVec 4} (h : slotOf s.par ch band = none)
    (b0 b1 b2 a1 a2 : Word) : exec (.bqWrite ch band b0 b1 b2 a1 a2) s = .next (raise .cmdInvalid s) := by
  simp [exec, execBqWrite, h]

theorem exec_bqRead_of_slot {s : State} {ch band : BitVec 4} {c : Channel} {b : Nat}
    (h : slotOf s.par ch band = some (c, b)) :
    exec (.bqRead ch band) s = .next (respond (bqResponse (readBq s.bq c b).filter) s) := by
  simp [exec, execBqRead, h]

theorem exec_bqRead_of_no_slot {s : State} {ch band : BitVec 4} (h : slotOf s.par ch band = none) :
    exec (.bqRead ch band) s = .next (refuseCommand 6 s) := by
  simp [exec, execBqRead, h]

/-- The bypass bit of a response is the last word's bit 0 (R386). -/
theorem bqResponse_eq (q : Filter) :
    bqResponse q = [q.coefs.b0, q.coefs.b1, q.coefs.b2, q.coefs.a1, q.coefs.a2, if q.bypass = true then 1#32 else 0#32] := by
  rw [bqResponse]
  cases q.bypass <;> rfl

/-- Settles O15: an accepted BQ_WRITE is one write of the bank, and a refused one only counts. -/
theorem bqWriteStoresOneSlot : Obligations.BqWriteStoresOneSlot := by
  intro s ch band b0 b1 b2 a1 a2
  refine ⟨fun _ rest hop hch hsel => decode_bqWrite hop hch hsel b0 b1 b2 a1 a2 rest, fun c hch hband => ?_,
    fun hrange => exec_bqWrite_of_no_slot (slotOf_of_out_of_range hrange) b0 b1 b2 a1 a2⟩
  refine ⟨_, exec_bqWrite_of_slot (slotOf_of_lt hch hband) b0 b1 b2 a1 a2, ?_, ?_, ?_, fun _ ha => ?_, rfl⟩
  · rw [readBq_writeBq_same]
    rfl
  · rw [readBq_writeBq_same]
    exact bypassOf_iff b0 b1 b2 a1 a2
  · rw [readBq_writeBq_same]
    rfl
  · rw [read_writeBq, if_neg ha]

/-- Settles O16: an answer and a refusal both append six words to the response stream, and the refusal counts. -/
theorem bqReadAnswersSixWords : Obligations.BqReadAnswersSixWords := by
  intro s ch band
  refine ⟨fun _ rest hop hch hsel => decode_bqRead hop hch hsel rest, fun c hch hband => ?_, fun hrange =>
    ⟨_, exec_bqRead_of_no_slot (slotOf_of_out_of_range hrange), rfl, rfl, rfl⟩⟩
  refine ⟨_, _, exec_bqRead_of_slot (slotOf_of_lt hch hband), rfl, ?_, rfl⟩
  rw [respond_out, bqResponse_eq]

/-! LOUD_WRITE. -/

theorem loudEntryOf_of_le {shelf : BitVec 4} {k : BitVec 16} (hshelf : shelf.toNat ≤ 1) (hk : k.toNat ≤ 90) :
    loudEntryOf shelf k = some (k.toNat, shelf.toNat) :=
  if_pos ⟨hshelf, hk⟩

theorem loudEntryOf_of_gt {shelf : BitVec 4} {k : BitVec 16} (h : 1 < shelf.toNat ∨ 90 < k.toNat) :
    loudEntryOf shelf k = none :=
  if_neg (by omega)

theorem exec_loudWrite_of_entry {shelf : BitVec 4} {k : BitVec 16} {i j : Nat} (h : loudEntryOf shelf k = some (i, j))
    (b0 b1 b2 a1 a2 : Word) (s : State) :
    exec (.loudWrite shelf k b0 b1 b2 a1 a2) s
      = .next { s with loud := writeLoud s.loud (1#1 - s.regs.loudActive) i j (filterOf ⟨b0, b1, b2, a1, a2⟩) } := by
  simp [exec, execLoudWrite, h]

theorem exec_loudWrite_of_no_entry {shelf : BitVec 4} {k : BitVec 16} (h : loudEntryOf shelf k = none)
    (b0 b1 b2 a1 a2 : Word) (s : State) :
    exec (.loudWrite shelf k b0 b1 b2 a1 a2) s = .next (raise .cmdInvalid s) := by
  simp [exec, execLoudWrite, h]

theorem readLoud_writeLoud_same (m : Mem Filter) (t : BitVec 1) (k j : Nat) (v : Filter) :
    readLoud (writeLoud m t k j v) t k j = v :=
  Mem.read_write_same

/-- The two loudness tables share no entry. -/
theorem loudIndex_ne_of_table_ne {t u : BitVec 1} (h : t ≠ u) {k k' j j' : Nat} (hk : k ≤ 90) (hk' : k' ≤ 90)
    (hj : j ≤ 1) (hj' : j' ≤ 1) : loudIndex t k j ≠ loudIndex u k' j' := by
  have hne : t.toNat ≠ u.toNat := fun e => h (BitVec.eq_of_toNat_eq e)
  simp only [loudIndex]
  omega

/-- Settles O17: an accepted LOUD_WRITE is one write of the other table than the active one, and a refused one only counts. -/
theorem loudWriteFillsTheInactiveTable : Obligations.LoudWriteFillsTheInactiveTable := by
  intro s shelf k b0 b1 b2 a1 a2
  refine ⟨fun _ rest hop hsel himm => decode_loudWrite hop hsel himm b0 b1 b2 a1 a2 rest, fun hshelf hk => ?_,
    fun hrange => exec_loudWrite_of_no_entry (loudEntryOf_of_gt hrange) b0 b1 b2 a1 a2 s⟩
  have hother := other_table_ne s.regs.loudActive
  refine ⟨_, 1#1 - s.regs.loudActive, hother,
    exec_loudWrite_of_entry (loudEntryOf_of_le hshelf hk) b0 b1 b2 a1 a2 s, ?_, ?_, fun _ ha => ?_,
    fun k' j' hk' hj' => ?_, rfl⟩
  · rw [readLoud_writeLoud_same]
    rfl
  · rw [readLoud_writeLoud_same]
    exact bypassOf_iff b0 b1 b2 a1 a2
  · rw [read_writeLoud, if_neg ha]
  · rw [readLoud, read_writeLoud, if_neg (loudIndex_ne_of_table_ne hother.symm hk' hk hj' hshelf), readLoud]

end Sys2Proof.Machine
end

section
/-! PROOFS. SET_RATE (46_control.md R390). -/

namespace Sys2Proof.Machine

theorem decode_setRate {w : Word} (hop : opField w = 0x30#8) (r : Word) (rest : List Word) :
    decode (w :: r :: rest) = .command (.setRate r) rest :=
  decode_of_opField_eq_code (op := .setRate) hop _

/-! The rate code in CHSTAT[27:24]. -/

theorem getLsbD_withRateCode (chstat : Word) (code : BitVec 4) (i : Nat) :
    (withRateCode chstat code).getLsbD i
      = if 24 ≤ i ∧ i < 28 then code.getLsbD (i - 24) else chstat.getLsbD i := by
  have happend : withRateCode chstat code
      = (chstat.extractLsb' 28 4 ++ code ++ chstat.extractLsb' 0 24 : BitVec (4 + 4 + 24)) := rfl
  rw [happend, BitVec.getLsbD_append, BitVec.getLsbD_append]
  by_cases hlow : i < 24
  · rw [if_pos hlow, if_neg (by omega), BitVec.getLsbD_extractLsb', decide_eq_true hlow, Nat.zero_add, Bool.true_and]
  · rw [if_neg hlow]
    by_cases hcode : i < 28
    · rw [if_pos (by omega), if_pos (by omega)]
    · have hindex : 28 + (i - 24 - 4) = i := by omega
      rw [if_neg (by omega), if_neg (by omega), BitVec.getLsbD_extractLsb', hindex]
      by_cases hhigh : i < 32
      · rw [decide_eq_true (by omega), Bool.true_and]
      · rw [BitVec.getLsbD_of_ge chstat i (by omega), Bool.and_false]

theorem extract_withRateCode (chstat : Word) (code : BitVec 4) : (withRateCode chstat code).extractLsb' 24 4 = code := by
  apply BitVec.eq_of_getLsbD_eq
  intro i hi
  rw [BitVec.getLsbD_extractLsb', getLsbD_withRateCode, if_pos (by omega), Nat.add_sub_cancel_left, decide_eq_true hi,
    Bool.true_and]

theorem rateCode_toNat (r : Word) :
    (rateCode r).toNat = if r = 48000#32 then 0x2 else if r = 96000#32 then 0xA else 0x0 := by
  rw [rateCode]
  split_ifs <;> rfl

/-- All that SET_RATE can do; the silence block's new memory is a variable here, as in `syncSilblk_spec`. -/
theorem exec_setRate_spec (r : Word) (s : State) :
    ∃ m : Mem Word,
      (∀ p, readSil m p = zeroBlockWord (rateRegs s.par (supportedRate r) s.regs).chstat p.val)
      ∧ exec (.setRate r) s
          = .next { s with regs := rateRegs s.par (supportedRate r) s.regs, spdif := { s.spdif with silblk := m } } := by
  obtain ⟨m, hread, _, heq⟩ := syncSilblk_spec { s with regs := rateRegs s.par (supportedRate r) s.regs }
  exact ⟨m, hread, congrArg Host.Outcome.next heq⟩

/-- Settles O20: the command is one update of four registers and the silence block, for the rate after coercion. -/
theorem setRateStoresRateAndStatus : Obligations.SetRateStoresRateAndStatus := by
  intro s r
  obtain ⟨m, hread, hexec⟩ := exec_setRate_spec r s
  refine ⟨_, supportedRate r, hexec, fun _ rest hop => decode_setRate hop r rest, fun hok => if_pos hok,
    fun hbad => if_neg hbad, rfl, ?_, fun i hi => ?_, hread, rfl, rfl, rfl⟩
  · rw [← rateCode_toNat]
    exact congrArg BitVec.toNat (extract_withRateCode s.regs.chstat (rateCode (supportedRate r)))
  · exact (getLsbD_withRateCode s.regs.chstat _ i).trans (if_neg (by omega))

end Sys2Proof.Machine
end

section
/-! PROOFS. The state after power-on and RESET (70_reset_and_hazards.md R460). -/

namespace Sys2Proof.Machine

/-! What a memory that lists no entry reads as, which is what every memory holds after reset. -/

@[simp] theorem readBq_nil (ch : Channel) (b : Nat) : readBq [] ch b = BqSlot.identity := Mem.read_nil

@[simp] theorem readLoud_nil (t : BitVec 1) (k j : Nat) : readLoud [] t k j = Filter.identity := Mem.read_nil

@[simp] theorem readLine_nil (a : BitVec 13) : readLine [] a = 0#32 := Mem.read_nil

@[simp] theorem readRing_nil (a : BitVec 11) : readRing [] a = Config.silenceWord := Mem.read_nil

@[simp] theorem readQueue_nil (a : BitVec 8) : readQueue [] a = ⟨0#32, false⟩ := Mem.read_nil

theorem poolIndex_mod (id : Fin 8) (q : Fin 768) : poolIndex id q.val % 768 = q.val := by
  rw [poolIndex, Nat.mul_add_mod, Nat.mod_eq_of_lt q.isLt]

@[simp] theorem readPool_nil (id : Fin 8) (q : Fin 768) : readPool [] id q = zeroBlockWord resetChstat q.val :=
  (Mem.read_nil (sh := poolShape)).trans (congrArg (zeroBlockWord resetChstat) (poolIndex_mod id q))

/-- RESET puts the block into the state of power-on with its own parameters, but for the streams, the port and the model's own
fields; it keeps the streams. -/
theorem exec_reset_eq_powerOn (u : State) :
    ∃ t : State, exec .reset u = .next t ∧ t.out = u.out
      ∧ { t with out := ⟨[], [], []⟩, port := [], sched := [], turn := 0, ditherIn := [], draws := 0 }
          = State.resetWith u.par := by
  obtain ⟨t, hexec, hout, _, hstate⟩ := resetCommandRestoresTheResetState.2 u
  exact ⟨t, hexec, hout, hstate⟩

/-- Settles O8: each memory reads as its empty list does, POOL and SILBLK as the zero block; every other row of the table is a
field of the reset state as written, and RESET is O7. The proof's lines follow the rows of the statement. -/
theorem powerOnStateIsTheResetTable : Obligations.PowerOnStateIsTheResetTable := by
  intro p
  exact ⟨State.resetWith p, rfl,
    rfl, rfl,
    rfl, rfl,
    rfl, rfl, rfl,
    rfl, rfl, rfl, rfl,
    rfl, rfl, rfl,
    rfl, rfl,
    rfl, rfl,
    rfl, rfl,
    readBq_nil,
    readLoud_nil,
    rfl,
    rfl,
    rfl, rfl, rfl, rfl,
    rfl, rfl, readRing_nil,
    readQueue_nil, rfl, rfl,
    rfl, rfl, rfl,
    readPool_nil,
    silblkCurrent_resetWith p, rfl,
    fun a => ⟨readLine_nil a, readLine_nil a, readLine_nil a⟩,
    rfl, rfl, rfl, rfl, List.forall_mem_nil _,
    rfl, rfl, rfl, rfl,
    rfl, rfl, rfl, rfl,
    fun u hpar => hpar ▸ exec_reset_eq_powerOn u⟩

end Sys2Proof.Machine
end

section
/-! PROOFS. The decoder against the encoder, and CMD's turn in IDLE (30_encoding.md sections 1 and 2; 46_control.md R380). -/

namespace Sys2Proof.Machine

/-! Decoding what was encoded. -/

theorem decode_pdmMark {w : Word} (hop : opField w = 0x48#8) (rest : List Word) :
    decode (w :: rest) = .command .pdmMark rest :=
  decode_of_opField_eq_code (op := .pdmMark) hop rest

/-- Settles O1: command by command, the encoded word's fields are the ones the decoder reads back. -/
theorem encodeThenDecodeGivesTheCommand : Obligations.EncodeThenDecodeGivesTheCommand := by
  intro i rest hwf
  cases i with
  | nop => exact decode_nop (opField_commandWord ..) rest
  | reset => exact decode_reset (opField_commandWord ..) rest
  | setReg reg v => exact decode_setReg (opField_commandWord ..) (immField_commandWord ..) v rest
  | getReg reg => exact decode_getReg (opField_commandWord ..) (immField_commandWord ..) rest
  | bqWrite ch band b0 b1 b2 a1 a2 =>
    exact decode_bqWrite (opField_commandWord ..) (chField_commandWord ..) (selField_commandWord ..) b0 b1 b2 a1 a2 rest
  | bqRead ch band =>
    exact decode_bqRead (opField_commandWord ..) (chField_commandWord ..) (selField_commandWord ..) rest
  | loudWrite shelf k b0 b1 b2 a1 a2 =>
    exact decode_loudWrite (opField_commandWord ..) (selField_commandWord ..) (immField_commandWord ..) b0 b1 b2 a1 a2 rest
  | loudFlip => exact decode_loudFlip (opField_commandWord ..) rest
  | xfWrite lpA0 lpB1 apA => exact decode_xfWrite (opField_commandWord ..) lpA0 lpB1 apA rest
  | setRate r => exact decode_setRate (opField_commandWord ..) r rest
  | packet n gap frames =>
    exact decode_packet (opField_commandWord ..) (immField_commandWord ..) (of_decide_eq_true hwf) gap rest
  | pdmMark => exact decode_pdmMark (opField_commandWord ..) rest

/-! How many words a command takes. -/

theorem payloadWords_of_opcodeOf_none {w : Word} (h : opcodeOf (opField w) = none) : payloadWords w = 0 := by
  simp [payloadWords, h]

/-- All the decoder can do after a command word: with the payload on the port it reads a well-formed command of that length,
and with fewer words it waits (R145, R380). -/
theorem decodeAs_cases {op : Opcode} {w : Word} (hop : opcodeOf (opField w) = some op) (ws : List Word) :
    (ws.length < payloadWords w ∧ decodeAs op w ws = .incomplete)
      ∨ (payloadWords w ≤ ws.length ∧ ∃ i : Instr, decodeAs op w ws = .command i (ws.drop (payloadWords w))
          ∧ i.wellFormed = true ∧ (encode i).length = 1 + payloadWords w) := by
  cases op with
  | nop | reset | getReg | bqRead | loudFlip | pdmMark =>
    simp only [payloadWords, hop]
    exact .inr ⟨Nat.zero_le _, _, rfl, rfl, rfl⟩
  | setReg | setRate =>
    simp only [payloadWords, hop]
    match ws with
    | [] => exact .inl ⟨by decide, rfl⟩
    | _ :: _ => exact .inr ⟨by simp, _, rfl, rfl, rfl⟩
  | xfWrite =>
    simp only [payloadWords, hop]
    match ws with
    | [] | [_] | [_, _] => exact .inl ⟨by simp, rfl⟩
    | _ :: _ :: _ :: _ => exact .inr ⟨by simp, _, rfl, rfl, rfl⟩
  | bqWrite | loudWrite =>
    simp only [payloadWords, hop]
    match ws with
    | [] | [_] | [_, _] | [_, _, _] | [_, _, _, _] => exact .inl ⟨by simp, rfl⟩
    | _ :: _ :: _ :: _ :: _ :: _ => exact .inr ⟨by simp, _, rfl, rfl, rfl⟩
  | packet =>
    simp only [payloadWords, hop]
    match ws with
    | [] => exact .inl ⟨by simp, rfl⟩
    | gap :: rest =>
      by_cases hn : (immField w).toNat ≤ rest.length
      · refine .inr ⟨by simpa [Nat.add_comm] using hn, .packet (immField w) gap (rest.take (immField w).toNat), ?_, ?_, ?_⟩
        · rw [decodeAs, if_pos hn, Nat.add_comm, List.drop_succ_cons]
        · simpa [Instr.wellFormed] using hn
        · simp only [encode, List.length_cons, List.length_take]
          omega
      · exact .inl ⟨by simp only [List.length_cons]; omega, if_neg hn⟩

/-- Settles O2: by what the OP stands for; a defined one reads its payload or waits, an undefined one is a word of its own. -/
theorem decodeConsumesTheLengthOfTheCommandWord : Obligations.DecodeConsumesTheLengthOfTheCommandWord := by
  intro w ws
  cases hop : opcodeOf (opField w) with
  | none =>
    rw [decode_of_opcodeOf_none hop, payloadWords_of_opcodeOf_none hop]
    refine ⟨by simp, nofun, fun op rest h => ?_⟩
    cases h
    exact ⟨rfl, rfl, rfl⟩
  | some op =>
    have hdecode : decode (w :: ws) = decodeAs op w ws := by simp [decode, hop]
    rw [hdecode]
    obtain ⟨hlt, hwait⟩ | ⟨hle, i, hcommand, hwf, hlen⟩ := decodeAs_cases hop ws
    · rw [hwait]
      exact ⟨by simp [hlt], nofun, nofun⟩
    · rw [hcommand]
      refine ⟨by simpa using hle, fun i' rest h => ?_, nofun⟩
      cases h
      exact ⟨rfl, hwf, hlen⟩

/-- Settles O3: each line is a case of its command's decoding rule. -/
theorem sampleWordsDecode : Obligations.SampleWordsDecode :=
  ⟨decode_nop (by decide) [],
    decode_setReg (by decide) (by decide) 0x08000000#32 [],
    decode_bqWrite (by decide) (by decide) (by decide) 0x10000000#32 0#32 0#32 0#32 0#32 [],
    decode_bqRead (by decide) (by decide) (by decide) [],
    decode_loudWrite (by decide) (by decide) (by decide) 1#32 2#32 3#32 4#32 5#32 [],
    decode_pdmMark (by decide) [],
    decode_of_opcodeOf_none (by decide) []⟩

/-! CMD's turn in IDLE. -/

theorem wellFormed_of_decode {ws rest : List Word} {i : Instr} (h : decode ws = .command i rest) : i.wellFormed = true := by
  cases ws with
  | nil => cases h
  | cons w ws =>
    obtain ⟨_, hcommand, _⟩ := decodeConsumesTheLengthOfTheCommandWord w ws
    obtain ⟨_, hwf, _⟩ := hcommand i rest h
    exact hwf

theorem cmdIdle_of_incomplete {s : State} (h : decode s.port = .incomplete) : cmdIdle s = .next s := by
  simp [cmdIdle, h]

/-- Settles O4: in IDLE a step is `cmdIdle` of the state whose turn is taken, by what the port decodes to. -/
theorem stepRunsTheDecodedCommand : Obligations.StepRunsTheDecodedCommand := by
  have hstep : ∀ s : State, nextAgent s = .cmd → s.cmdSeq = .idle → step s = cmdIdle (takeTurn s) := by
    intro s hturn hidle
    rw [step, hturn, agentStep_cmd_of_idle (by rw [takeTurn_cmdSeq, hidle])]
  refine ⟨fun s i rest hturn hidle hdecode => ⟨wellFormed_of_decode hdecode, ?_⟩, fun s hturn hidle hport => ?_⟩
  · rw [hstep s hturn hidle, cmdIdle_of_command (by rw [takeTurn_port, hdecode])]
  · have hdecode : decode s.port = .incomplete := by
      obtain hnil | ⟨w, ws, hcons, hlt⟩ := hport
      · rw [hnil]
        rfl
      · obtain ⟨hwait, _⟩ := decodeConsumesTheLengthOfTheCommandWord w ws
        rw [hcons]
        exact hwait.mpr hlt
    rw [hstep s hturn hidle, cmdIdle_of_incomplete (by rw [takeTurn_port, hdecode])]

end Sys2Proof.Machine
end

section
/-! PROOFS. The PCM->PDM queue, the divider registers and the transmitter's start (44_pcm_pdm_queue.md; 10_state.md R52;
43_spdif.md R283). -/

namespace Sys2Proof.Machine

/-! The messages of the queue. -/

@[simp] theorem queueFrom_length (m : Mem Msg) (n : Nat) (a : BitVec 8) : (queueFrom m n a).length = n := by
  induction n generalizing a with
  | zero => rfl
  | succ n ih => rw [queueFrom, List.length_cons, ih]

/-- The newest message of `n + 1` is `n` entries behind the oldest. -/
theorem queueFrom_succ_last (m : Mem Msg) (n : Nat) (a : BitVec 8) :
    queueFrom m (n + 1) a = queueFrom m n a ++ [readQueue m (a + BitVec.ofNat 8 n)] := by
  induction n generalizing a with
  | zero => simp [queueFrom]
  | succ n ih =>
    have hindex : a + 1#8 + BitVec.ofNat 8 n = a + BitVec.ofNat 8 (n + 1) := by bv_omega
    rw [queueFrom, ih, hindex, queueFrom, List.cons_append]

/-- A write outside the `n` entries from `a` on leaves their messages. -/
theorem queueFrom_writeQueue {n : Nat} {a b : BitVec 8} (h : n ≤ (b - a).toNat) (m : Mem Msg) (v : Msg) :
    queueFrom (writeQueue m b v) n a = queueFrom m n a := by
  induction n generalizing a with
  | zero => rfl
  | succ n ih =>
    rw [queueFrom, queueFrom, readQueue_writeQueue, if_neg (by bv_omega), ih (by bv_omega)]

theorem queueMessages_length (q : Queue) : (queueMessages q).length = queueCount q := queueFrom_length ..

theorem queueFull_iff (q : Queue) : queueFull q = true ↔ queueCount q = 255 := by
  simp only [queueFull, queueCount, beq_iff_eq]
  bv_omega

theorem queueEmpty_iff (q : Queue) : queueEmpty q = true ↔ queueCount q = 0 := by
  simp only [queueEmpty, queueCount, beq_iff_eq]
  bv_omega

/-! A push and a pop (R320 to R322). -/

theorem queuePush_of_full {s : State} (h : queueFull s.queue = true) (m : Msg) :
    queuePush m s = raise .ringOverrun s := by
  simp [queuePush, h]

theorem queuePush_of_not_full {s : State} (h : queueFull s.queue = false) (m : Msg) :
    queuePush m s
      = { s with queue := ⟨writeQueue s.queue.buf s.queue.head m, s.queue.head + 1#8, s.queue.tail⟩ } := by
  simp [queuePush, h]

/-- With room in the queue, the head is one entry past the messages, so its write touches none of them. -/
theorem queueMessages_push {s : State} (h : queueFull s.queue = false) (m : Msg) :
    queueMessages (queuePush m s).queue = queueMessages s.queue ++ [m] := by
  have hroom : queueCount s.queue ≠ 255 := fun e => by simp [(queueFull_iff s.queue).mpr e] at h
  have hcount : queueCount (queuePush m s).queue = queueCount s.queue + 1 := by
    rw [queuePush_of_not_full h]
    simp only [queueCount] at hroom ⊢
    bv_omega
  have hhead : s.queue.tail + BitVec.ofNat 8 (queueCount s.queue) = s.queue.head := by
    simp only [queueCount]
    bv_omega
  calc queueMessages (queuePush m s).queue
      = queueFrom (writeQueue s.queue.buf s.queue.head m) (queueCount s.queue + 1) s.queue.tail := by
        rw [queueMessages, hcount, queuePush_of_not_full h]
    _ = queueMessages s.queue ++ [m] := by
        rw [queueFrom_succ_last, hhead, readQueue_writeQueue, if_pos rfl, queueCount, queueFrom_writeQueue le_rfl]
        rfl

theorem queueMessages_pop {s : State} (h : queueEmpty s.queue = false) :
    queueMessages s.queue = queueFront s :: queueMessages (queueAdvance s).queue := by
  have hsome : queueCount s.queue ≠ 0 := fun e => by simp [(queueEmpty_iff s.queue).mpr e] at h
  have hcount : queueCount s.queue = queueCount (queueAdvance s).queue + 1 := by
    simp only [queueCount, queueAdvance_queue] at hsome ⊢
    bv_omega
  rw [queueMessages, hcount, queueFrom, queueFront, queueMessages, queueAdvance_queue]

/-- Settles O45: the count is the number of messages, a push writes one entry past them and a pop leaves the oldest behind. -/
theorem queueIsFirstInFirstOut : Obligations.QueueIsFirstInFirstOut := by
  intro s m
  refine ⟨?_, ?_, fun hroom => ⟨queueMessages_push hroom m, ?_, ?_⟩, fun hfull => queuePush_of_full hfull m,
    queueMessages_pop, ?_⟩
  · have hlt := (s.queue.head - s.queue.tail).isLt
    rw [queueMessages_length, queueCount]
    omega
  · rw [queueMessages_length, queueFull_iff]
  · rw [queuePush_of_not_full hroom]
  · rw [queuePush_of_not_full hroom]
  · rw [queueEmpty_iff, ← queueMessages_length, List.length_eq_zero_iff]

/-! PDM_MARK (46_control.md R391). -/

theorem exec_pdmMark (s : State) : exec .pdmMark s = .next (queuePush ⟨0#32, true⟩ s) := rfl

/-- Settles O21: the command is one push of the reset message. -/
theorem pdmMarkPushesAResetMessage : Obligations.PdmMarkPushesAResetMessage := by
  refine ⟨fun _ rest hop => decode_pdmMark hop rest, fun s => ⟨fun hroom => ?_, fun hfull => ?_⟩⟩
  · refine ⟨_, exec_pdmMark s, queueMessages_push hroom _, ?_⟩
    rw [queuePush_of_not_full hroom]
  · rw [exec_pdmMark, queuePush_of_full hfull]
    rfl

/-! The divider registers (10_state.md R52). -/

/-- Where the 24 bits can hold the ceiling, the divider is it. -/
theorem div256_toNat {p : Params} {r k : Nat} (hpos : 0 < r * k)
    (hfits : sysClk p r * 256 ≤ (2 ^ 24 - 1) * (r * k)) :
    (div256 p r k).toNat = (sysClk p r * 256 + (r * k - 1)) / (r * k) := by
  have hceil : (sysClk p r * 256 + (r * k - 1)) / (r * k) < 2 ^ 24 := by
    rw [Nat.div_lt_iff_lt_mul hpos]
    omega
  simp only [div256, if_neg hpos.ne', if_pos hceil, BitVec.toNat_ofNat, Nat.mod_eq_of_lt hceil]

/-- Settles O14: the quotient rounded up is the least number whose multiple reaches the dividend. -/
theorem dividerIsTheCeiling : Obligations.DividerIsTheCeiling := by
  refine fun p => ⟨⟨rfl, rfl, rfl⟩, fun r k hpos hfits => ?_⟩
  rw [div256_toNat hpos hfits]
  constructor
  · have hdiv := Nat.lt_div_mul_add hpos (a := sysClk p r * 256 + (r * k - 1))
    omega
  · intro v hv
    refine Nat.le_of_lt_succ ((Nat.div_lt_iff_lt_mul hpos).mpr ?_)
    rw [Nat.succ_mul]
    omega

/-! The transmitter in TX_IDLE (43_spdif.md R283). -/

/-- Settles O43: by what READY holds. -/
theorem transmitterStartsOnAReadyBuffer : Obligations.TransmitterStartsOnAReadyBuffer := by
  intro s hidle
  constructor
  · intro hready
    simp [agentStep, enabled, hidle, hready]
  · intro id rest hready
    simp [agentStep, enabled, txStep, txStart, hidle, hready]

end Sys2Proof.Machine
end

section
/-! PROOFS. The arithmetic of the signal path: the scalar multiply, the sample conversions, the biquad kernel, the bypass, the
peak meters and crossfeed (42_dsp_pipeline.md sections 2 and 3; 00_scope.md section 5). -/

namespace Sys2Proof.Machine

/-! Saturation and wrap as integers (00_scope.md R10). -/

/-- A saturated value is the nearest one of its width. -/
theorem sat_toInt {n : Nat} (hn : 0 < n) (v : Int) :
    (sat n v).toInt = min (max v (-(2 ^ (n - 1)))) (2 ^ (n - 1) - 1) := by
  have hpos : (0 : Int) < 2 ^ (n - 1) := by positivity
  rw [sat, clamp, minSigned, maxSigned, BitVec.toInt_ofInt_eq_self hn (by omega) (by omega)]

theorem sat32_toInt (v : Int) : (sat 32 v).toInt = min (max v (-(2 ^ 31))) (2 ^ 31 - 1) := sat_toInt (by decide) v

/-- A value that fits its width saturates to itself. -/
theorem sat32_of_eq_toInt {v : Int} {x : Word} (h : v = x.toInt) : sat 32 v = x := by
  have hlo := x.le_toInt
  have hhi := x.toInt_lt
  apply BitVec.eq_of_toInt_eq
  rw [sat32_toInt, h]
  omega

theorem wrap64_toInt_sub (v : Int) : ((wrap 64 v).toInt - v) % 2 ^ 64 = 0 := by
  rw [wrap, BitVec.toInt_ofInt, Int.bmod_def]
  omega

theorem wrap64_toInt {v : Int} (hlo : -(2 ^ 63) ≤ v) (hhi : v < 2 ^ 63) : (wrap 64 v).toInt = v :=
  BitVec.toInt_ofInt_eq_self (by decide) hlo hhi

theorem asr_coefFrac (v : Int) : asr v Config.coefFrac = v / 2 ^ 28 := rfl

theorem asr_inShift (v : Int) : asr v Config.inShift = v / 2 ^ 14 := rfl

/-! The scalar multiply (R11) and the preamp (R223). -/

theorem mulq_toInt (x c : Word) :
    (mulq x c).toInt = min (max (x.toInt * c.toInt / 2 ^ 28) (-(2 ^ 31))) (2 ^ 31 - 1) := by
  rw [mulq, asr_coefFrac, sat32_toInt]

theorem unityQ28_toInt : Config.unityQ28.toInt = 2 ^ 28 := by decide

theorem mulq_unity (x : Word) : mulq x Config.unityQ28 = x := by
  refine sat32_of_eq_toInt ?_
  rw [asr_coefFrac, unityQ28_toInt]
  omega

theorem mulq_zero (x : Word) : mulq x 0#32 = 0#32 := by
  refine sat32_of_eq_toInt ?_
  rw [asr_coefFrac, BitVec.toInt_zero]
  omega

/-- Settles O27: the floor of the rational quotient is the integer division, saturated. -/
theorem scalarMultiplyFloorsAndSaturates : Obligations.ScalarMultiplyFloorsAndSaturates := by
  refine fun x c => ⟨?_, mulq_unity x, mulq_zero x, fun f => ⟨rfl, rfl, rfl, rfl⟩⟩
  have hfloor : ⌊(x.toInt * c.toInt : ℚ) / 2 ^ 28⌋ = x.toInt * c.toInt / 2 ^ 28 := by
    have h := Rat.floor_intCast_div_natCast (x.toInt * c.toInt) (2 ^ 28)
    push_cast at h
    exact h
  rw [hfloor, mulq_toInt]

/-! The sample conversions (R222, R237). -/

theorem normSample_toInt (v : BitVec 16) : (normSample v).toInt = v.toInt * 2 ^ 14 := by
  have hlo := v.le_toInt
  have hhi := v.toInt_lt
  have hshift : v.toInt * 2 ^ Config.inShift = v.toInt * 2 ^ 14 := rfl
  rw [normSample, hshift, BitVec.toInt_ofInt_eq_self (by decide) (by omega) (by omega)]

theorem out16_toInt (x : Word) : (out16 x).toInt = min (max (x.toInt / 2 ^ 14) (-32768)) 32767 := by
  rw [out16, asr_inShift, sat_toInt (by decide)]
  rfl

theorem out16_normSample (v : BitVec 16) : out16 (normSample v) = v := by
  have hlo := v.le_toInt
  have hhi := v.toInt_lt
  apply BitVec.eq_of_toInt_eq
  rw [out16_toInt, normSample_toInt]
  omega

/-- Settles O28: both conversions as integers. -/
theorem normaliseAndConvertSamples : Obligations.NormaliseAndConvertSamples := by
  refine ⟨fun v => ⟨normSample_toInt v, out16_normSample v⟩, fun x => ⟨out16_toInt x, fun h => ?_, fun h => ?_⟩⟩
  · rw [out16_toInt]
    omega
  · rw [out16_toInt]
    omega

/-! The biquad kernel (R225). -/

theorem kernelOut_toInt (c : Coefs) (st : BqState) (x : Word) :
    (kernelOut c st x).toInt
      = min (max ((c.b0.toInt * x.toInt + st.s1.toInt) / 2 ^ 28) (-(2 ^ 31))) (2 ^ 31 - 1) := by
  rw [kernelOut, asr_coefFrac, sat32_toInt]

theorem kernelOut_identity (x : Word) : kernelOut Coefs.identity BqState.zero x = x := by
  refine sat32_of_eq_toInt ?_
  simp only [asr_coefFrac, Coefs.identity, BqState.zero, unityQ28_toInt, BitVec.toInt_zero]
  omega

theorem kernelState_identity (x : Word) : kernelState Coefs.identity BqState.zero x = BqState.zero := by
  simp [kernelState, Coefs.identity, BqState.zero, wrap]

theorem bqOut_of_not_bypass {q : Filter} (h : q.bypass = false) (st : BqState) (x : Word) :
    bqOut q st x = kernelOut q.coefs st x := by
  simp [bqOut, h]

theorem bqState_of_not_bypass {q : Filter} (h : q.bypass = false) (st : BqState) (x : Word) :
    bqState q st x = kernelState q.coefs st x := by
  simp [bqState, h]

/-- Settles O29: the kernel's output as an integer, which its states take, each wrapped to 64 bits. -/
theorem biquadKernelFeedsBackTheSaturatedOutput : Obligations.BiquadKernelFeedsBackTheSaturatedOutput := by
  intro q st x hactive
  rw [bqOut_of_not_bypass hactive, bqState_of_not_bypass hactive]
  refine ⟨_, kernelOut_toInt q.coefs st x, rfl, wrap64_toInt_sub _, wrap64_toInt_sub _, ?_⟩
  rintro hcoefs rfl
  rw [hcoefs]
  exact ⟨kernelOut_identity x, kernelState_identity x⟩

/-! The bypass (R226, R227). -/

theorem runBands_of_bypass {ch : Channel} {n b : Nat} {m : Mem BqSlot}
    (h : ∀ c, b ≤ c → c < b + n → (readBq m ch c).filter.bypass = true) (x : Word) : runBands ch n b m x = (m, x) := by
  induction n generalizing b with
  | zero => rfl
  | succ n ih =>
    rw [runBands_bypassed (h b le_rfl (by omega))]
    exact ih fun c hc hlt => h c (by omega) (by omega)

theorem chain_of_bands_bypassed {ch : Channel} {s : State}
    (h : ∀ b, b < s.par.bands ch → (readBq s.bq ch b).filter.bypass = true) (x : Word) : chain ch s x = (s.bq, x) := by
  cases hch : channelBypassed s.regs ch with
  | true => exact chain_of_bypassed hch x
  | false =>
    rw [chain_of_not_bypassed hch]
    exact runBands_of_bypass (fun c _ hc => h c (by omega)) x

/-- Settles O30: one filter, the channel's bit, and band by band. -/
theorem bypassLeavesSampleAndStates : Obligations.BypassLeavesSampleAndStates :=
  ⟨fun _ st x h => ⟨bqOut_of_bypass h st x, bqState_of_bypass h st x⟩, fun _ _ x h => chain_of_bypassed h x,
    fun _ _ x h => chain_of_bands_bypassed h x⟩

/-! The peak meters (R238). -/

/-- Settles O39: a peak update writes the larger value into its own accumulator. -/
theorem peakUpdateKeepsTheMaximum : Obligations.PeakUpdateKeepsTheMaximum := by
  intro x p
  have hmax : ∀ a : BitVec 16,
      (maxPeak a (peakOf x)).toNat = max a.toNat (min 32767 (x.toInt.natAbs / 2 ^ 14)) := by
    intro a
    rw [maxPeak_toNat, peakOf_toNat]
  exact ⟨hmax _, rfl, hmax _, rfl, hmax _, rfl, hmax _, rfl, hmax _, rfl⟩

/-! Crossfeed (R229 to R231). -/

theorem stageCrossfeed_of_disabled {f : Flight} (h : xfEnabled f.st.regs = false) : stageCrossfeed f = f := by
  simp [stageCrossfeed, h]

theorem stageCrossfeed_of_enabled {f : Flight} (h : xfEnabled f.st.regs = true) : stageCrossfeed f = crossfeed f := by
  simp [stageCrossfeed, h]

theorem lpOut_toInt (x : Crossfeed) (state v : Word) :
    (lpOut x state v).toInt
      = min (max ((x.lpA0.toInt * v.toInt + x.lpB1.toInt * state.toInt) / 2 ^ 28) (-(2 ^ 31))) (2 ^ 31 - 1) := by
  rw [lpOut, asr_coefFrac, sat32_toInt]

theorem apOut_toInt (x : Crossfeed) (state : BitVec 64) (v : Word) :
    (apOut x state v).toInt
      = min (max ((x.apA.toInt * v.toInt + state.toInt) / 2 ^ 28) (-(2 ^ 31))) (2 ^ 31 - 1) := by
  rw [apOut, asr_coefFrac, sat32_toInt]

theorem apState_toInt_sub (x : Crossfeed) (state : BitVec 64) (v : Word) :
    ((apState x state v).toInt - (v.toInt * 2 ^ 28 - x.apA.toInt * (apOut x state v).toInt)) % 2 ^ 64 = 0 :=
  wrap64_toInt_sub _

/-- A product of two words fits 63 bits. -/
theorem word_mul_bounds (x y : Word) : -(2 ^ 62) ≤ x.toInt * y.toInt ∧ x.toInt * y.toInt ≤ 2 ^ 62 := by
  have hx := x.le_toInt
  have hx' := x.toInt_lt
  have hy := y.le_toInt
  have hy' := y.toInt_lt
  norm_num at hx hx' hy hy'
  constructor <;> nlinarith

/-- The all-pass state needs no wrap: its exact sum fits 64 bits. -/
theorem apState_toInt (x : Crossfeed) (state : BitVec 64) (v : Word) :
    (apState x state v).toInt = v.toInt * 2 ^ 28 - x.apA.toInt * (apOut x state v).toInt := by
  obtain ⟨hlo, hhi⟩ := word_mul_bounds x.apA (apOut x state v)
  have hv := v.le_toInt
  have hv' := v.toInt_lt
  have hfrac : v.toInt * 2 ^ Config.coefFrac = v.toInt * 2 ^ 28 := rfl
  rw [apState, hfrac, wrap64_toInt] <;> omega

theorem crossfeed_of_zero {f : Flight} (h : f.st.xf = ⟨0#32, 0#32, 0#32, 0#32, 0#32, 0#64, 0#64⟩) : crossfeed f = f := by
  obtain ⟨l, r, sub, st⟩ := f
  have hsat : ∀ x : Word, sat 32 x.toInt = x := fun x => sat32_of_eq_toInt rfl
  have hzero : sat 32 0 = 0#32 := by decide
  simp only at h
  simp [crossfeed, h, lpOut, apOut, apState, asr_coefFrac, wrap, hsat, hzero]
  rw [← h]

/-- With ap_a = 0 the state is the scaled input, which the next sample's output reads. -/
theorem apOut_apState_of_zero {x : Crossfeed} (h : x.apA = 0#32) (z : BitVec 64) (v w : Word) :
    apOut x (apState x z v) w = v := by
  refine sat32_of_eq_toInt ?_
  rw [asr_coefFrac, apState_toInt, h, BitVec.toInt_zero]
  omega

/-! Crossfeed at DC (R242). -/

/-- A settled lowpass output repeats itself, so its sum is 2^28 times the output, up to the truncation. -/
theorem lowpassAtDc_of_settled {x : Crossfeed} {lp v : Word} (h : lpOut x lp v = lp) :
    lowpassAtDc x v.toInt lp.toInt := by
  intro hlo hhi
  have hlp := lpOut_toInt x lp v
  rw [h] at hlp
  have hlin : x.lpA0.toInt * v.toInt - (2 ^ 28 - x.lpB1.toInt) * lp.toInt
      = x.lpA0.toInt * v.toInt + x.lpB1.toInt * lp.toInt - 2 ^ 28 * lp.toInt := by ring
  rw [hlin]
  omega

/-- A settled all-pass falls short of its input by less than 2^28 over its loop gain. -/
theorem allpass_error_of_settled {x : Crossfeed} {ap : BitVec 64} {v : Word} (h : apState x ap v = ap)
    (hgain : -(2 ^ 28) < x.apA.toInt) :
    0 ≤ v.toInt - (apOut x ap v).toInt ∧ (2 ^ 28 + x.apA.toInt) * (v.toInt - (apOut x ap v).toInt) < 2 ^ 28 := by
  have hap := apState_toInt x ap v
  have hout := apOut_toInt x ap v
  rw [h] at hap
  generalize (apOut x ap v).toInt = c at hap hout ⊢
  have hsum : x.apA.toInt * v.toInt + ap.toInt = 2 ^ 28 * c + (2 ^ 28 + x.apA.toInt) * (v.toInt - c) := by
    rw [hap]
    ring
  have hv := v.le_toInt
  have hv' := v.toInt_lt
  rw [hsum] at hout
  have hneg : v.toInt - c < 0 → (2 ^ 28 + x.apA.toInt) * (v.toInt - c) < 0 := fun hc => by nlinarith
  have hnonpos : v.toInt - c ≤ 0 → (2 ^ 28 + x.apA.toInt) * (v.toInt - c) ≤ 0 := fun hc => by nlinarith
  generalize (2 ^ 28 + x.apA.toInt) * (v.toInt - c) = e at hout hneg hnonpos ⊢
  omega

/-- The output's error is the all-pass's and the difference of the lowpass values; saturation only takes it toward 0. -/
theorem outputAtDc_of_allpass_error {x : Crossfeed} {input own other c : Word} (hgain : -(2 ^ 28) < x.apA.toInt)
    (herror : 0 ≤ other.toInt - c.toInt ∧ (2 ^ 28 + x.apA.toInt) * (other.toInt - c.toInt) < 2 ^ 28) :
    outputAtDc x input.toInt own.toInt other.toInt (sat 32 (input.toInt - own.toInt + c.toInt)).toInt := by
  obtain ⟨hnonneg, hlt⟩ := herror
  have hlo := input.le_toInt
  have hhi := input.toInt_lt
  rw [outputAtDc, sat32_toInt]
  constructor
  · omega
  · refine lt_of_le_of_lt (mul_le_mul_of_nonneg_left (a := 2 ^ 28 + x.apA.toInt) ?_ (by omega)) hlt
    omega

/-- The DC law, from the four settled filters. -/
theorem crossfeedDcLaw_of_settled (f : Flight) : crossfeedDcLaw f := by
  rintro ⟨hon, _, hsettled⟩ hgain
  rw [stageCrossfeed_of_enabled hon] at hsettled ⊢
  have hlpL : lpOut f.st.xf f.st.xf.lpL f.l = f.st.xf.lpL := congrArg Crossfeed.lpL hsettled
  have hlpR : lpOut f.st.xf f.st.xf.lpR f.r = f.st.xf.lpR := congrArg Crossfeed.lpR hsettled
  have hapL : apState f.st.xf f.st.xf.apL (lpOut f.st.xf f.st.xf.lpL f.l) = f.st.xf.apL :=
    congrArg Crossfeed.apL hsettled
  have hapR : apState f.st.xf f.st.xf.apR (lpOut f.st.xf f.st.xf.lpR f.r) = f.st.xf.apR :=
    congrArg Crossfeed.apR hsettled
  have houtL := outputAtDc_of_allpass_error (input := f.l) (own := lpOut f.st.xf f.st.xf.lpL f.l) hgain
    (allpass_error_of_settled hapR hgain)
  have houtR := outputAtDc_of_allpass_error (input := f.r) (own := lpOut f.st.xf f.st.xf.lpR f.r) hgain
    (allpass_error_of_settled hapL hgain)
  refine ⟨lowpassAtDc_of_settled hlpL, lowpassAtDc_of_settled hlpR, ?_, ?_⟩
  · simpa only [crossfeed, hlpL, hlpR] using houtL
  · simpa only [crossfeed, hlpL, hlpR] using houtR

/-- Settles O33: the stage by its enable flag, the corner cases, and the DC law from the two settled filters. -/
theorem crossfeedMixesTheLowpassedInputs : Obligations.CrossfeedMixesTheLowpassedInputs := by
  refine ⟨fun f hoff => stageCrossfeed_of_disabled hoff, fun f hon => ?_, fun f hzero => ?_,
    fun x z v w ha => apOut_apState_of_zero ha z v w, crossfeedDcLaw_of_settled⟩
  · refine ⟨crossfeed f, fun v => min (max v (-(2 ^ 31))) (2 ^ 31 - 1), _, _, _, _, (stageCrossfeed_of_enabled hon).symm,
      fun _ => rfl, lpOut_toInt .., lpOut_toInt .., apOut_toInt .., apOut_toInt .., sat32_toInt _, sat32_toInt _, rfl, rfl, rfl,
      apState_toInt_sub .., apState_toInt_sub .., rfl⟩
  · cases hen : xfEnabled f.st.regs with
    | false => exact stageCrossfeed_of_disabled hen
    | true => rw [stageCrossfeed_of_enabled hen, crossfeed_of_zero hzero]

end Sys2Proof.Machine
end

section
/-! PROOFS. What a frame leaves unchanged, its two handoffs, the delay law and the identity pipeline (42_dsp_pipeline.md sections 2
and 3). -/

namespace Sys2Proof.Machine

/-! What the handoffs and a frame may write. -/

theorem queuePush_shape (m : Msg) (s : State) :
    queuePush m s = { s with
      queue := ⟨(queuePush m s).queue.buf, (queuePush m s).queue.head, s.queue.tail⟩
      cnt := (queuePush m s).cnt } := by
  obtain ⟨_, h⟩ | ⟨_, h⟩ := queuePush_cases m s
  · rw [h]
    rfl
  · rw [h]

theorem spdifAppend_shape (l r : BitVec 16) (s : State) :
    spdifAppend l r s = { s with
      spdif := (spdifAppend l r s).spdif
      pkt := { s.pkt with dropped := (spdifAppend l r s).pkt.dropped } } := by
  obtain ⟨_, _, h⟩ | ⟨_, _, _, _, h⟩ | ⟨_, _, h⟩ := spdifAppend_cases l r s <;> rw [h]

/-- All a frame may write: the biquad, loudness and crossfeed states, the queue's buffer and head, a counter, the S/PDIF pool,
the delay lines, and the packet's drop flag and peaks. -/
theorem frame_shape (w : Word) (s : State) :
    frame w s = { s with
      bq := (frame w s).bq
      lstate := (frame w s).lstate
      xf := { (frame w s).xf with lpA0 := s.xf.lpA0, lpB1 := s.xf.lpB1, apA := s.xf.apA }
      queue := { (frame w s).queue with tail := s.queue.tail }
      cnt := (frame w s).cnt
      spdif := (frame w s).spdif
      delay := (frame w s).delay
      pkt := { s.pkt with dropped := (frame w s).pkt.dropped, pacc := (frame w s).pkt.pacc } } := by
  have hpath := (passed_signalPath w s).shape
  have happend := spdifAppend_shape (out16 (signalPath w s).l) (out16 (signalPath w s).r) (signalPath w s).st
  have hpush := queuePush_shape ⟨(signalPath w s).sub, false⟩
    (spdifAppend (out16 (signalPath w s).l) (out16 (signalPath w s).r) (signalPath w s).st)
  rw [← frame_eq] at hpush
  generalize frame w s = t at hpush ⊢
  generalize spdifAppend (out16 (signalPath w s).l) (out16 (signalPath w s).r) (signalPath w s).st = u at hpush happend
  generalize (signalPath w s).st = v at happend hpath
  rw [hpush, happend, hpath]

@[simp] theorem frame_regs (w : Word) (s : State) : (frame w s).regs = s.regs := by rw [frame_shape]
@[simp] theorem frame_par (w : Word) (s : State) : (frame w s).par = s.par := by rw [frame_shape]

theorem frame_dw (w : Word) (s : State) : (frame w s).delay.dw = s.delay.dw + 1#13 := by
  rw [frame_delay, signalPath_delay]

/-- A frame writes each delay line at the write index only. -/
theorem frame_lines_other (w : Word) {s : State} {a : BitVec 13} (h : a ≠ s.delay.dw) :
    readLine (frame w s).delay.lineL a = readLine s.delay.lineL a
      ∧ readLine (frame w s).delay.lineR a = readLine s.delay.lineR a
      ∧ readLine (frame w s).delay.lineSub a = readLine s.delay.lineSub a := by
  simp only [frame_delay, signalPath_delay, readLine_writeLine, if_neg h, and_self]

/-! The two handoffs (R237, R239). -/

/-- What the handoffs find: the queue, the counters, the pool and the drop flag are as at the start of the frame. -/
theorem signalPath_handoffState (w : Word) (s : State) :
    (signalPath w s).st.queue = s.queue ∧ (signalPath w s).st.cnt = s.cnt ∧ (signalPath w s).st.spdif = s.spdif
      ∧ (signalPath w s).st.regs = s.regs ∧ (signalPath w s).st.pkt.dropped = s.pkt.dropped := by
  rw [(passed_signalPath w s).shape]
  exact ⟨rfl, rfl, rfl, rfl, rfl⟩

theorem frame_queue_of_not_full {s : State} (h : queueFull s.queue = false) (w : Word) :
    queueMessages (frame w s).queue = queueMessages s.queue ++ [⟨(signalPath w s).sub, false⟩]
      ∧ (frame w s).cnt = s.cnt := by
  obtain ⟨hqueue, hcnt, _⟩ := signalPath_handoffState w s
  have hroom : queueFull
      (spdifAppend (out16 (signalPath w s).l) (out16 (signalPath w s).r) (signalPath w s).st).queue = false := by
    rw [spdifAppend_queue, hqueue, h]
  constructor
  · rw [frame_eq, queueMessages_push hroom, spdifAppend_queue, hqueue]
  · rw [frame_eq, queuePush_of_not_full hroom, spdifAppend_cnt, hcnt]

theorem frame_queue_of_full {s : State} (h : queueFull s.queue = true) (w : Word) :
    (frame w s).queue = s.queue ∧ (frame w s).cnt = bump .ringOverrun s.cnt := by
  obtain ⟨hqueue, hcnt, _⟩ := signalPath_handoffState w s
  have hfull : queueFull
      (spdifAppend (out16 (signalPath w s).l) (out16 (signalPath w s).r) (signalPath w s).st).queue = true := by
    rw [spdifAppend_queue, hqueue, h]
  rw [frame_eq, queuePush_of_full hfull, raise_queue, raise_cnt, spdifAppend_queue, spdifAppend_cnt, hqueue, hcnt]
  exact ⟨rfl, rfl⟩

theorem frame_spdif_pkt (w : Word) (s : State) :
    (frame w s).spdif = (spdifAppend (out16 (signalPath w s).l) (out16 (signalPath w s).r) (signalPath w s).st).spdif
      ∧ (frame w s).pkt
        = (spdifAppend (out16 (signalPath w s).l) (out16 (signalPath w s).r) (signalPath w s).st).pkt := by
  rw [frame_eq, queuePush_spdif, queuePush_pkt]
  exact ⟨rfl, rfl⟩

theorem frame_filter (w : Word) (s : State) (a : Nat) :
    (Mem.read bqShape (frame w s).bq a).filter = (Mem.read bqShape s.bq a).filter := by
  rw [frame_eq, queuePush_bq, spdifAppend_bq, (passed_signalPath w s).filters]

/-- Settles O38: the handoffs meet the queue and the pool as the frame found them, and the rest is the frame's shape. -/
theorem frameHandsOffAndKeepsTheRest : Obligations.FrameHandsOffAndKeepsTheRest := by
  intro s w
  obtain ⟨_, _, hspdif, hregs, hdropped⟩ := signalPath_handoffState w s
  obtain ⟨hframeSpdif, hframePkt⟩ := frame_spdif_pkt w s
  refine ⟨signalPath w s, rfl, by rw [frame_shape], fun h => frame_queue_of_not_full h w,
    fun h => frame_queue_of_full h w, ?_, frame_filter w s, by rw [frame_shape], by rw [frame_shape],
    by rw [frame_shape], frame_dw w s, fun _ ha => frame_lines_other w ha, ?_⟩
  · rw [hframeSpdif, hframePkt, spdifAppend, hregs, hspdif]
    cases appendFrame s.regs.chstat (out16 (signalPath w s).l) (out16 (signalPath w s).r) s.spdif with
    | none => exact ⟨rfl, rfl⟩
    | some d => exact ⟨rfl, hdropped⟩
  · rw [frame_shape]

/-! Consecutive frames and the delay lines (R236, R241). -/

@[simp] theorem runFrames_regs (ws : List Word) (s : State) : (runFrames ws s).regs = s.regs := by
  induction ws generalizing s with
  | nil => rfl
  | cons w ws ih => rw [runFrames, ih, frame_regs]

@[simp] theorem runFrames_par (ws : List Word) (s : State) : (runFrames ws s).par = s.par := by
  induction ws generalizing s with
  | nil => rfl
  | cons w ws ih => rw [runFrames, ih, frame_par]

@[simp] theorem runFrames_subDelay (ws : List Word) (s : State) : subDelay (runFrames ws s) = subDelay s := by
  rw [subDelay, runFrames_regs, runFrames_par, subDelay]

/-- Each frame advances the write index by one. -/
theorem runFrames_dw (ws : List Word) (s : State) :
    (runFrames ws s).delay.dw = s.delay.dw + BitVec.ofNat 13 ws.length := by
  induction ws generalizing s with
  | nil => simp [runFrames]
  | cons w ws ih =>
    rw [runFrames, ih, frame_dw, List.length_cons]
    bv_omega

/-- A word of a delay line stays until the write index comes round to it. -/
theorem runFrames_lines {ws : List Word} {s : State} {a : BitVec 13} (h : ws.length ≤ (a - s.delay.dw).toNat) :
    readLine (runFrames ws s).delay.lineL a = readLine s.delay.lineL a
      ∧ readLine (runFrames ws s).delay.lineR a = readLine s.delay.lineR a
      ∧ readLine (runFrames ws s).delay.lineSub a = readLine s.delay.lineSub a := by
  induction ws generalizing s with
  | nil => exact ⟨rfl, rfl, rfl⟩
  | cons w ws ih =>
    rw [List.length_cons] at h
    have hne : a ≠ s.delay.dw := by rintro rfl; simp at h
    obtain ⟨hl, hr, hsub⟩ := frame_lines_other w hne
    obtain ⟨ihl, ihr, ihsub⟩ := ih (s := frame w s) (by rw [frame_dw]; bv_omega)
    exact ⟨ihl.trans hl, ihr.trans hr, ihsub.trans hsub⟩

/-- The words a frame wrote, after fewer frames than a delay line has words. -/
theorem runFrames_cons_lines {ws : List Word} (w : Word) (s : State) (h : ws.length < 8192) :
    readLine (runFrames (w :: ws) s).delay.lineL s.delay.dw = (beforeDelay w s).l
      ∧ readLine (runFrames (w :: ws) s).delay.lineR s.delay.dw = (beforeDelay w s).r
      ∧ readLine (runFrames (w :: ws) s).delay.lineSub s.delay.dw = (beforeDelay w s).sub := by
  obtain ⟨hl, hr, hsub⟩ := runFrames_lines (ws := ws) (s := frame w s) (a := s.delay.dw) (by rw [frame_dw]; bv_omega)
  obtain ⟨hl', hr', hsub'⟩ := frame_lines w s
  exact ⟨hl.trans hl', hr.trans hr', hsub.trans hsub'⟩

/-- A read `d` words behind the write index, `d` frames after the frame of `s`, finds that frame's word. -/
theorem runFrames_readIndex {ws : List Word} {d : BitVec 13} (w : Word) (s : State) (h : d.toNat = ws.length + 1) :
    (runFrames (w :: ws) s).delay.dw - d = s.delay.dw := by
  rw [runFrames_dw, List.length_cons]
  bv_omega

/-- Settles O35: the frame's word stands at its write index, which the read `d` frames later comes to. -/
theorem delayLineReturnsTheSampleLater : Obligations.DelayLineReturnsTheSampleLater := by
  intro s w last ws
  have hne : ∀ {d : BitVec 13}, d.toNat = ws.length + 1 → d ≠ 0#13 := by
    rintro d hd rfl
    simp at hd
  have hshort : ∀ {d : BitVec 13}, d.toNat = ws.length + 1 → ws.length < 8192 := by
    intro d hd
    omega
  refine ⟨fun hd => ?_, fun hd => ?_, fun hd => ?_, fun hd => ?_, fun hd => ?_, fun hd => ?_⟩
  · rw [signalPath_l, lineOut_eq, if_pos hd]
  · rw [signalPath_r, lineOut_eq, if_pos hd]
  · rw [signalPath_sub, lineOut_eq, if_pos hd]
  · obtain ⟨hl, _, _⟩ := runFrames_cons_lines w s (hshort hd)
    rw [signalPath_l, lineOut_eq, runFrames_regs, if_neg (hne hd), runFrames_readIndex w s hd, hl]
  · obtain ⟨_, hr, _⟩ := runFrames_cons_lines w s (hshort hd)
    rw [signalPath_r, lineOut_eq, runFrames_regs, if_neg (hne hd), runFrames_readIndex w s hd, hr]
  · obtain ⟨_, _, hsub⟩ := runFrames_cons_lines w s (hshort hd)
    rw [signalPath_sub, lineOut_eq, runFrames_subDelay, if_neg (hne hd), runFrames_readIndex w s hd, hsub]

/-! The identity pipeline (R240). -/

theorem stageMasterEq_of_bypass {f : Flight} (h : ∀ ch b, (readBq f.st.bq ch b).filter.bypass = true) :
    stageMasterEq f = f := by
  simp only [stageMasterEq, chainL, chainR, chain_of_bands_bypassed (s := f.st) fun b _ => h _ b]

theorem stageOutputEq_of_bypass {f : Flight} (h : ∀ ch b, (readBq f.st.bq ch b).filter.bypass = true) :
    stageOutputEq f = f := by
  simp only [stageOutputEq, chainL, chainR, chainSub, chain_of_bands_bypassed (s := f.st) fun b _ => h _ b]

theorem muteOrScale_unity (x : Word) : muteOrScale false Config.unityQ28 x = x := mulq_unity x

/-- In the identity configuration the samples reach the delay lines as they were normalised, and Sub as their halved sum. -/
theorem beforeDelay_of_identity {s : State} (h : identityConfig s) (w : Word) :
    (beforeDelay w s).l = normSample (frameLeft w) ∧ (beforeDelay w s).r = normSample (frameRight w)
      ∧ (beforeDelay w s).sub = splitSub (normSample (frameLeft w)) (normSample (frameRight w)) := by
  obtain ⟨hbypass, hflags, hmute, hpreamp, hgainL, hgainR, hgainSub, hvol⟩ := h
  have hloud : stageLoudness (stagePreamp (stageNorm w s)) = stageNorm w s := by
    have hpre : stagePreamp (stageNorm w s) = stageNorm w s := by
      simp [stagePreamp, stageNorm, hpreamp, mulq_unity]
    rw [hpre, stageLoudness_of_disabled]
    simp [stageNorm, loudEnabled, hflags]
  have hmaster : stageMasterEq (stageNorm w s) = stageNorm w s := stageMasterEq_of_bypass hbypass
  have hcross : stageCrossfeed (stageMeterMaster (stageNorm w s)) = stageMeterMaster (stageNorm w s) :=
    stageCrossfeed_of_disabled (by simp [stageMeterMaster, stageNorm, xfEnabled, hflags])
  have hout : stageOutputEq (stageSplit (stageMeterMaster (stageNorm w s)))
      = stageSplit (stageMeterMaster (stageNorm w s)) := stageOutputEq_of_bypass hbypass
  rw [beforeDelay, hloud, hmaster, hcross, hout]
  simp [stageMasterVolume, stageGainMute, stageSplit, stageMeterMaster, stageNorm, mutedL, mutedR, mutedSub, masterMuted,
    hflags, hmute, hgainL, hgainR, hgainSub, hvol, muteOrScale_unity]

/-- Settles O36: the samples before the delay lines, and for the last clause a Sub line still at 0 where it is read. -/
theorem identityPipelinePassesSamples : Obligations.IdentityPipelinePassesSamples := by
  intro s w hid
  obtain ⟨hl, hr, hsub⟩ := beforeDelay_of_identity hid w
  refine ⟨fun hd => ?_, fun hd => ?_, ?_, fun ws hzero hlt => ?_⟩
  · rw [signalPath_l, lineOut_eq, if_pos hd, hl, out16_normSample]
  · rw [signalPath_r, lineOut_eq, if_pos hd, hr, out16_normSample]
  · rw [hsub, splitSub_toInt, normSample_toInt, normSample_toInt]
  · have hne : subDelay s ≠ 0#13 := by
      intro h
      simp [h] at hlt
    obtain ⟨_, _, hline⟩ := runFrames_lines (ws := ws) (s := s)
      (a := s.delay.dw + BitVec.ofNat 13 ws.length - subDelay s) (by bv_omega)
    rw [signalPath_sub, lineOut_eq, runFrames_subDelay, if_neg hne, runFrames_dw, hline, hzero]

end Sys2Proof.Machine
end

section
/-! PROOFS. The slots and the cells of a subframe and of a frame (43_spdif.md section 1; 30_encoding.md section 3). -/

namespace Sys2Proof.Machine

/-! Parity (R275). -/

theorem foldl_xor (b : Bool) (bs : List Bool) : bs.foldl xor b = xor b (parityOf bs) := by
  induction bs generalizing b with
  | nil => simp [parityOf]
  | cons c bs ih => rw [parityOf, List.foldl_cons, List.foldl_cons, ih, ih (xor false c), Bool.false_xor, Bool.xor_assoc]

theorem parityOf_cons (b : Bool) (bs : List Bool) : parityOf (b :: bs) = xor b (parityOf bs) := by
  rw [parityOf, List.foldl_cons, Bool.false_xor, foldl_xor]

/-- A list's parity is 1 exactly when it has an odd number of 1 bits. -/
theorem parityOf_iff_odd_count (bs : List Bool) : parityOf bs = decide (bs.count true % 2 = 1) := by
  induction bs with
  | nil => rfl
  | cons b bs ih =>
    cases b with
    | false => rw [parityOf_cons, ih, Bool.false_xor, List.count_cons_of_ne (by decide)]
    | true =>
      rw [parityOf_cons, ih, Bool.true_xor, List.count_cons_self, ← decide_not, decide_eq_decide]
      omega

/-- P makes the parity of slots 4 to 31 even. -/
theorem parityOf_subframeSlots (s : BitVec 16) (c : Bool) : parityOf (subframeSlots s c) = false := by
  rw [subframeSlots, parityOf, List.foldl_append, foldl_xor false]
  simp

theorem even_count_subframeSlots (s : BitVec 16) (c : Bool) : (subframeSlots s c).count true % 2 = 0 := by
  have hparity := parityOf_subframeSlots s c
  rw [parityOf_iff_odd_count, decide_eq_false_iff_not] at hparity
  omega

/-- Counting the true entries of a list by index. -/
theorem length_filter_range_getD (bs : List Bool) :
    ((List.range bs.length).filter fun i => bs.getD i false).length = bs.count true := by
  induction bs with
  | nil => rfl
  | cons b bs ih =>
    rw [List.length_cons, List.range_succ_eq_map, List.filter_cons, List.filter_map]
    cases b with
    | false => simpa [Function.comp_def] using ih
    | true => simpa [Function.comp_def] using ih

/-! The cells of a subframe. -/

/-- The level after coding a list of bits turns over once for each bit and once more for each 1. -/
theorem bmc_getLastD (lvl : Bool) (bs : List Bool) :
    (bmc lvl bs).getLastD lvl = xor (xor lvl (parityOf bs)) (decide (bs.length % 2 = 1)) := by
  induction bs generalizing lvl with
  | nil => simp [bmc, parityOf]
  | cons b bs ih =>
    have hlast : (bmc lvl (b :: bs)).getLastD lvl = (bmc (xor (!lvl) b) bs).getLastD (xor (!lvl) b) := by
      rw [bmc_cons, List.getLastD_cons, List.getLastD_cons]
    have hodd : decide ((bs.length + 1) % 2 = 1) = !decide (bs.length % 2 = 1) := by
      rw [← decide_not, decide_eq_decide]
      omega
    rw [hlast, ih, parityOf_cons, List.length_cons, hodd]
    cases lvl <;> cases b <;> simp

/-- A subframe ends at the level it began from: 28 slots, an even number of them 1 (R274). -/
theorem encSubframe_getLast? (s : BitVec 16) (pre : Preamble) (c : Bool) :
    (encSubframe s pre c).getLast? = some false := by
  have hlast := bmc_getLastD false (subframeSlots s c)
  rw [parityOf_subframeSlots, subframeSlots_length] at hlast
  have hne : bmc false (subframeSlots s c) ≠ [] := by
    rw [← List.length_pos_iff, bmc_length, subframeSlots_length]
    decide
  rw [encSubframe, List.getLast?_append_of_ne_nil _ hne, List.getLast?_eq_some_getLast hne]
  rw [List.getLastD_eq_getLast?, List.getLast?_eq_some_getLast hne] at hlast
  exact congrArg some hlast

/-- The first eight cells are the preamble. -/
theorem encSubframe_take (s : BitVec 16) (pre : Preamble) (c : Bool) :
    (encSubframe s pre c).take 8 = preambleCells pre := by
  cases pre <;> rfl

theorem slotValue_sample (s : BitVec 16) (pre : Preamble) (c : Bool) {i : Nat} (hi : i < 16) :
    slotValue (encSubframe s pre c) (8 + i) = s.getLsbD i := by
  rw [slotValue_encSubframe s pre c (by omega)]
  interval_cases i <;> rfl

theorem slotValue_aux (s : BitVec 16) (pre : Preamble) (c : Bool) {i : Nat} (hi : i < 8) :
    slotValue (encSubframe s pre c) i = false := by
  rw [slotValue_encSubframe s pre c (by omega)]
  interval_cases i <;> rfl

theorem even_slotValues (s : BitVec 16) (pre : Preamble) (c : Bool) :
    ((List.range 28).filter fun i => slotValue (encSubframe s pre c) i).length % 2 = 0 := by
  have hslots : (List.range 28).filter (fun i => slotValue (encSubframe s pre c) i)
      = (List.range (subframeSlots s c).length).filter fun i => (subframeSlots s c).getD i false :=
    List.filter_congr fun i hi => slotValue_encSubframe s pre c (List.mem_range.mp hi)
  rw [hslots, length_filter_range_getD, even_count_subframeSlots]

/-! The words of a frame (R277). -/

/-- A packed word's bits, sent bit 31 first, are its cells. -/
theorem bitsOfWord_packWord {cells : List Bool} (h : cells.length = 32) : bitsOfWord (packWord cells) = cells := by
  refine List.ext_getElem (by simp [bitsOfWord, h]) fun j hj hj' => ?_
  rw [h] at hj'
  simp only [bitsOfWord, List.getElem_map, List.getElem_range]
  rw [packWord_getLsbD h hj', List.getD_eq_getElem]

/-- The two words of a subframe carry its 64 cells. -/
theorem bitsOfWord_subframe (s : BitVec 16) (pre : Preamble) (c : Bool) :
    bitsOfWord (packWord ((encSubframe s pre c).take 32)) ++ bitsOfWord (packWord ((encSubframe s pre c).drop 32))
      = encSubframe s pre c := by
  have hlen := encSubframe_length s pre c
  rw [bitsOfWord_packWord (by simp [hlen]), bitsOfWord_packWord (by simp [hlen]), List.take_append_drop]

theorem frameCells_encFrame (chstat : Word) (k : Nat) (l r : BitVec 16) :
    frameCells (encFrame chstat k l r)
      = encSubframe l (preambleA k) (csBit chstat k) ++ encSubframe r .y (csBit chstat k) := by
  have hl := bitsOfWord_subframe l (preambleA k) (csBit chstat k)
  have hr := bitsOfWord_subframe r .y (csBit chstat k)
  have hwords : encFrame chstat k l r = [encFrameWord chstat k l r 0, encFrameWord chstat k l r 1,
      encFrameWord chstat k l r 2, encFrameWord chstat k l r 3] := rfl
  rw [hwords, frameCells, List.flatMap_cons, List.flatMap_cons, List.flatMap_cons, List.flatMap_singleton,
    ← List.append_assoc]
  exact congrArg₂ _ hl hr

/-- Settles O41: slot by slot, then the parity, the last cell and the words of a frame. -/
theorem framesCarrySamplesAndParity : Obligations.FramesCarrySamplesAndParity := by
  refine ⟨fun s pre c => ⟨encSubframe_take s .z c, encSubframe_take s .x c, encSubframe_take s .y c,
    fun _ hi => slotValue_aux s pre c hi, fun _ hi => slotValue_sample s pre c hi, ?_, ?_, ?_, even_slotValues s pre c,
    encSubframe_getLast? s pre c⟩, frameCells_encFrame⟩
  · exact slotValue_encSubframe s pre c (by decide)
  · exact slotValue_encSubframe s pre c (by decide)
  · exact slotValue_encSubframe s pre c (by decide)

end Sys2Proof.Machine
end

section
/-! PROOFS. A packet as N + 2 turns of CMD (41_ingest.md R200 to R203). -/

namespace Sys2Proof.Machine

/-! The counters over frames. -/

theorem frame_cnt_cases (w : Word) (s : State) :
    (frame w s).cnt = s.cnt ∨ (frame w s).cnt = bump .ringOverrun s.cnt := by
  cases h : queueFull s.queue with
  | false =>
    obtain ⟨_, hcnt⟩ := frame_queue_of_not_full h w
    exact .inl hcnt
  | true =>
    obtain ⟨_, hcnt⟩ := frame_queue_of_full h w
    exact .inr hcnt

theorem frame_pktCount (w : Word) (s : State) : (frame w s).cnt.pktCount = s.cnt.pktCount := by
  obtain h | h := frame_cnt_cases w s <;> rw [h]
  rfl

theorem runFrames_pktCount (ws : List Word) (s : State) : (runFrames ws s).cnt.pktCount = s.cnt.pktCount := by
  induction ws generalizing s with
  | nil => rfl
  | cons w ws ih => rw [runFrames, ih, frame_pktCount]

/-! The sequencer is no input of frames and of the end step. -/

theorem runFrames_setSeq (q : CmdSeq) (ws : List Word) (s : State) :
    runFrames ws { s with cmdSeq := q } = { runFrames ws s with cmdSeq := q } := by
  induction ws generalizing s with
  | nil => rfl
  | cons w ws ih => rw [runFrames, frame_setSeq, ih, runFrames]

theorem endStep_setSeq (q : CmdSeq) (s : State) : endStep { s with cmdSeq := q } = endStep s := by
  rw [endStep_eq_update, endStep_eq_update]

/-! The turns of CMD. -/

theorem turns_succ_of_next {a : Agent} {s t : State} (h : agentStep a s = .next t) (n : Nat) :
    turns a (n + 1) s = turns a n t := by
  rw [turns, h]

theorem turns_one_of_next {a : Agent} {s t : State} (h : agentStep a s = .next t) : turns a 1 s = .next t :=
  turns_succ_of_next h 0

theorem agentStep_cmd_of_pktFrame {s : State} {k : Nat} (h : s.cmdSeq = .pktFrame k) :
    agentStep .cmd s = .next (frameStep k s) := by
  simp [agentStep, enabled, cmdStep, h]

theorem frameWord_of_getElem? {p : Packet} {k : Nat} {f : Word} (h : p.frames[k]? = some f) : frameWord p k = f := by
  simp [frameWord, List.getD_eq_getElem?_getD, h]

theorem frameStep_of_lt {s : State} {k : Nat} (h : k + 1 < s.pkt.n.toNat) :
    frameStep k s = { frame (frameWord s.pkt k) s with cmdSeq := .pktFrame (k + 1) } := by
  simp [frameStep, h]

theorem frameStep_of_le {s : State} {k : Nat} (h : s.pkt.n.toNat ≤ k + 1) :
    frameStep k s = { frame (frameWord s.pkt k) s with cmdSeq := .pktEnd } := by
  simp [frameStep, Nat.not_lt.mpr h]

theorem endStep_runFrames_setSeq (q : CmdSeq) (ws : List Word) (s : State) :
    endStep (runFrames ws { s with cmdSeq := q }) = endStep (runFrames ws s) := by
  rw [runFrames_setSeq, endStep_setSeq]

/-- The words a packet in progress has still to run are run one turn each, and one more turn ends the packet. -/
theorem turns_cmd_of_pktFrame (w : Word) (ws : List Word) (k : Nat) (s : State) (hseq : s.cmdSeq = .pktFrame k)
    (hwords : s.pkt.frames.drop k = w :: ws) (hlen : s.pkt.frames.length = s.pkt.n.toNat) :
    turns .cmd (ws.length + 2) s = .next (endStep (runFrames (w :: ws) s)) := by
  have hword : frameWord s.pkt k = w := frameWord_of_getElem? (by simp [← List.head?_drop, hwords])
  have hleft := congrArg List.length hwords
  rw [List.length_drop, List.length_cons, hlen] at hleft
  have hstep := agentStep_cmd_of_pktFrame hseq
  induction ws generalizing w k s with
  | nil =>
    rw [List.length_nil] at hleft
    rw [frameStep_of_le (by omega), hword] at hstep
    calc turns .cmd 2 s
        = turns .cmd 1 { frame w s with cmdSeq := .pktEnd } := turns_succ_of_next hstep 1
      _ = .next (endStep { frame w s with cmdSeq := .pktEnd }) := turns_one_of_next (agentStep_cmd_of_pktEnd rfl)
      _ = .next (endStep (frame w s)) := by rw [endStep_setSeq]
  | cons v ws ih =>
    rw [List.length_cons] at hleft
    rw [frameStep_of_lt (by omega), hword] at hstep
    have hpkt : (frame w s).pkt.frames = s.pkt.frames ∧ (frame w s).pkt.n = s.pkt.n := by
      rw [frame_shape]
      exact ⟨rfl, rfl⟩
    obtain ⟨hframes, hn⟩ := hpkt
    have hdrop : s.pkt.frames.drop (k + 1) = v :: ws := by rw [← List.tail_drop, hwords, List.tail_cons]
    have hnext := ih v (k + 1) { frame w s with cmdSeq := .pktFrame (k + 1) } rfl (by simpa [hframes] using hdrop)
      (by simpa [hframes, hn] using hlen) (frameWord_of_getElem? (by simp [hframes, ← List.head?_drop, hdrop]))
      (by simp only [hn]; omega) (agentStep_cmd_of_pktFrame rfl)
    calc turns .cmd (ws.length + 3) s
        = turns .cmd (ws.length + 2) { frame w s with cmdSeq := .pktFrame (k + 1) } := turns_succ_of_next hstep _
      _ = .next (endStep (runFrames (v :: ws) { frame w s with cmdSeq := .pktFrame (k + 1) })) := hnext
      _ = .next (endStep (runFrames (v :: ws) (frame w s))) := by rw [endStep_runFrames_setSeq]

/-- What the start step leaves to the frame steps. -/
theorem latchPacket_spec (n : BitVec 16) (gap : Word) (fs : List Word) (s : State) :
    (latchPacket n gap fs s).cmdSeq = .pktFrame 0 ∧ (latchPacket n gap fs s).pkt.frames = fs
      ∧ (latchPacket n gap fs s).pkt.n = n := ⟨rfl, rfl, rfl⟩

theorem packetGap_pktCount (gap : Word) (s : State) : (packetGap gap s).cnt.pktCount = s.cnt.pktCount := by
  obtain ⟨_, h⟩ | ⟨_, _, _, h⟩ | ⟨_, _, h⟩ := packetGap_cases gap s <;> rw [h] <;> rfl

/-- Settles O24: the first turn decodes and starts the packet, `turns_cmd_of_pktFrame` gives the others, and a frame step
is by its index. -/
theorem packetRunsInNPlusTwoSteps : Obligations.PacketRunsInNPlusTwoSteps := by
  refine ⟨fun s w n gap fs rest hop himm hcount hlen hidle hport => ?_, fun s k f hseq hf => ?_⟩
  · have hdecode : decode s.port = .command (.packet n gap fs) rest := by
      rw [hport]
      exact decode_packet hop himm hlen gap rest
    have hexec := exec_packet_of_countOk hcount gap fs { s with port := rest }
    have hstart : agentStep .cmd s = exec (.packet n gap fs) { s with port := rest } := by
      rw [agentStep_cmd_of_idle hidle, cmdIdle_of_command hdecode]
    have hpktCount := packetGap_pktCount gap (countPacket { s with port := rest })
    rw [hexec] at hstart
    generalize packetGap gap (countPacket { s with port := rest }) = g at hexec hstart hpktCount
    obtain ⟨hseq, hframes, hn⟩ := latchPacket_spec n gap fs g
    refine ⟨_, hexec, ?_, by rw [endStep_eq_update], ?_⟩
    · obtain ⟨hmin, _⟩ := (packetCountOk_iff n).mp hcount
      obtain ⟨v, ws, rfl⟩ : ∃ v ws, fs = v :: ws := List.exists_cons_of_length_pos (by omega)
      rw [turns_succ_of_next hstart, ← hlen]
      exact turns_cmd_of_pktFrame v ws 0 _ hseq (by rw [hframes, List.drop_zero]) (by rw [hframes, hn, hlen])
    · rw [endStep_eq_update]
      exact (runFrames_pktCount fs _).trans hpktCount
  · refine ⟨_, agentStep_cmd_of_pktFrame hseq, fun hlt => ?_, fun hle => ?_⟩
    · rw [frameStep_of_lt hlt, frameWord_of_getElem? hf]
    · rw [frameStep_of_le hle, frameWord_of_getElem? hf]

end Sys2Proof.Machine
end

section
/-! PROOFS. Each agent writes only its own state (20_memory.md section 5). -/

namespace Sys2Proof.Machine

/-! The transmitter. -/

/-- All a turn of the transmitter can do: wait, start, move on in a block, or end it with the next one or with silence. -/
theorem txStep_cases (s : State) :
    (s.txSeq = .idle ∧ txStep s = s)
      ∨ (∃ id rest, s.txSeq = .idle ∧ s.spdif.ready = id :: rest
        ∧ txStep s
          = { s with spdif := { s.spdif with ready := rest, running := true }, txSeq := .run (.buffer id) 0 })
      ∨ (∃ src p q, s.txSeq = .run src p ∧ txStep s = { emitSpdif (txWord src p s) s with txSeq := .run src q })
      ∨ (∃ src p, s.txSeq = .run src p ∧ s.spdif.ready = []
        ∧ txStep s = { raise .spdifUnderrun (emitSpdif (txWord src p s) s) with
            spdif := { s.spdif with free := freeAfter src s.spdif.free }, txSeq := .run .sil 0 })
      ∨ (∃ src p id rest, s.txSeq = .run src p ∧ s.spdif.ready = id :: rest
        ∧ txStep s = { emitSpdif (txWord src p s) s with
            spdif := { s.spdif with free := freeAfter src s.spdif.free, ready := rest }, txSeq := .run (.buffer id) 0 }) := by
  cases hseq : s.txSeq with
  | idle =>
    have hstep : txStep s = txStart s := by rw [txStep, hseq]
    obtain ⟨_, h⟩ | ⟨id, rest, hready, h⟩ := txStart_cases s
    · exact .inl ⟨rfl, hstep.trans h⟩
    · exact .inr (.inl ⟨id, rest, rfl, hready, hstep.trans h⟩)
  | run src p =>
    have hstep : txStep s = txRun src p s := by rw [txStep, hseq]
    refine .inr (.inr ?_)
    by_cases hp : p.val = 767
    · refine .inr ?_
      rw [hstep, txRun_of_last hp, releaseSource_eq]
      cases hready : s.spdif.ready with
      | nil => exact .inl ⟨src, p, rfl, rfl, by rw [nextBlock_of_ready_nil (by exact hready)]; rfl⟩
      | cons id rest =>
        exact .inr ⟨src, p, id, rest, rfl, rfl, by rw [nextBlock_of_ready_cons (by exact hready)]; rfl⟩
    · have hlt : p.val + 1 < 768 := by omega
      exact .inl ⟨src, p, ⟨p.val + 1, hlt⟩, rfl, by rw [hstep, txRun_of_lt (q := ⟨p.val + 1, hlt⟩) rfl]⟩

/-- All a turn of the transmitter may write. -/
theorem txStep_shape (s : State) :
    txStep s = { s with
      txSeq := (txStep s).txSeq
      out := { s.out with spdif := (txStep s).out.spdif }
      cnt := { s.cnt with spdifUnderrun := (txStep s).cnt.spdifUnderrun }
      spdif := { s.spdif with
        free := (txStep s).spdif.free, ready := (txStep s).spdif.ready, running := (txStep s).spdif.running } } := by
  obtain ⟨_, h⟩ | ⟨_, _, _, _, h⟩ | ⟨_, _, _, _, h⟩ | ⟨_, _, _, _, h⟩ | ⟨_, _, _, _, _, _, h⟩ := txStep_cases s <;>
    rw [h] <;> rfl

/-! The modulator. -/

/-- All an acquisition may write. -/
theorem acquire_shape (l : Nat) (s : State) :
    acquire l s = { s with
      pdm := { (acquire l s).pdm with pri := s.pdm.pri }
      modSeq := (acquire l s).modSeq
      queue := { s.queue with tail := (acquire l s).queue.tail } } := by
  obtain ⟨_, _, h⟩ | ⟨_, _, h⟩ | ⟨_, _, h⟩ | ⟨_, _, h⟩ := acquire_cases l s <;> rw [h] <;> rfl

/-- All the production of a chunk may write. -/
theorem produceChunk_shape (s : State) :
    produceChunk s = { s with
      pdm := { (produceChunk s).pdm with pri := s.pdm.pri, target := s.pdm.target, mode := s.pdm.mode }
      ditherIn := (produceChunk s).ditherIn
      draws := (produceChunk s).draws } := by
  obtain ⟨_, h⟩ | ⟨_, h⟩ := produceChunk_cases s
  · rw [h]
    rfl
  · generalize decisions s.pdm.target (ditherValue s) 32 s.pdm.err1 s.pdm.err2 = d at h
    obtain ⟨_, hd⟩ | ⟨_, _, _, hd⟩ := ditherAdvance_cases s <;> rw [h, hd] <;> rfl

/-- All a chunk step can do: go on to the next chunk, or end the sample, with a leak where it was modulated. -/
theorem modChunk_cases (c : Fin 8) (s : State) :
    (∃ c' : Fin 8, c'.val = c.val + 1 ∧ modChunk c s = { produceChunk s with modSeq := .chunk c' })
      ∨ (c.val = 7 ∧ s.pdm.mode = .modulate ∧ modChunk c s = { leak (produceChunk s) with modSeq := .start })
      ∨ (c.val = 7 ∧ s.pdm.mode = .silence ∧ modChunk c s = { produceChunk s with modSeq := .start }) := by
  have hmode : (produceChunk s).pdm.mode = s.pdm.mode := by rw [produceChunk_shape]
  by_cases hc : c.val + 1 < 8
  · exact .inl ⟨⟨c.val + 1, hc⟩, rfl, by simp [modChunk, hc]⟩
  · have hlast : modChunk c s = finishSample (produceChunk s) := by simp [modChunk, hc]
    rw [hlast, finishSample, hmode]
    cases s.pdm.mode with
    | modulate => exact .inr (.inl ⟨by omega, rfl, rfl⟩)
    | silence => exact .inr (.inr ⟨by omega, rfl, rfl⟩)

/-- All a turn of the modulator can do. -/
theorem modStep_cases (s : State) :
    (s.modSeq = .start ∧ leadUnderrun s.pdm = false ∧ modStep s = acquire (lead s.pdm) s)
      ∨ (s.modSeq = .start ∧ leadUnderrun s.pdm = true ∧ modStep s = acquire s.par.targetLead (recoverUnderrun s))
      ∨ (∃ c, s.modSeq = .chunk c ∧ modStep s = modChunk c s) := by
  cases hseq : s.modSeq with
  | start =>
    have hstep : modStep s = modStart s := by rw [modStep, hseq]
    cases hu : leadUnderrun s.pdm with
    | false => exact .inl ⟨rfl, rfl, by rw [hstep, modStart_of_not_underrun hu]⟩
    | true => exact .inr (.inl ⟨rfl, rfl, by rw [hstep, modStart_of_underrun hu]⟩)
  | chunk c => exact .inr (.inr ⟨c, rfl, by rw [modStep, hseq]⟩)

theorem modChunk_shape (c : Fin 8) (s : State) :
    modChunk c s = { s with
      pdm := { (modChunk c s).pdm with pri := s.pdm.pri, target := s.pdm.target, mode := s.pdm.mode }
      modSeq := (modChunk c s).modSeq
      ditherIn := (modChunk c s).ditherIn
      draws := (modChunk c s).draws } := by
  obtain ⟨_, _, h⟩ | ⟨_, _, h⟩ | ⟨_, _, h⟩ := modChunk_cases c s <;> rw [h, produceChunk_shape]
  rfl

/-- All a turn of the modulator may write. -/
theorem modStep_shape (s : State) :
    modStep s = { s with
      pdm := { (modStep s).pdm with pri := s.pdm.pri }
      modSeq := (modStep s).modSeq
      queue := { s.queue with tail := (modStep s).queue.tail }
      cnt := { s.cnt with pdmUnderrun := (modStep s).cnt.pdmUnderrun }
      ditherIn := (modStep s).ditherIn
      draws := (modStep s).draws } := by
  obtain ⟨_, _, h⟩ | ⟨_, _, h⟩ | ⟨c, _, h⟩ := modStep_cases s
  · rw [h, acquire_shape]
  · rw [h, acquire_shape]
    rfl
  · rw [h, modChunk_shape]

/-! CMD. -/

/-- What CMD leaves to the other agents (20_memory.md section 5). -/
structure CmdKeeps (s t : State) : Prop where
  pdm : t.pdm = s.pdm
  tail : t.queue.tail = s.queue.tail
  txSeq : t.txSeq = s.txSeq
  modSeq : t.modSeq = s.modSeq
  running : t.spdif.running = s.spdif.running
  cells : t.out.spdif = s.out.spdif
  bits : t.out.pdm = s.out.pdm
  pdmUnderrun : t.cnt.pdmUnderrun = s.cnt.pdmUnderrun
  spdifUnderrun : t.cnt.spdifUnderrun = s.cnt.spdifUnderrun
  par : t.par = s.par
  ditherIn : t.ditherIn = s.ditherIn
  draws : t.draws = s.draws

/-- All a command can do to the block, with the state it leaves. The silence block's new memory is a variable, as in
`syncSilblk_spec`. -/
inductive CmdEffect (s : State) : Instr → State → Prop
  | nop : CmdEffect s .nop s
  | reset : CmdEffect s .reset (resetBlock s)
  | refused (i : Instr) (n : Nat) (hn : n ≤ 6) : CmdEffect s i (refuseCommand n s)
  | answered (i : Instr) (ws : List Word) (hlen : ws.length ≤ 6) : CmdEffect s i (respond ws s)
  | setReg (n : BitVec 16) (v : Word) (r : RegId) (m : Mem Word) (hrw : regWritable r = true)
      (hwf : Mem.wf silShape s.spdif.silblk = true → Mem.wf silShape m = true) :
      CmdEffect s (.setReg n v)
        { s with regs := writeReg r (legal r v) s.regs, spdif := { s.spdif with silblk := m } }
  | bqWrite (i : Instr) (c : Channel) (b : Nat) (q : Coefs) (hb : b < s.par.bands c) :
      CmdEffect s i { s with bq := writeBq s.bq c b ⟨filterOf q, BqState.zero⟩ }
  | loudWrite (i : Instr) (k j : Nat) (q : Coefs) (hk : k ≤ 90) (hj : j ≤ 1) :
      CmdEffect s i { s with loud := writeLoud s.loud (1#1 - s.regs.loudActive) k j (filterOf q) }
  | loudFlip : CmdEffect s .loudFlip { s with regs := { s.regs with loudActive := 1#1 - s.regs.loudActive } }
  | xfWrite (lpA0 lpB1 apA : Word) :
      CmdEffect s (.xfWrite lpA0 lpB1 apA) { s with xf := ⟨lpA0, lpB1, apA, 0#32, 0#32, 0#64, 0#64⟩ }
  | setRate (r : Word) (m : Mem Word) (hwf : Mem.wf silShape s.spdif.silblk = true → Mem.wf silShape m = true) :
      CmdEffect s (.setRate r)
        { s with regs := rateRegs s.par (supportedRate r) s.regs, spdif := { s.spdif with silblk := m } }
  | packet (n : BitVec 16) (gap : Word) (fs : List Word) (hcount : packetCountOk n = true) :
      CmdEffect s (.packet n gap fs) (latchPacket n gap fs (packetGap gap (countPacket s)))
  | pdmMark : CmdEffect s .pdmMark (queuePush ⟨0#32, true⟩ s)

theorem slotOf_some {p : Params} {ch band : BitVec 4} {c : Channel} {b : Nat} (h : slotOf p ch band = some (c, b)) :
    b < p.bands c := by
  unfold slotOf at h
  split at h
  · cases h
  · split at h <;> cases h
    assumption

theorem loudEntryOf_some {shelf : BitVec 4} {volStep : BitVec 16} {k j : Nat}
    (h : loudEntryOf shelf volStep = some (k, j)) : k ≤ 90 ∧ j ≤ 1 := by
  unfold loudEntryOf at h
  split at h <;> cases h
  omega

theorem storeReg_effect (n : BitVec 16) {r : RegId} (hrw : regWritable r = true) (v : Word) (s : State) :
    CmdEffect s (.setReg n v) (storeReg r v s) := by
  unfold storeReg
  by_cases hr : r = .chstat
  · obtain ⟨m, _, hwf, heq⟩ := syncSilblk_spec { s with regs := writeReg r (legal r v) s.regs }
    rw [if_pos hr, heq]
    exact .setReg n v r m hrw hwf
  · rw [if_neg hr]
    exact .setReg n v r s.spdif.silblk hrw id

/-- Every command answers a next state, and `CmdEffect` says which. -/
theorem exec_effect (i : Instr) (s : State) : ∃ t, exec i s = .next t ∧ CmdEffect s i t := by
  cases i with
  | nop => exact ⟨_, rfl, .nop⟩
  | reset => exact ⟨_, rfl, .reset⟩
  | setReg n v =>
    cases hreg : regOf n with
    | none => exact ⟨_, exec_setReg_of_regOf_none hreg v s, refuseCommand_zero s ▸ .refused _ 0 (by decide)⟩
    | some r =>
      cases hrw : regWritable r with
      | false => exact ⟨_, exec_setReg_of_not_writable hreg hrw v s, refuseCommand_zero s ▸ .refused _ 0 (by decide)⟩
      | true => exact ⟨_, exec_setReg_of_writable hreg hrw v s, storeReg_effect n hrw v s⟩
  | getReg n =>
    cases hreg : regOf n with
    | none => exact ⟨_, exec_getReg_of_regOf_none hreg s, .refused _ 1 (by decide)⟩
    | some r => exact ⟨_, exec_getReg_of_regOf_some hreg s, .answered _ _ (by simp)⟩
  | bqWrite ch band b0 b1 b2 a1 a2 =>
    cases hslot : slotOf s.par ch band with
    | none =>
      exact ⟨_, exec_bqWrite_of_no_slot hslot b0 b1 b2 a1 a2, refuseCommand_zero s ▸ .refused _ 0 (by decide)⟩
    | some p => exact ⟨_, exec_bqWrite_of_slot hslot b0 b1 b2 a1 a2, .bqWrite _ _ _ _ (slotOf_some hslot)⟩
  | bqRead ch band =>
    cases hslot : slotOf s.par ch band with
    | none => exact ⟨_, exec_bqRead_of_no_slot hslot, .refused _ 6 (by decide)⟩
    | some p => exact ⟨_, exec_bqRead_of_slot hslot, .answered _ _ (by simp [bqResponse])⟩
  | loudWrite shelf k b0 b1 b2 a1 a2 =>
    cases hentry : loudEntryOf shelf k with
    | none =>
      exact ⟨_, exec_loudWrite_of_no_entry hentry b0 b1 b2 a1 a2 s, refuseCommand_zero s ▸ .refused _ 0 (by decide)⟩
    | some p =>
      obtain ⟨hk, hj⟩ := loudEntryOf_some hentry
      exact ⟨_, exec_loudWrite_of_entry hentry b0 b1 b2 a1 a2 s, .loudWrite _ _ _ _ hk hj⟩
  | loudFlip => exact ⟨_, rfl, .loudFlip⟩
  | xfWrite lpA0 lpB1 apA => exact ⟨_, rfl, .xfWrite ..⟩
  | setRate r =>
    obtain ⟨m, _, hwf, heq⟩ := syncSilblk_spec { s with regs := rateRegs s.par (supportedRate r) s.regs }
    exact ⟨_, congrArg Host.Outcome.next heq, .setRate r m hwf⟩
  | packet n gap fs =>
    cases hcount : packetCountOk n with
    | false =>
      exact ⟨_, exec_packet_of_not_countOk (by simp [hcount]) gap fs s, refuseCommand_zero s ▸ .refused _ 0 (by decide)⟩
    | true => exact ⟨_, exec_packet_of_countOk hcount gap fs s, .packet n gap fs hcount⟩
  | pdmMark => exact ⟨_, rfl, .pdmMark⟩

theorem CmdEffect.of_exec {i : Instr} {s t : State} (h : exec i s = .next t) : CmdEffect s i t := by
  obtain ⟨u, hu, heffect⟩ := exec_effect i s
  cases h.symm.trans hu
  exact heffect

/-! What CMD's steps keep. -/

@[simp] theorem prefillOne_running (chstat : Word) (d : Spdif) : (prefillOne chstat d).running = d.running := by
  obtain ⟨_, h⟩ | ⟨_, _, _, _, _, _, h⟩ := prefillOne_cases chstat d <;> rw [h]

@[simp] theorem prefill_running (chstat : Word) (n : Nat) (d : Spdif) : (prefill chstat n d).running = d.running := by
  induction n generalizing d with
  | zero => rfl
  | succ n ih => rw [prefill, ih, prefillOne_running]

@[simp] theorem storeFrame_running (chstat : Word) (l r : BitVec 16) (id : Fin 8) (k : Fin 192) (d : Spdif) :
    (storeFrame chstat l r id k d).running = d.running := by
  unfold storeFrame
  split <;> rfl

@[simp] theorem spdifAppend_running (l r : BitVec 16) (s : State) :
    (spdifAppend l r s).spdif.running = s.spdif.running := by
  obtain ⟨_, _, h⟩ | ⟨_, _, _, _, h⟩ | ⟨_, _, h⟩ := spdifAppend_cases l r s <;> simp [h]

/-- A command but RESET. -/
theorem CmdEffect.keeps {i : Instr} {s t : State} (h : CmdEffect s i t) (hi : i ≠ .reset) : CmdKeeps s t := by
  cases h with
  | reset => exact absurd rfl hi
  | packet n gap fs _ =>
    obtain ⟨resume, underrun, _, _, hgap⟩ := packetGap_eq_update gap (countPacket s)
    rw [hgap]
    exact ⟨rfl, rfl, rfl, rfl, by cases resume <;> simp [latchPacket], rfl, rfl, rfl, rfl, rfl, rfl, rfl⟩
  | pdmMark =>
    obtain ⟨_, heq⟩ | ⟨_, heq⟩ := queuePush_cases ⟨0#32, true⟩ s <;> rw [heq] <;> constructor <;> rfl
  | _ => constructor <;> rfl

theorem frameStep_keeps (k : Nat) (s : State) : CmdKeeps s (frameStep k s) := by
  have hrunning : (frame (frameWord s.pkt k) s).spdif.running = s.spdif.running := by
    obtain ⟨hframe, _⟩ := frame_spdif_pkt (frameWord s.pkt k) s
    obtain ⟨_, _, hspdif, _⟩ := signalPath_handoffState (frameWord s.pkt k) s
    rw [hframe, spdifAppend_running, hspdif]
  have hcnt : (frame (frameWord s.pkt k) s).cnt.pdmUnderrun = s.cnt.pdmUnderrun
      ∧ (frame (frameWord s.pkt k) s).cnt.spdifUnderrun = s.cnt.spdifUnderrun := by
    obtain h | h := frame_cnt_cases (frameWord s.pkt k) s <;> rw [h] <;> exact ⟨rfl, rfl⟩
  obtain ⟨hpdm, hspdif⟩ := hcnt
  unfold frameStep
  rw [frame_shape]
  exact ⟨rfl, rfl, rfl, rfl, hrunning, rfl, rfl, hpdm, hspdif, rfl, rfl, rfl⟩

theorem endStep_keeps (s : State) : CmdKeeps s (endStep s) := by
  rw [endStep_eq_update]
  constructor <;> rfl

/-- All a turn of CMD can do. -/
theorem cmdStep_cases {s t : State} (h : cmdStep s = .next t) :
    (∃ i rest, s.cmdSeq = .idle ∧ decode s.port = .command i rest ∧ CmdEffect { s with port := rest } i t)
      ∨ (∃ op rest, s.cmdSeq = .idle ∧ decode s.port = .undefinedOp op rest
        ∧ t = raise .cmdInvalid { s with port := rest })
      ∨ (s.cmdSeq = .idle ∧ decode s.port = .incomplete ∧ t = s)
      ∨ (∃ k, s.cmdSeq = .pktFrame k ∧ t = frameStep k s)
      ∨ (s.cmdSeq = .pktEnd ∧ t = endStep s) := by
  unfold cmdStep at h
  split at h
  · next hidle =>
    cases hdecode : decode s.port with
    | command i rest =>
      rw [cmdIdle_of_command hdecode] at h
      exact .inl ⟨i, rest, hidle, rfl, .of_exec h⟩
    | undefinedOp op rest =>
      rw [cmdIdle_of_undefinedOp hdecode] at h
      cases h
      exact .inr (.inl ⟨op, rest, hidle, rfl, rfl⟩)
    | incomplete =>
      rw [cmdIdle_of_incomplete hdecode] at h
      cases h
      exact .inr (.inr (.inl ⟨hidle, rfl, rfl⟩))
  · next k hk =>
    cases h
    exact .inr (.inr (.inr (.inl ⟨k, hk, rfl⟩)))
  · next hend =>
    cases h
    exact .inr (.inr (.inr (.inr ⟨hend, rfl⟩)))

theorem CmdKeeps.refl (s : State) : CmdKeeps s s := by constructor <;> rfl

theorem cmdStep_keeps {s t : State} (h : cmdStep s = .next t)
    (hreset : s.cmdSeq = .idle → ∀ rest, decode s.port ≠ .command .reset rest) : CmdKeeps s t := by
  obtain ⟨i, rest, hidle, hdecode, heffect⟩ | ⟨_, rest, _, _, rfl⟩ | ⟨_, _, rfl⟩ | ⟨k, _, rfl⟩ | ⟨_, rfl⟩ :=
    cmdStep_cases h
  · have hi : i ≠ .reset := by
      rintro rfl
      exact hreset hidle rest hdecode
    obtain ⟨hpdm, htail, htx, hmod, hrun, hcells, hbits, hpu, hsu, hpar, hdither, hdraws⟩ := heffect.keeps hi
    exact ⟨hpdm, htail, htx, hmod, hrun, hcells, hbits, hpu, hsu, hpar, hdither, hdraws⟩
  · constructor <;> rfl
  · exact .refl _
  · exact frameStep_keeps k s
  · exact endStep_keeps s

/-! The guards of the turns add nothing: where an agent is not enabled, its step itself changes nothing. -/

theorem agentStep_spdifTx (s : State) : agentStep .spdifTx s = .next (txStep s) := by
  cases hseq : s.txSeq with
  | run src p =>
    obtain ⟨_, h⟩ := agentStep_spdifTx_of_run hseq
    rw [h, txStep, hseq]
  | idle =>
    obtain ⟨hwait, hstart⟩ := transmitterStartsOnAReadyBuffer s hseq
    obtain ⟨hready, h⟩ | ⟨id, rest, hready, h⟩ := txStart_cases s
    · obtain ⟨_, heq⟩ := hwait hready
      rw [heq, txStep, hseq, h]
    · obtain ⟨_, heq⟩ := hstart id rest hready
      rw [heq, txStep, hseq, h]
      rfl

theorem agentStep_pdmMod (s : State) : agentStep .pdmMod s = .next (modStep s) := by
  cases hseq : s.modSeq with
  | start => rw [agentStep_pdmMod_of_start hseq, modStep, hseq]
  | chunk c => simp [agentStep, enabled, hseq]

theorem agentStep_cmd (s : State) : agentStep .cmd s = cmdStep s := by
  cases hseq : s.cmdSeq with
  | idle => rw [agentStep_cmd_of_idle hseq, cmdStep, hseq]
  | pktFrame k => rw [agentStep_cmd_of_pktFrame hseq, cmdStep, hseq]
  | pktEnd => rw [agentStep_cmd_of_pktEnd hseq, cmdStep, hseq]

/-- Settles O55: agent by agent, from the shape of its step. -/
theorem eachAgentWritesOnlyItsOwnState : Obligations.EachAgentWritesOnlyItsOwnState := by
  refine fun s t => ⟨fun h => ?_, fun h => ?_, fun h => ?_, fun h hreset => ?_⟩
  · rw [agentStep_spdifTx] at h
    cases h
    rw [txStep_shape]
  · rw [agentStep_pdmMod] at h
    cases h
    rw [modStep_shape]
    exact ⟨rfl, rfl⟩
  · rw [agentStep_pdmDma] at h
    cases h
    rfl
  · rw [agentStep_cmd] at h
    obtain ⟨hpdm, htail, htx, hmod, hrun, hcells, hbits, hpu, hsu, hpar, hdither, hdraws⟩ := cmdStep_keeps h hreset
    exact ⟨hpdm, htail, htx, hmod, hrun, hcells, hbits, hpu, hsu, hpar, hdither, hdraws⟩

end Sys2Proof.Machine
end

section
/-! PROOFS. What every step keeps: the streams, the counters, the parameters of a packet and the pool partition (10_state.md
sections 4 and 5; 60_exceptions.md section 1; 20_memory.md section 5). -/

namespace Sys2Proof.Machine

/-! The output streams (R64). -/

/-- What one turn appends to the three streams: at most one word of cells by SPDIF_TX, of bits by PDM_DMA, and six responses by
CMD. -/
structure Appends (a : Agent) (s t : State) (cells bits : List Bool) (words : List Word) : Prop where
  out : t.out = ⟨s.out.spdif ++ cells, s.out.pdm ++ bits, s.out.resp ++ words⟩
  cells_le : cells.length ≤ 32
  bits_le : bits.length ≤ 32
  words_le : words.length ≤ 6
  cells_nil : a ≠ .spdifTx → cells = []
  bits_nil : a ≠ .pdmDma → bits = []
  words_nil : a ≠ .cmd → words = []

theorem Appends.of_out_eq {a : Agent} {s t : State} (h : t.out = s.out) : Appends a s t [] [] [] := by
  constructor <;> simp [h]

theorem bitsOfWord_length (w : Word) : (bitsOfWord w).length = 32 := by simp [bitsOfWord]

theorem txStep_appends (s : State) : ∃ cells, Appends .spdifTx s (txStep s) cells [] [] := by
  have hword : ∀ {t : State} {w : Word}, t.out = { s.out with spdif := s.out.spdif ++ bitsOfWord w } →
      Appends .spdifTx s t (bitsOfWord w) [] [] := by
    intro t w h
    constructor <;> simp [h, bitsOfWord_length]
  obtain ⟨_, h⟩ | ⟨_, _, _, _, h⟩ | ⟨_, _, _, _, h⟩ | ⟨_, _, _, _, h⟩ | ⟨_, _, _, _, _, _, h⟩ := txStep_cases s
  · exact ⟨[], .of_out_eq (by rw [h])⟩
  · exact ⟨[], .of_out_eq (by rw [h])⟩
  · exact ⟨_, hword (by rw [h]; rfl)⟩
  · exact ⟨_, hword (by rw [h]; rfl)⟩
  · exact ⟨_, hword (by rw [h]; rfl)⟩

theorem dmaStep_appends (s : State) : ∃ bits, Appends .pdmDma s (dmaStep s) [] bits [] := by
  refine ⟨bitsOfWord (readRing s.pdm.ring s.pdm.pri), ?_⟩
  constructor <;> simp [dmaStep_out, bitsOfWord_length]

/-- A command only ever appends to the responses, RESET included. -/
theorem CmdEffect.appends {i : Instr} {s t : State} (h : CmdEffect s i t) : ∃ words, Appends .cmd s t [] [] words := by
  have hresp : ∀ {t : State} {ws : List Word}, ws.length ≤ 6 → t.out = { s.out with resp := s.out.resp ++ ws } →
      Appends .cmd s t [] [] ws := by
    intro t ws hlen h
    constructor <;> simp [h, hlen]
  cases h with
  | refused _ n hn => exact ⟨_, hresp (ws := List.replicate n 0#32) (by simpa using hn) rfl⟩
  | answered _ ws hlen => exact ⟨ws, hresp hlen rfl⟩
  | packet n gap fs _ =>
    refine ⟨[], .of_out_eq ?_⟩
    obtain ⟨_, _, _, _, hgap⟩ := packetGap_eq_update gap (countPacket s)
    rw [hgap]
    rfl
  | pdmMark => exact ⟨[], .of_out_eq (queuePush_out s _)⟩
  | _ => exact ⟨[], .of_out_eq rfl⟩

theorem cmdStep_appends {s t : State} (h : cmdStep s = .next t) : ∃ words, Appends .cmd s t [] [] words := by
  obtain ⟨i, rest, _, _, heffect⟩ | ⟨_, _, _, _, rfl⟩ | ⟨_, _, rfl⟩ | ⟨k, _, rfl⟩ | ⟨_, rfl⟩ := cmdStep_cases h
  · obtain ⟨words, happends⟩ := heffect.appends
    exact ⟨words, ⟨happends.out, happends.cells_le, happends.bits_le, happends.words_le, happends.cells_nil,
      happends.bits_nil, happends.words_nil⟩⟩
  · exact ⟨[], .of_out_eq rfl⟩
  · exact ⟨[], .of_out_eq rfl⟩
  · refine ⟨[], .of_out_eq ?_⟩
    unfold frameStep
    rw [frame_shape]
  · exact ⟨[], .of_out_eq (by rw [endStep_eq_update])⟩

theorem agentStep_appends {a : Agent} {s t : State} (h : agentStep a s = .next t) :
    ∃ cells bits words, Appends a s t cells bits words := by
  cases a with
  | cmd =>
    rw [agentStep_cmd] at h
    obtain ⟨words, happends⟩ := cmdStep_appends h
    exact ⟨_, _, _, happends⟩
  | spdifTx =>
    cases (agentStep_spdifTx s).symm.trans h
    obtain ⟨cells, happends⟩ := txStep_appends s
    exact ⟨_, _, _, happends⟩
  | pdmMod =>
    cases (agentStep_pdmMod s).symm.trans h
    exact ⟨_, _, _, .of_out_eq (by rw [modStep_shape])⟩
  | pdmDma =>
    cases (agentStep_pdmDma s).symm.trans h
    obtain ⟨bits, happends⟩ := dmaStep_appends s
    exact ⟨_, _, _, happends⟩

/-- Settles O54: the turn taken is no stream's matter, and each agent's step appends what `Appends` allows it. -/
theorem outputStreamsAreAppendOnly : Obligations.OutputStreamsAreAppendOnly := by
  intro s t hstep
  obtain ⟨cells, bits, words, h⟩ := agentStep_appends hstep
  have hout := h.out
  rw [takeTurn_out] at hout
  exact ⟨cells, bits, words, by rw [hout], by rw [hout], by rw [hout], h.cells_le, h.bits_le, h.words_le, h.cells_nil,
    h.bits_nil, h.words_nil⟩

/-! The parameters of a packet in progress (R115). -/

theorem frameStep_parameters (k : Nat) (s : State) :
    (frameStep k s).regs = s.regs ∧ (frameStep k s).loud = s.loud
      ∧ (∀ a, (Mem.read bqShape (frameStep k s).bq a).filter = (Mem.read bqShape s.bq a).filter)
      ∧ (frameStep k s).xf.lpA0 = s.xf.lpA0 ∧ (frameStep k s).xf.lpB1 = s.xf.lpB1 ∧ (frameStep k s).xf.apA = s.xf.apA
      ∧ (frameStep k s).pkt.act = s.pkt.act ∧ (frameStep k s).pkt.vi = s.pkt.vi ∧ (frameStep k s).pkt.n = s.pkt.n
      ∧ (frameStep k s).pkt.frames = s.pkt.frames ∧ (frameStep k s).port = s.port ∧ (frameStep k s).par = s.par := by
  have hfilter := frame_filter (frameWord s.pkt k) s
  unfold frameStep
  rw [frame_shape] at hfilter ⊢
  exact ⟨rfl, rfl, hfilter, rfl, rfl, rfl, rfl, rfl, rfl, rfl, rfl, rfl⟩

/-- Settles O56: in a packet CMD takes a frame step or the end step, and the other agents write nothing of CMD's. -/
theorem parametersAreFixedDuringAPacket : Obligations.ParametersAreFixedDuringAPacket := by
  intro s t hbusy hstep
  rw [step] at hstep
  have hseq : (takeTurn s).cmdSeq ≠ .idle := by rwa [takeTurn_cmdSeq]
  rw [← takeTurn_regs s, ← takeTurn_loud s, ← takeTurn_bq s, ← takeTurn_xf s, ← takeTurn_pkt s, ← takeTurn_port s,
    ← takeTurn_par s]
  generalize takeTurn s = u at hstep hseq ⊢
  cases ha : nextAgent s with
  | cmd =>
    rw [ha, agentStep_cmd] at hstep
    obtain ⟨_, _, hidle, _⟩ | ⟨_, _, hidle, _⟩ | ⟨hidle, _⟩ | ⟨k, _, rfl⟩ | ⟨_, rfl⟩ := cmdStep_cases hstep
    · exact absurd hidle hseq
    · exact absurd hidle hseq
    · exact absurd hidle hseq
    · exact frameStep_parameters k u
    · rw [endStep_eq_update]
      exact ⟨rfl, rfl, fun _ => rfl, rfl, rfl, rfl, rfl, rfl, rfl, rfl, rfl, rfl⟩
  | spdifTx =>
    rw [ha, agentStep_spdifTx] at hstep
    cases hstep
    rw [txStep_shape]
    exact ⟨rfl, rfl, fun _ => rfl, rfl, rfl, rfl, rfl, rfl, rfl, rfl, rfl, rfl⟩
  | pdmMod =>
    rw [ha, agentStep_pdmMod] at hstep
    cases hstep
    rw [modStep_shape]
    exact ⟨rfl, rfl, fun _ => rfl, rfl, rfl, rfl, rfl, rfl, rfl, rfl, rfl, rfl⟩
  | pdmDma =>
    rw [ha, agentStep_pdmDma] at hstep
    cases hstep
    exact ⟨rfl, rfl, fun _ => rfl, rfl, rfl, rfl, rfl, rfl, rfl, rfl, rfl, rfl⟩

/-! The counters (R430 to R433). -/

theorem countsAtMost.mono {es es' : List Event} {s t : State} (h : countsAtMost es s t) (hsub : es ⊆ es') :
    countsAtMost es' s t := by
  obtain h | ⟨e, he, h⟩ := h
  · exact .inl h
  · exact .inr ⟨e, hsub he, h⟩

theorem countsAtMost.of_raise {e : Event} {s t : State} (h : t.cnt = bump e s.cnt) : countsAtMost [e] s t :=
  .inr ⟨e, List.mem_singleton_self e, h⟩

theorem txStep_counts (s : State) : countsAtMost [.spdifUnderrun] s (txStep s) := by
  obtain ⟨_, h⟩ | ⟨_, _, _, _, h⟩ | ⟨_, _, _, _, h⟩ | ⟨_, _, _, _, h⟩ | ⟨_, _, _, _, _, _, h⟩ := txStep_cases s
  · exact .inl (by rw [h])
  · exact .inl (by rw [h])
  · exact .inl (by rw [h]; rfl)
  · exact .of_raise (by rw [h]; rfl)
  · exact .inl (by rw [h]; rfl)

theorem modChunk_cnt (c : Fin 8) (s : State) : (modChunk c s).cnt = s.cnt := by rw [modChunk_shape]

theorem modStep_counts (s : State) : countsAtMost [.pdmUnderrun] s (modStep s) := by
  obtain ⟨_, _, h⟩ | ⟨_, _, h⟩ | ⟨c, _, h⟩ := modStep_cases s
  · exact .inl (by rw [h, acquire_cnt])
  · exact .of_raise (by rw [h, acquire_cnt]; rfl)
  · exact .inl (by rw [h, modChunk_cnt])

theorem modStep_cnt_of_not_start {s : State} (h : s.modSeq ≠ .start) : (modStep s).cnt = s.cnt := by
  obtain ⟨hstart, _⟩ | ⟨hstart, _⟩ | ⟨c, _, heq⟩ := modStep_cases s
  · exact absurd hstart h
  · exact absurd hstart h
  · rw [heq, modChunk_cnt]

theorem queuePush_counts (m : Msg) (s : State) : countsAtMost [.ringOverrun] s (queuePush m s) := by
  obtain ⟨_, h⟩ | ⟨_, h⟩ := queuePush_cases m s
  · exact .of_raise (by rw [h]; rfl)
  · exact .inl (by rw [h])

theorem frameStep_counts (k : Nat) (s : State) : countsAtMost [.ringOverrun] s (frameStep k s) := by
  obtain h | h := frame_cnt_cases (frameWord s.pkt k) s
  · exact .inl h
  · exact .of_raise h

theorem endStep_counts (s : State) : countsAtMost [.spdifOverrun] s (endStep s) := by
  rw [endStep_eq_update]
  cases s.pkt.dropped with
  | false => exact .inl rfl
  | true => exact .of_raise rfl

/-- The start step of a packet counts the packet, and a gap of 2 ms to 50 ms. -/
theorem packetStart_counts (n : BitVec 16) (gap : Word) (fs : List Word) (s : State) :
    countsAtMost [.usbUnderrun] (countPacket s) (latchPacket n gap fs (packetGap gap (countPacket s))) := by
  obtain ⟨_, h⟩ | ⟨_, _, _, h⟩ | ⟨_, _, h⟩ := packetGap_cases gap (countPacket s)
  · exact .inl (by rw [h]; rfl)
  · exact .of_raise (by rw [h]; rfl)
  · exact .inl (by rw [h]; rfl)

/-- A control command but RESET and PDM_MARK can count only CMD_INVALID. -/
theorem CmdEffect.counts {i : Instr} {s t : State} (h : CmdEffect s i t) (hreset : i ≠ .reset) (hmark : i ≠ .pdmMark)
    (hpacket : ∀ n gap fs, i ≠ .packet n gap fs) : countsAtMost [.cmdInvalid] s t := by
  cases h with
  | reset => exact absurd rfl hreset
  | pdmMark => exact absurd rfl hmark
  | packet n gap fs => exact absurd rfl (hpacket n gap fs)
  | refused _ n _ => exact .of_raise rfl
  | _ => exact .inl rfl

/-- The state whose packet is counted, where a packet starts. -/
def countedPacket (counted : Bool) (s : State) : State :=
  { s with cnt := { s.cnt with pktCount := if counted = true then s.cnt.pktCount + 1#32 else s.cnt.pktCount } }

/-- The six events (60_exceptions.md R431). -/
def allEvents : List Event := [.spdifOverrun, .usbUnderrun, .ringOverrun, .pdmUnderrun, .spdifUnderrun, .cmdInvalid]

theorem mem_allEvents (e : Event) : e ∈ allEvents := by cases e <;> decide

/-- A step that counts no packet. -/
theorem countsAtMost.uncounted {es : List Event} {s t : State} (h : countsAtMost es s t) :
    ∃ counted, countsAtMost allEvents (countedPacket counted s) t :=
  ⟨false, h.mono fun e _ => mem_allEvents e⟩

theorem CmdEffect.countsOnce {i : Instr} {s t : State} (h : CmdEffect s i t) (hreset : i ≠ .reset) :
    ∃ counted, countsAtMost allEvents (countedPacket counted s) t := by
  cases h with
  | reset => exact absurd rfl hreset
  | packet n gap fs _ => exact ⟨true, (packetStart_counts n gap fs s).mono fun e _ => mem_allEvents e⟩
  | pdmMark => exact (queuePush_counts _ s).uncounted
  | refused _ n _ => exact (countsAtMost.of_raise (e := .cmdInvalid) rfl).uncounted
  | _ => exact countsAtMost.uncounted (es := []) (.inl rfl)

theorem cmdStep_counts {s t : State} (h : cmdStep s = .next t)
    (hreset : s.cmdSeq = .idle → ∀ rest, decode s.port ≠ .command .reset rest) :
    ∃ counted, countsAtMost allEvents (countedPacket counted s) t := by
  obtain ⟨i, rest, hidle, hdecode, heffect⟩ | ⟨_, _, _, _, rfl⟩ | ⟨_, _, rfl⟩ | ⟨k, _, rfl⟩ | ⟨_, rfl⟩ :=
    cmdStep_cases h
  · have hi : i ≠ .reset := by
      rintro rfl
      exact hreset hidle rest hdecode
    exact heffect.countsOnce hi
  · exact (countsAtMost.of_raise (s := s) (e := .cmdInvalid) rfl).uncounted
  · exact countsAtMost.uncounted (es := []) (.inl rfl)
  · exact (frameStep_counts k s).uncounted
  · exact (endStep_counts s).uncounted

theorem agentStep_counts {a : Agent} {s t : State} (h : agentStep a s = .next t)
    (hreset : a = .cmd → s.cmdSeq = .idle → ∀ rest, decode s.port ≠ .command .reset rest) :
    ∃ counted, countsAtMost allEvents (countedPacket counted s) t := by
  cases a with
  | cmd =>
    rw [agentStep_cmd] at h
    exact cmdStep_counts h (hreset rfl)
  | spdifTx =>
    cases (agentStep_spdifTx s).symm.trans h
    exact (txStep_counts s).uncounted
  | pdmMod =>
    cases (agentStep_pdmMod s).symm.trans h
    exact (modStep_counts s).uncounted
  | pdmDma =>
    cases (agentStep_pdmDma s).symm.trans h
    exact countsAtMost.uncounted (es := []) (.inl rfl)

/-! Every step answers a next state (R430, R434). -/

theorem cmdStep_next (s : State) : ∃ t, cmdStep s = .next t := by
  cases hseq : s.cmdSeq with
  | idle =>
    rw [cmdStep, hseq]
    cases hdecode : decode s.port with
    | command i rest =>
      obtain ⟨t, h, _⟩ := exec_effect i { s with port := rest }
      exact ⟨t, (cmdIdle_of_command hdecode).trans h⟩
    | undefinedOp op rest => exact ⟨_, cmdIdle_of_undefinedOp hdecode⟩
    | incomplete => exact ⟨_, cmdIdle_of_incomplete hdecode⟩
  | pktFrame k => exact ⟨_, by rw [cmdStep, hseq]⟩
  | pktEnd => exact ⟨_, by rw [cmdStep, hseq]⟩

theorem agentStep_next (a : Agent) (s : State) : ∃ t, agentStep a s = .next t := by
  cases a with
  | cmd =>
    rw [agentStep_cmd]
    exact cmdStep_next s
  | spdifTx => exact ⟨_, agentStep_spdifTx s⟩
  | pdmMod => exact ⟨_, agentStep_pdmMod s⟩
  | pdmDma => exact ⟨_, agentStep_pdmDma s⟩

/-- Settles O53: a next state for every agent, the one event of a step, and the cases by agent and command. -/
theorem stepGoesOnAndRaisesAtMostOneEvent : Obligations.StepGoesOnAndRaisesAtMostOneEvent := by
  refine ⟨fun s => agentStep_next _ _, fun s t hstep hreset => ?_, fun s t k hseq h => ?_, fun s t hseq h => ?_,
    fun s t n gap fs h => ⟨fun hcount => ?_, fun hcount => ?_⟩,
    fun s t i hreset hmark hpacket h => (CmdEffect.of_exec h).counts hreset hmark hpacket, fun s t h => ?_,
    fun s t => ⟨fun h => ?_, fun h => ?_, fun h => ?_⟩⟩
  · obtain ⟨counted, hcounts⟩ := agentStep_counts hstep (by rwa [takeTurn_cmdSeq, takeTurn_port])
    refine ⟨counted, _, rfl, ?_⟩
    rw [countedPacket, countsAtMost, takeTurn_cnt] at hcounts
    exact hcounts
  · cases (agentStep_cmd_of_pktFrame hseq).symm.trans h
    exact frameStep_counts k s
  · cases (agentStep_cmd_of_pktEnd hseq).symm.trans h
    exact endStep_counts s
  · cases (exec_packet_of_countOk hcount gap fs s).symm.trans h
    exact packetStart_counts n gap fs s
  · cases (exec_packet_of_not_countOk (by simp [hcount]) gap fs s).symm.trans h
    exact .of_raise rfl
  · cases (exec_pdmMark s).symm.trans h
    refine ⟨queuePush_counts _ s, fun hroom => ?_⟩
    rw [queuePush_of_not_full hroom]
  · cases (agentStep_pdmMod s).symm.trans h
    exact ⟨modStep_counts s, modStep_cnt_of_not_start⟩
  · cases (agentStep_spdifTx s).symm.trans h
    exact txStep_counts s
  · cases (agentStep_pdmDma s).symm.trans h
    rfl

end Sys2Proof.Machine
end

section
/-! PROOFS. The invariants of a good state, after power-on and over every step (10_state.md; 43_spdif.md section 3; 45_pdm.md
section 2). -/

namespace Sys2Proof.Machine

/-! One induction over a step, for every invariant. -/

/-- Every agent's step keeps the property, and so does taking the turn or words off the port. -/
structure KeptBySteps (P : State → Prop) : Prop where
  outside : ∀ (s : State) (ws : List Word) (as : List Agent) (n : Nat), P s → P { s with port := ws, sched := as, turn := n }
  tx : ∀ s, P s → P (txStep s)
  mod : ∀ s, P s → P (modStep s)
  dma : ∀ s, P s → P (dmaStep s)
  command : ∀ (s t : State) (i : Instr), i.wellFormed = true → CmdEffect s i t → P s → P t
  frame : ∀ (s : State) (k : Nat), s.cmdSeq = .pktFrame k → P s → P (frameStep k s)
  packetEnd : ∀ s, s.cmdSeq = .pktEnd → P s → P (endStep s)

theorem KeptBySteps.cmdStep {P : State → Prop} (hP : KeptBySteps P) {s t : State} (hs : P s) (h : cmdStep s = .next t) :
    P t := by
  have hport : ∀ ws, P { s with port := ws } := fun ws => hP.outside s ws s.sched s.turn hs
  obtain ⟨i, rest, _, hdecode, heffect⟩ | ⟨_, rest, _, _, rfl⟩ | ⟨_, _, rfl⟩ | ⟨k, hk, rfl⟩ | ⟨hend, rfl⟩ :=
    cmdStep_cases h
  · exact hP.command _ t i (wellFormed_of_decode hdecode) heffect (hport rest)
  · exact hP.command _ _ .nop rfl (refuseCommand_zero { s with port := rest } ▸ .refused .nop 0 (by decide)) (hport rest)
  · exact hs
  · exact hP.frame s k hk hs
  · exact hP.packetEnd s hend hs

theorem KeptBySteps.step {P : State → Prop} (hP : KeptBySteps P) {s t : State} (hs : P s) (h : step s = .next t) : P t := by
  have hturn : P (takeTurn s) := by
    unfold takeTurn
    split
    · exact hP.outside s s.port s.sched (s.turn + 1) hs
    · next rest _ => exact hP.outside s s.port rest s.turn hs
  rw [Machine.step] at h
  cases ha : nextAgent s with
  | cmd =>
    rw [ha, agentStep_cmd] at h
    exact hP.cmdStep hturn h
  | spdifTx =>
    rw [ha, agentStep_spdifTx] at h
    cases h
    exact hP.tx _ hturn
  | pdmMod =>
    rw [ha, agentStep_pdmMod] at h
    cases h
    exact hP.mod _ hturn
  | pdmDma =>
    rw [ha, agentStep_pdmDma] at h
    cases h
    exact hP.dma _ hturn

/-! The pool partition (10_state.md R60; 43_spdif.md R288). -/

/-- The buffers held on CMD's side of the pool: FREE, READY and FILL. -/
def poolOwners (d : Spdif) : List (Fin 8) := d.free ++ d.ready ++ (d.fill.map Prod.fst).toList

theorem bufferOwners_eq (s : State) : bufferOwners s = poolOwners s.spdif ++ txOwner s := by
  unfold bufferOwners poolOwners fillOwner
  cases s.spdif.fill <;> rfl

/-- The buffers have at most moved from one place to another. -/
def sameOwners (s t : State) : Prop := ∀ id, (bufferOwners t).count id = (bufferOwners s).count id

theorem sameOwners.keepsPartition {s t : State} (h : sameOwners s t) (hs : poolPartition s) : poolPartition t :=
  fun id => (h id).trans (hs id)

theorem sameOwners.of_pool {s t : State} (htx : t.txSeq = s.txSeq)
    (h : ∀ id, (poolOwners t.spdif).count id = (poolOwners s.spdif).count id) : sameOwners s t := by
  have howner : txOwner t = txOwner s := by rw [txOwner, htx, txOwner]
  intro id
  rw [bufferOwners_eq, bufferOwners_eq, List.count_append, List.count_append, h, howner]

theorem poolOwners_prefillOne (chstat : Word) (d : Spdif) (id : Fin 8) :
    (poolOwners (prefillOne chstat d)).count id = (poolOwners d).count id := by
  obtain ⟨_, h⟩ | ⟨_, _, _, hfree, _, _, h⟩ := prefillOne_cases chstat d
  · rw [h]
  · simp only [h, poolOwners, hfree, List.count_append, List.count_cons, List.count_nil]
    omega

theorem poolOwners_prefill (chstat : Word) (n : Nat) (d : Spdif) (id : Fin 8) :
    (poolOwners (prefill chstat n d)).count id = (poolOwners d).count id := by
  induction n generalizing d with
  | zero => rfl
  | succ n ih => rw [prefill, ih, poolOwners_prefillOne]

/-- A stored frame leaves its buffer with FILL or moves it to READY. -/
theorem poolOwners_storeFrame (chstat : Word) (l r : BitVec 16) (id : Fin 8) (k : Fin 192) (d : Spdif) (id' : Fin 8) :
    (poolOwners (storeFrame chstat l r id k d)).count id' = (d.free ++ d.ready ++ [id]).count id' := by
  obtain ⟨_, _, _, ⟨_, h⟩ | ⟨_, h⟩⟩ := storeFrame_cases chstat l r id k d <;>
    simp [h, poolOwners, List.count_append]

theorem poolOwners_spdifAppend (l r : BitVec 16) (s : State) (id' : Fin 8) :
    (poolOwners (spdifAppend l r s).spdif).count id' = (poolOwners s.spdif).count id' := by
  obtain ⟨_, _, h⟩ | ⟨id, rest, hfill, hfree, h⟩ | ⟨f, hfill, h⟩ := spdifAppend_cases l r s
  · rw [h]
  · rw [h, poolOwners_storeFrame]
    simp only [poolOwners, hfill, hfree, Option.map_none, Option.toList_none, List.count_append, List.count_cons,
      List.count_nil]
    omega
  · rw [h, poolOwners_storeFrame, poolOwners, hfill]
    rfl

/-- The pool buffer of a source, as a list. -/
def sourceOwner : TxSrc → List (Fin 8)
  | .sil => []
  | .buffer id => [id]

theorem txOwner_of_idle {s : State} (h : s.txSeq = .idle) : txOwner s = [] := by rw [txOwner, h]

theorem txOwner_of_run {s : State} {src : TxSrc} {p : Fin 768} (h : s.txSeq = .run src p) : txOwner s = sourceOwner src := by
  rw [txOwner, h]
  cases src <;> rfl

theorem freeAfter_eq (src : TxSrc) (free : List (Fin 8)) : freeAfter src free = free ++ sourceOwner src := by
  cases src with
  | sil => exact (List.append_nil free).symm
  | buffer id => rfl

theorem sameOwners_txStep (s : State) : sameOwners s (txStep s) := by
  intro id'
  rw [bufferOwners_eq, bufferOwners_eq]
  obtain ⟨_, h⟩ | ⟨id, rest, hseq, hready, h⟩ | ⟨src, p, q, hseq, h⟩ | ⟨src, p, hseq, hready, h⟩
    | ⟨src, p, id, rest, hseq, hready, h⟩ := txStep_cases s
  · rw [h]
  · rw [h, txOwner_of_idle hseq, txOwner_of_run rfl]
    simp only [poolOwners, sourceOwner, hready, List.count_append, List.count_cons, List.count_nil]
    omega
  · rw [h, txOwner_of_run hseq, txOwner_of_run rfl]
    rfl
  · rw [h, txOwner_of_run hseq, txOwner_of_run rfl]
    simp only [poolOwners, sourceOwner, freeAfter_eq, hready, List.count_append, List.count_nil]
    omega
  · rw [h, txOwner_of_run hseq, txOwner_of_run rfl]
    simp only [poolOwners, sourceOwner, freeAfter_eq, hready, List.count_append, List.count_cons, List.count_nil]
    omega

theorem sameOwners_frame (w : Word) (s : State) : sameOwners s (frame w s) := by
  obtain ⟨hframe, _⟩ := frame_spdif_pkt w s
  obtain ⟨_, _, hspdif, _⟩ := signalPath_handoffState w s
  refine .of_pool (by rw [frame_shape]) fun id => ?_
  rw [hframe, poolOwners_spdifAppend, hspdif]

theorem poolPartition_resetWith (p : Params) : poolPartition (State.resetWith p) := by
  have howners : bufferOwners (State.resetWith p) = [0, 1, 2, 3, 4, 5, 6, 7] := rfl
  rw [poolPartition, howners]
  decide

theorem CmdEffect.keepsPartition {i : Instr} {s t : State} (h : CmdEffect s i t) (hs : poolPartition s) :
    poolPartition t := by
  cases h with
  | reset => exact poolPartition_resetWith s.par
  | packet n gap fs _ =>
    obtain ⟨resume, _, _, _, hgap⟩ := packetGap_eq_update gap (countPacket s)
    refine sameOwners.keepsPartition (.of_pool (by rw [hgap]; rfl) fun id => ?_) hs
    rw [hgap]
    cases resume with
    | false => rfl
    | true => exact poolOwners_prefill _ 2 _ id
  | pdmMark =>
    exact sameOwners.keepsPartition (.of_pool (queuePush_txSeq s _) fun id => by rw [queuePush_spdif]) hs
  | _ => exact hs

theorem poolPartition_kept : KeptBySteps poolPartition where
  outside _ _ _ _ hs := hs
  tx s hs := (sameOwners_txStep s).keepsPartition hs
  mod s hs := by
    rw [modStep_shape]
    exact hs
  dma _ hs := hs
  command _ _ _ _ heffect hs := heffect.keepsPartition hs
  frame s k _ hs := sameOwners.keepsPartition (s := s) (fun id => sameOwners_frame (frameWord s.pkt k) s id) hs
  packetEnd s _ hs := by
    rw [endStep_eq_update]
    exact hs

/-- Settles O57: a step moves a buffer from one place to another, or resets the pool. -/
theorem stepKeepsThePoolPartition : Obligations.StepKeepsThePoolPartition := fun _ _ hs hstep =>
  poolPartition_kept.step hs hstep

end Sys2Proof.Machine
end

section
/-! PROOFS. Every invariant of a good state, after power-on and over every step (10_state.md; 43_spdif.md section 3; 45_pdm.md
section 2). -/

namespace Sys2Proof.Machine

/-! The parameters and TX_RUNNING. -/

theorem CmdEffect.par {i : Instr} {s t : State} (h : CmdEffect s i t) : t.par = s.par := by
  by_cases hi : i = .reset
  · subst hi
    cases h <;> rfl
  · exact (h.keeps hi).par

theorem paramsOk_kept : KeptBySteps fun s => s.par.ok = true where
  outside _ _ _ _ hs := hs
  tx s hs := by
    rw [txStep_shape]
    exact hs
  mod s hs := by
    rw [modStep_shape]
    exact hs
  dma _ hs := hs
  command _ _ _ _ heffect hs := by rw [heffect.par, hs]
  frame s k _ hs := by rw [(frameStep_keeps k s).par, hs]
  packetEnd s _ hs := by rw [(endStep_keeps s).par, hs]

theorem txFlagOk_txStep {s : State} (hs : txFlagOk s) : txFlagOk (txStep s) := by
  have hrunning : ∀ {src : TxSrc} {p : Fin 768}, s.txSeq = .run src p → s.spdif.running = true := by
    intro src p hseq
    exact hs.mpr (by simp [hseq])
  obtain ⟨_, h⟩ | ⟨_, _, _, _, h⟩ | ⟨_, _, _, hseq, h⟩ | ⟨_, _, hseq, _, h⟩ | ⟨_, _, _, _, hseq, _, h⟩ := txStep_cases s
  · rw [h]
    exact hs
  · simp [h, txFlagOk]
  · simp [h, txFlagOk, hrunning hseq]
  · simp [h, txFlagOk, hrunning hseq]
  · simp [h, txFlagOk, hrunning hseq]

/-- CMD but RESET writes neither TX_RUNNING nor TX.seq. -/
theorem CmdKeeps.txFlagOk {s t : State} (h : CmdKeeps s t) (hs : txFlagOk s) : txFlagOk t := by
  rw [Machine.txFlagOk, h.running, h.txSeq]
  exact hs

theorem txFlagOk_resetWith (p : Params) : txFlagOk (State.resetWith p) := by
  simp [txFlagOk, State.resetWith, Spdif.reset]

theorem CmdEffect.txFlagOk {i : Instr} {s t : State} (h : CmdEffect s i t) (hs : txFlagOk s) : txFlagOk t := by
  by_cases hi : i = .reset
  · subst hi
    cases h with
    | reset => exact txFlagOk_resetWith s.par
    | _ => exact hs
  · exact (h.keeps hi).txFlagOk hs

theorem txFlagOk_kept : KeptBySteps txFlagOk where
  outside _ _ _ _ hs := hs
  tx _ hs := txFlagOk_txStep hs
  mod s hs := by
    rw [modStep_shape]
    exact hs
  dma _ hs := hs
  command _ _ _ _ heffect hs := heffect.txFlagOk hs
  frame s k _ hs := (frameStep_keeps k s).txFlagOk hs
  packetEnd s _ hs := (endStep_keeps s).txFlagOk hs

/-! The bypass bits (R55, R56). -/

theorem filterOf_bypass_iff (q : Coefs) : (filterOf q).bypass = true ↔ (filterOf q).coefs = Coefs.identity := decide_eq_true_iff

theorem identity_bypass_iff : Filter.identity.bypass = true ↔ Filter.identity.coefs = Coefs.identity :=
  iff_of_true rfl rfl

theorem bypassExact_resetWith (p : Params) : bypassExact (State.resetWith p) :=
  ⟨fun _ => identity_bypass_iff, fun _ => identity_bypass_iff⟩

theorem CmdEffect.bypassExact {i : Instr} {s t : State} (h : CmdEffect s i t) (hs : bypassExact s) : bypassExact t := by
  obtain ⟨hbq, hloud⟩ := hs
  cases h with
  | reset => exact bypassExact_resetWith s.par
  | bqWrite i c b q hb =>
    refine ⟨fun a => ?_, hloud⟩
    rw [read_writeBq]
    split
    · exact filterOf_bypass_iff q
    · exact hbq a
  | loudWrite i k j q hk hj =>
    refine ⟨hbq, fun a => ?_⟩
    rw [read_writeLoud]
    split
    · exact filterOf_bypass_iff q
    · exact hloud a
  | packet n gap fs _ =>
    obtain ⟨_, _, _, _, hgap⟩ := packetGap_eq_update gap (countPacket s)
    rw [hgap]
    exact ⟨hbq, hloud⟩
  | pdmMark =>
    rw [queuePush_shape]
    exact ⟨hbq, hloud⟩
  | _ => exact ⟨hbq, hloud⟩

theorem bypassExact_kept : KeptBySteps bypassExact where
  outside _ _ _ _ hs := hs
  tx s hs := by
    rw [txStep_shape]
    exact hs
  mod s hs := by
    rw [modStep_shape]
    exact hs
  dma _ hs := hs
  command _ _ _ _ heffect hs := heffect.bypassExact hs
  frame s k _ hs := by
    obtain ⟨hbq, hloud⟩ := hs
    obtain ⟨_, hloudEq, hfilter, _⟩ := frameStep_parameters k s
    exact ⟨fun a => by rw [hfilter]; exact hbq a, fun a => by rw [hloudEq]; exact hloud a⟩
  packetEnd s _ hs := by
    rw [endStep_eq_update]
    exact hs

/-! The packet in progress (R31, R62; 41_ingest.md R205). -/

theorem packetOk_resetWith (p : Params) : packetOk (State.resetWith p) := trivial

theorem CmdEffect.packetOk {i : Instr} {s t : State} (hwf : i.wellFormed = true) (h : CmdEffect s i t)
    (hs : packetOk s) : packetOk t := by
  cases h with
  | reset => exact packetOk_resetWith s.par
  | packet n gap fs hcount =>
    obtain ⟨hseq, hframes, hn⟩ := latchPacket_spec n gap fs (packetGap gap (countPacket s))
    obtain ⟨hmin, _⟩ := (packetCountOk_iff n).mp hcount
    rw [Machine.packetOk, hseq, hframes, hn]
    exact ⟨by omega, hcount, of_decide_eq_true hwf⟩
  | pdmMark =>
    rw [queuePush_shape]
    exact hs
  | _ => exact hs

theorem packetOk_frameStep {s : State} {k : Nat} (hseq : s.cmdSeq = .pktFrame k) (hs : packetOk s) :
    packetOk (frameStep k s) := by
  obtain ⟨_, _, _, _, _, _, _, _, hn, hframes, _⟩ := frameStep_parameters k s
  rw [packetOk, hseq] at hs
  obtain ⟨_, hcount, hlen⟩ := hs
  by_cases hlt : k + 1 < s.pkt.n.toNat
  · have hnext : (frameStep k s).cmdSeq = .pktFrame (k + 1) := by rw [frameStep_of_lt hlt]
    rw [packetOk, hnext, hn, hframes]
    exact ⟨hlt, hcount, hlen⟩
  · have hnext : (frameStep k s).cmdSeq = .pktEnd := by rw [frameStep_of_le (by omega)]
    rw [packetOk, hnext, hn, hframes]
    exact ⟨hcount, hlen⟩

theorem packetOk_kept : KeptBySteps packetOk where
  outside _ _ _ _ hs := hs
  tx s hs := by
    rw [txStep_shape]
    exact hs
  mod s hs := by
    rw [modStep_shape]
    exact hs
  dma _ hs := hs
  command _ _ _ hwf heffect hs := heffect.packetOk hwf hs
  frame _ _ hseq hs := packetOk_frameStep hseq hs
  packetEnd s _ _ := by
    rw [endStep_eq_update]
    trivial

/-! The integrators at rest during silence (R345). -/

theorem silenceAtRest_acquire {l : Nat} {s : State} (hs : silenceAtRest s) : silenceAtRest (acquire l s) := by
  obtain ⟨_, _, h⟩ | ⟨_, _, h⟩ | ⟨_, _, h⟩ | ⟨_, _, h⟩ := acquire_cases l s <;> rw [h]
  · exact nofun
  · exact hs
  · exact fun _ => ⟨rfl, rfl⟩
  · exact nofun

theorem silenceAtRest_modChunk (c : Fin 8) {s : State} (hs : silenceAtRest s) : silenceAtRest (modChunk c s) := by
  intro hmode
  have hsilent : s.pdm.mode = .silence := by rwa [modChunk_shape] at hmode
  have hproduce : produceChunk s = storeChunk Config.silenceWord s := by
    obtain ⟨_, h⟩ | ⟨hmod, _⟩ := produceChunk_cases s
    · exact h
    · simp [hsilent] at hmod
  obtain ⟨_, _, h⟩ | ⟨_, hmod, _⟩ | ⟨_, _, h⟩ := modChunk_cases c s
  · rw [h, hproduce]
    exact hs hsilent
  · simp [hsilent] at hmod
  · rw [h, hproduce]
    exact hs hsilent

theorem silenceAtRest_modStep {s : State} (hs : silenceAtRest s) : silenceAtRest (modStep s) := by
  obtain ⟨_, _, h⟩ | ⟨_, _, h⟩ | ⟨c, _, h⟩ := modStep_cases s <;> rw [h]
  · exact silenceAtRest_acquire hs
  · exact silenceAtRest_acquire (s := recoverUnderrun s) fun _ => ⟨rfl, rfl⟩
  · exact silenceAtRest_modChunk c hs

theorem silenceAtRest_resetWith (p : Params) : silenceAtRest (State.resetWith p) := nofun

theorem CmdKeeps.silenceAtRest {s t : State} (h : CmdKeeps s t) (hs : silenceAtRest s) : silenceAtRest t := by
  rw [Machine.silenceAtRest, h.pdm]
  exact hs

theorem silenceAtRest_kept : KeptBySteps silenceAtRest where
  outside _ _ _ _ hs := hs
  tx s hs := by
    rw [txStep_shape]
    exact hs
  mod _ hs := silenceAtRest_modStep hs
  dma _ hs := hs
  command s _ i _ heffect hs := by
    by_cases hi : i = .reset
    · subst hi
      cases heffect with
      | reset => exact silenceAtRest_resetWith s.par
      | _ => exact hs
    · exact (heffect.keeps hi).silenceAtRest hs
  frame s k _ hs := (frameStep_keeps k s).silenceAtRest hs
  packetEnd s _ hs := (endStep_keeps s).silenceAtRest hs

end Sys2Proof.Machine
end

section
/-! PROOFS. The ranges of the registers and the canonical memories over every step, and with them every invariant (10_state.md
sections 3 and 4; log 9). -/

namespace Sys2Proof.Machine

/-! Registers with fewer legal values than bits (R36, R39, R48, R58). -/

theorem clip_le {p : Params} (h : p.ok = true) : p.clip ≤ 32767 := by
  simp only [Params.ok, Bool.and_eq_true, decide_eq_true_eq] at h
  omega

/-- A target is never 0: the clip limit leaves at least 1. -/
theorem targetOf_ne_zero {p : Params} (h : p.ok = true) (x : Word) : targetOf p x ≠ 0#16 := by
  obtain ⟨hlo, _⟩ := targetOf_range x (clip_le h)
  have hclip := clip_le h
  intro hzero
  rw [hzero] at hlo
  simp only [BitVec.toNat_ofNat] at hlo
  omega

theorem acquire_target_ne_zero {l : Nat} {s : State} (hok : s.par.ok = true) (hs : s.pdm.target ≠ 0#16) :
    (acquire l s).pdm.target ≠ 0#16 := by
  obtain ⟨_, _, h⟩ | ⟨_, _, h⟩ | ⟨_, _, h⟩ | ⟨_, _, h⟩ := acquire_cases l s <;> rw [h]
  · exact (by decide : 32768#16 ≠ 0#16)
  · exact hs
  · exact (by decide : 32768#16 ≠ 0#16)
  · exact targetOf_ne_zero hok _

theorem modStep_target_ne_zero {s : State} (hok : s.par.ok = true) (hs : s.pdm.target ≠ 0#16) :
    (modStep s).pdm.target ≠ 0#16 := by
  obtain ⟨_, _, h⟩ | ⟨_, _, h⟩ | ⟨c, _, h⟩ := modStep_cases s <;> rw [h]
  · exact acquire_target_ne_zero hok hs
  · exact acquire_target_ne_zero (s := recoverUnderrun s) hok hs
  · rwa [modChunk_shape]

theorem supportedRate_cases (r : Word) :
    supportedRate r = 44100#32 ∨ supportedRate r = 48000#32 ∨ supportedRate r = 96000#32 := by
  unfold supportedRate
  split
  · assumption
  · exact .inl rfl

theorem writeReg_volIndex_le {g : Regs} (hg : g.volIndex.toNat ≤ 90) (r : RegId) (v : Word) :
    (writeReg r (legal r v) g).volIndex.toNat ≤ 90 := by
  rw [writeReg_volIndex]
  split
  · next hr =>
    subst hr
    have hmin : (legal .volIndex v).toNat = min v.toNat 90 := toNat_minWord v 90#32
    rw [BitVec.toNat_setWidth, hmin, Nat.mod_eq_of_lt] <;> omega
  · exact hg

theorem peaksOk_zero : peaksOk Peaks.zero := by
  refine ⟨?_, ?_, ?_, ?_, ?_⟩ <;> decide

theorem rangesOk_resetWith (p : Params) : rangesOk (State.resetWith p) :=
  ⟨.inl rfl, (by decide : (0#7).toNat ≤ 90), (by decide : (0#7).toNat ≤ 90), (by decide : 32768#16 ≠ 0#16),
    peaksOk_zero, peaksOk_zero⟩

theorem CmdEffect.rangesOk {i : Instr} {s t : State} (h : CmdEffect s i t) (hs : rangesOk s) : rangesOk t := by
  obtain ⟨hrate, hvol, hvi, htarget, hpeaks, hpacc⟩ := hs
  cases h with
  | reset => exact rangesOk_resetWith s.par
  | setReg n v r m hrw hwf =>
    exact ⟨by rw [writeReg_rate]; exact hrate, writeReg_volIndex_le hvol r v, hvi, htarget, hpeaks, hpacc⟩
  | setRate r m hwf => exact ⟨supportedRate_cases r, hvol, hvi, htarget, hpeaks, hpacc⟩
  | packet n gap fs _ =>
    obtain ⟨_, _, _, _, hgap⟩ := packetGap_eq_update gap (countPacket s)
    rw [hgap]
    exact ⟨hrate, hvol, hvol, htarget, hpeaks, peaksOk_zero⟩
  | pdmMark =>
    rw [queuePush_shape]
    exact ⟨hrate, hvol, hvi, htarget, hpeaks, hpacc⟩
  | _ => exact ⟨hrate, hvol, hvi, htarget, hpeaks, hpacc⟩

theorem peaksOk_frame {w : Word} {s : State} (hs : peaksOk s.pkt.pacc) : peaksOk (frame w s).pkt.pacc := by
  obtain ⟨_, hpkt⟩ := frame_spdif_pkt w s
  rw [hpkt, spdifAppend_pacc]
  exact (passed_signalPath w s).peaks hs

theorem rangesOk_frameStep (k : Nat) {s : State} (hs : rangesOk s) : rangesOk (frameStep k s) := by
  obtain ⟨hrate, hvol, hvi, htarget, hpeaks, hpacc⟩ := hs
  have hframe := peaksOk_frame (w := frameWord s.pkt k) hpacc
  unfold frameStep
  rw [frame_shape] at hframe ⊢
  exact ⟨hrate, hvol, hvi, htarget, hpeaks, hframe⟩

theorem rangesOk_kept : KeptBySteps fun s => s.par.ok = true ∧ rangesOk s where
  outside _ _ _ _ hs := hs
  tx s hs := by
    rw [txStep_shape]
    exact hs
  mod s hs := by
    obtain ⟨hok, hrate, hvol, hvi, htarget, hpeaks, hpacc⟩ := hs
    have hmod := modStep_target_ne_zero hok htarget
    rw [modStep_shape] at hmod ⊢
    exact ⟨hok, hrate, hvol, hvi, hmod, hpeaks, hpacc⟩
  dma _ hs := hs
  command s t i hwf heffect hs := ⟨paramsOk_kept.command s t i hwf heffect hs.1, heffect.rangesOk hs.2⟩
  frame s k hseq hs := ⟨paramsOk_kept.frame s k hseq hs.1, rangesOk_frameStep k hs.2⟩
  packetEnd s _ hs := by
    obtain ⟨hok, hrate, hvol, hvi, htarget, _, hpacc⟩ := hs
    rw [endStep_eq_update]
    exact ⟨hok, hrate, hvol, hvi, htarget, hpacc, hpacc⟩

/-! The canonical memories (log 9). -/

theorem wf_prefillOne {chstat : Word} {d : Spdif} (h : Mem.wf poolShape d.pool = true) :
    Mem.wf poolShape (prefillOne chstat d).pool = true := by
  obtain ⟨_, heq⟩ | ⟨_, _, _, _, _, hwf, heq⟩ := prefillOne_cases chstat d <;> rw [heq]
  · exact h
  · exact hwf h

theorem wf_prefill {chstat : Word} {n : Nat} {d : Spdif} (h : Mem.wf poolShape d.pool = true) :
    Mem.wf poolShape (prefill chstat n d).pool = true := by
  induction n generalizing d with
  | zero => exact h
  | succ n ih => exact ih (wf_prefillOne h)

theorem wf_storeFrame {chstat : Word} {l r : BitVec 16} {id : Fin 8} {k : Fin 192} {d : Spdif}
    (h : Mem.wf poolShape d.pool = true) : Mem.wf poolShape (storeFrame chstat l r id k d).pool = true := by
  obtain ⟨_, _, hwf, ⟨_, heq⟩ | ⟨_, heq⟩⟩ := storeFrame_cases chstat l r id k d <;> rw [heq] <;> exact hwf h

theorem wf_spdifAppend {l r : BitVec 16} {s : State} (h : Mem.wf poolShape s.spdif.pool = true) :
    Mem.wf poolShape (spdifAppend l r s).spdif.pool = true := by
  obtain ⟨_, _, heq⟩ | ⟨_, _, _, _, heq⟩ | ⟨_, _, heq⟩ := spdifAppend_cases l r s <;> rw [heq]
  · exact h
  · exact wf_storeFrame h
  · exact wf_storeFrame h

theorem wf_queuePush {m : Msg} {s : State} (h : Mem.wf queueShape s.queue.buf = true) :
    Mem.wf queueShape (queuePush m s).queue.buf = true := by
  obtain ⟨_, heq⟩ | ⟨_, heq⟩ := queuePush_cases m s <;> rw [heq]
  · exact h
  · exact wf_writeQueue h

theorem CmdEffect.memoriesWf {i : Instr} {s t : State} (hok : s.par.ok = true) (h : CmdEffect s i t)
    (hs : memoriesWf s) : memoriesWf t := by
  obtain ⟨hbq, hloud, hring, hqueue, hpool, hsil, hl, hr, hsub⟩ := hs
  cases h with
  | reset => exact reset_memories_wf s.par
  | setReg n v r m hrw hwf => exact ⟨hbq, hloud, hring, hqueue, hpool, hwf hsil, hl, hr, hsub⟩
  | setRate r m hwf => exact ⟨hbq, hloud, hring, hqueue, hpool, hwf hsil, hl, hr, hsub⟩
  | bqWrite i c b q hb =>
    have hten := bands_le hok c
    exact ⟨wf_writeBq hbq (by omega), hloud, hring, hqueue, hpool, hsil, hl, hr, hsub⟩
  | loudWrite i k j q hk hj => exact ⟨hbq, wf_writeLoud hloud hk hj, hring, hqueue, hpool, hsil, hl, hr, hsub⟩
  | packet n gap fs _ =>
    obtain ⟨resume, _, _, _, hgap⟩ := packetGap_eq_update gap (countPacket s)
    rw [hgap]
    cases resume with
    | false => exact ⟨hbq, hloud, hring, hqueue, hpool, hsil, hl, hr, hsub⟩
    | true => exact ⟨hbq, hloud, hring, hqueue, wf_prefill hpool, by simpa [latchPacket] using hsil, hl, hr, hsub⟩
  | pdmMark =>
    have hpush := wf_queuePush (m := ⟨0#32, true⟩) hqueue
    rw [queuePush_shape] at hpush ⊢
    exact ⟨hbq, hloud, hring, hpush, hpool, hsil, hl, hr, hsub⟩
  | _ => exact ⟨hbq, hloud, hring, hqueue, hpool, hsil, hl, hr, hsub⟩

/-- The memories a frame writes. -/
theorem wf_frame (w : Word) {s : State} (hok : s.par.ok = true) (hs : memoriesWf s) :
    Mem.wf bqShape (frame w s).bq = true ∧ Mem.wf queueShape (frame w s).queue.buf = true
      ∧ Mem.wf poolShape (frame w s).spdif.pool = true ∧ Mem.wf lineShape (frame w s).delay.lineL = true
      ∧ Mem.wf lineShape (frame w s).delay.lineR = true ∧ Mem.wf lineShape (frame w s).delay.lineSub = true := by
  obtain ⟨hbq, _, _, hqueue, hpool, _, hl, hr, hsub⟩ := hs
  obtain ⟨hpathQueue, _, hpathSpdif, _⟩ := signalPath_handoffState w s
  obtain ⟨hspdif, _⟩ := frame_spdif_pkt w s
  refine ⟨?_, ?_, ?_, ?_, ?_, ?_⟩
  · rw [frame_eq, queuePush_bq, spdifAppend_bq]
    exact (passed_signalPath w s).bank hok hbq
  · rw [frame_eq]
    exact wf_queuePush (by rw [spdifAppend_queue, hpathQueue, hqueue])
  · rw [hspdif]
    exact wf_spdifAppend (by rw [hpathSpdif, hpool])
  · rw [frame_delay, signalPath_delay]
    exact wf_writeLine hl
  · rw [frame_delay, signalPath_delay]
    exact wf_writeLine hr
  · rw [frame_delay, signalPath_delay]
    exact wf_writeLine hsub

theorem memoriesWf_frameStep (k : Nat) {s : State} (hok : s.par.ok = true) (hs : memoriesWf s) :
    memoriesWf (frameStep k s) := by
  obtain ⟨hbq, hqueue, hpool, hl, hr, hsub⟩ := wf_frame (frameWord s.pkt k) hok hs
  obtain ⟨_, hsilblk⟩ := sameSilence_frame (frameWord s.pkt k) s
  obtain ⟨_, hloud, hring, _, _, hsil, _⟩ := hs
  have hsil' : Mem.wf silShape (frame (frameWord s.pkt k) s).spdif.silblk = true := by rw [hsilblk, hsil]
  unfold frameStep
  rw [frame_shape] at hbq hqueue hpool hl hr hsub hsil' ⊢
  exact ⟨hbq, hloud, hring, hqueue, hpool, hsil', hl, hr, hsub⟩

theorem acquire_ring (l : Nat) (s : State) : (acquire l s).pdm.ring = s.pdm.ring := by
  obtain ⟨_, _, h⟩ | ⟨_, _, h⟩ | ⟨_, _, h⟩ | ⟨_, _, h⟩ := acquire_cases l s <;> rw [h] <;> rfl

theorem wf_storeChunk {w : Word} {s : State} (h : Mem.wf ringShape s.pdm.ring = true) :
    Mem.wf ringShape (storeChunk w s).pdm.ring = true := by
  rw [storeChunk_pdm]
  exact wf_writeRing h

theorem wf_produceChunk {s : State} (h : Mem.wf ringShape s.pdm.ring = true) :
    Mem.wf ringShape (produceChunk s).pdm.ring = true := by
  obtain ⟨_, heq⟩ | ⟨_, heq⟩ := produceChunk_cases s
  · rw [heq]
    exact wf_storeChunk h
  · rw [heq]
    exact wf_storeChunk (by exact h)

theorem wf_modStep {s : State} (h : Mem.wf ringShape s.pdm.ring = true) :
    Mem.wf ringShape (modStep s).pdm.ring = true := by
  obtain ⟨_, _, heq⟩ | ⟨_, _, heq⟩ | ⟨c, _, heq⟩ := modStep_cases s <;> rw [heq]
  · rw [acquire_ring]
    exact h
  · rw [acquire_ring]
    exact h
  · obtain ⟨_, _, hc⟩ | ⟨_, _, hc⟩ | ⟨_, _, hc⟩ := modChunk_cases c s <;> rw [hc] <;> exact wf_produceChunk h

theorem memoriesWf_kept : KeptBySteps fun s => s.par.ok = true ∧ memoriesWf s where
  outside _ _ _ _ hs := hs
  tx s hs := by
    rw [txStep_shape]
    exact hs
  mod s hs := by
    obtain ⟨hok, hbq, hloud, hring, hrest⟩ := hs
    have hmod := wf_modStep hring
    rw [modStep_shape] at hmod ⊢
    exact ⟨hok, hbq, hloud, hmod, hrest⟩
  dma _ hs := hs
  command s t i hwf heffect hs := ⟨paramsOk_kept.command s t i hwf heffect hs.1, heffect.memoriesWf hs.1 hs.2⟩
  frame s k hseq hs := ⟨paramsOk_kept.frame s k hseq hs.1, memoriesWf_frameStep k hs.1 hs.2⟩
  packetEnd s _ hs := by
    rw [endStep_eq_update]
    exact hs

/-! A good state. -/

theorem inv_resetWith {p : Params} (h : p.ok = true) : Inv (State.resetWith p) where
  params := h
  memories := reset_memories_wf p
  partition := poolPartition_resetWith p
  txFlag := txFlagOk_resetWith p
  silblk := silblkCurrent_resetWith p
  bypass := bypassExact_resetWith p
  ranges := rangesOk_resetWith p
  packet := packetOk_resetWith p
  silence := silenceAtRest_resetWith p

/-- Settles O59: each invariant of the reset state, and the default parameters are legal. -/
theorem powerOnStateIsGood : Obligations.PowerOnStateIsGood :=
  ⟨fun _ h => inv_resetWith h, inv_resetWith (by decide)⟩

/-- Settles O60: each invariant is kept by every agent's step; the canonical memories and the ranges also need legal
parameters. -/
theorem stepKeepsEveryInvariant : Obligations.StepKeepsEveryInvariant := by
  intro s t hs hstep
  obtain ⟨hok, hmemories⟩ := memoriesWf_kept.step ⟨hs.params, hs.memories⟩ hstep
  obtain ⟨_, hranges⟩ := rangesOk_kept.step ⟨hs.params, hs.ranges⟩ hstep
  exact
    { params := hok
      memories := hmemories
      partition := poolPartition_kept.step hs.partition hstep
      txFlag := txFlagOk_kept.step hs.txFlag hstep
      silblk := stepKeepsTheSilenceBlockCurrent.2 s t hs.silblk hstep
      bypass := bypassExact_kept.step hs.bypass hstep
      ranges := hranges
      packet := packetOk_kept.step hs.packet hstep
      silence := silenceAtRest_kept.step hs.silence hstep }

end Sys2Proof.Machine
end

section
/-! PROOFS. MOD_START without an underrun, one chunk, and the eight chunks of a sample (45_pdm.md section 2). -/

namespace Sys2Proof.Machine

/-! MOD_START (R344 to R347). -/

theorem pcmOf_eq (p : Params) (x : Word) :
    pcmOf p x = min (max (x.toInt / 2 ^ 14) (-(p.clip : Int))) p.clip := rfl

/-- The target is the limited sample moved to 0 to 65535. -/
theorem targetOf_toNat {p : Params} (h : p.ok = true) (x : Word) : ((targetOf p x).toNat : Int) = pcmOf p x + 32768 := by
  have hclip := clip_le h
  have hpcm := pcmOf_eq p x
  rw [targetOf, BitVec.toNat_ofInt]
  omega

theorem resetMessage_eq (s : State) :
    resetMessage s = { s with
      pdm := { s.pdm with err1 := 0#32, err2 := 0#32, target := 32768#16, mode := .silence }, modSeq := .chunk 0 } := rfl

/-- Settles O47: without an underrun the turn is an acquisition, by what the queue holds and by the lead. -/
theorem modStartAcquiresASample : Obligations.ModStartAcquiresASample := by
  intro s hstart hok hlead
  have hnot : leadUnderrun s.pdm = false := decide_eq_false (by rw [lead]; omega)
  have hstep : agentStep .pdmMod s = .next (acquire (lead s.pdm) s) := by
    rw [agentStep_pdmMod_of_start hstart, modStart_of_not_underrun hnot]
  rw [hstep]
  refine ⟨fun hq hsample => ?_, fun hq hreset => ?_, fun hq hlow => ?_, fun hq hfull => ?_⟩
  · have hacquire : acquire (lead s.pdm) s
        = beginSample (targetOf s.par (queueFront s).sample) .modulate (queueAdvance s) := by
      simp [acquire, takeMessage, hq, hsample]
    exact ⟨_, pcmOf s.par (queueFront s).sample, congrArg Host.Outcome.next hacquire, pcmOf_eq _ _, rfl,
      targetOf_toNat hok _, rfl, rfl, rfl⟩
  · have hacquire : acquire (lead s.pdm) s = resetMessage (queueAdvance s) := by
      simp [acquire, takeMessage, hq, hreset]
    rw [hacquire, resetMessage_eq]
    rfl
  · have hbelow : lead s.pdm < s.par.targetLead := hlow
    have hacquire : acquire (lead s.pdm) s = beginSample 32768#16 .modulate s := by
      simp [acquire, hq, hbelow]
    rw [hacquire]
    rfl
  · have hcushion : s.par.targetLead ≤ lead s.pdm := hfull
    rw [acquire_of_cushion_full hq hcushion]
    exact ⟨by simp [enabled, hstart, modStartEnabled, hq, hcushion, hnot], rfl⟩

/-! One chunk (R348 to R352). -/

theorem agentStep_pdmMod_of_chunk {s : State} {c : Fin 8} (h : s.modSeq = .chunk c) :
    agentStep .pdmMod s = .next (modChunk c s) := by
  rw [agentStep_pdmMod, modStep, h]

theorem ditherValue_range (s : State) :
    -(s.par.ditherMax : Int) ≤ ditherValue s ∧ ditherValue s ≤ s.par.ditherMax := by
  simp only [ditherValue, clamp]
  omega

/-- A chunk of a modulated sample as one update of the state whose dither has moved on. -/
theorem produceChunk_of_modulate {s : State} (h : s.pdm.mode = .modulate) {d : Decisions}
    (hd : d = decisions s.pdm.target (ditherValue s) 32 s.pdm.err1 s.pdm.err2) :
    produceChunk s = { ditherAdvance s with
      pdm := { s.pdm with
        err1 := d.err1, err2 := d.err2, ring := writeRing s.pdm.ring s.pdm.pwi (packWord d.bits)
        pwi := s.pdm.pwi + 1#11 } } := by
  subst hd
  obtain ⟨hsilent, _⟩ | ⟨_, heq⟩ := produceChunk_cases s
  · simp [h] at hsilent
  · rw [heq, storeChunk]

theorem produceChunk_of_silence {s : State} (h : s.pdm.mode = .silence) :
    produceChunk s = { s with pdm := { s.pdm with
      ring := writeRing s.pdm.ring s.pdm.pwi Config.silenceWord, pwi := s.pdm.pwi + 1#11 } } := by
  obtain ⟨_, heq⟩ | ⟨hmod, _⟩ := produceChunk_cases s
  · exact heq
  · simp [h] at hmod

theorem modChunk_of_lt {c c' : Fin 8} (h : c'.val = c.val + 1) (s : State) :
    modChunk c s = { produceChunk s with modSeq := .chunk c' } := by
  have hlt : c.val + 1 < 8 := h ▸ c'.isLt
  obtain rfl : c' = ⟨c.val + 1, hlt⟩ := Fin.ext h
  simp [modChunk, hlt]

theorem modChunk_of_last_modulate {c : Fin 8} (hc : c.val = 7) {s : State} (h : s.pdm.mode = .modulate) :
    modChunk c s = { leak (produceChunk s) with modSeq := .start } := by
  obtain ⟨c', hc', _⟩ | ⟨_, _, heq⟩ | ⟨_, hsilent, _⟩ := modChunk_cases c s
  · omega
  · exact heq
  · simp [h] at hsilent

theorem modChunk_of_last_silence {c : Fin 8} (hc : c.val = 7) {s : State} (h : s.pdm.mode = .silence) :
    modChunk c s = { produceChunk s with modSeq := .start } := by
  obtain ⟨c', hc', _⟩ | ⟨_, hmod, _⟩ | ⟨_, _, heq⟩ := modChunk_cases c s
  · omega
  · simp [h] at hmod
  · exact heq

/-- Settles O49: the chunk's update, below the eighth chunk and at it. -/
theorem modChunkStoresOneWord : Obligations.ModChunkStoresOneWord := by
  intro s c hseq hmode
  obtain ⟨hlo, hhi⟩ := ditherValue_range s
  generalize hd : decisions s.pdm.target (ditherValue s) 32 s.pdm.err1 s.pdm.err2 = d
  have hproduce := produceChunk_of_modulate hmode hd.symm
  have hstep := agentStep_pdmMod_of_chunk hseq
  by_cases hc : c.val < 7
  · have hchunk := modChunk_of_lt (c := c) (c' := ⟨c.val + 1, by omega⟩) rfl s
    rw [hchunk, hproduce] at hstep
    refine ⟨_, d, hstep, rfl, hlo, hhi, fun a => readRing_writeRing .., rfl, fun _ => ⟨rfl, rfl, fun c' hc' => ?_⟩,
      fun hlast => absurd hlast (by omega), ?_⟩
    · exact congrArg ModSeq.chunk (Fin.ext hc'.symm)
    · obtain ⟨_, h⟩ | ⟨_, _, _, h⟩ := ditherAdvance_cases s <;> rw [h]
  · have hlast : c.val = 7 := by omega
    rw [modChunk_of_last_modulate hlast hmode, hproduce] at hstep
    refine ⟨_, d, hstep, rfl, hlo, hhi, fun a => readRing_writeRing .., rfl, fun h => absurd h hc,
      fun _ => ⟨rfl, leakValue_toInt _, leakValue_toInt _⟩, ?_⟩
    obtain ⟨_, h⟩ | ⟨_, _, _, h⟩ := ditherAdvance_cases s <;> rw [h] <;> rfl

/-! The eight chunks of a sample (R348, R353). -/

/-- From `s` to `t`, `n` chunks of one sample: the words they write and what they leave. -/
structure ChunkRun (n : Nat) (s t : State) : Prop where
  pwi : t.pdm.pwi = s.pdm.pwi + BitVec.ofNat 11 n
  pri : t.pdm.pri = s.pdm.pri
  mode : t.pdm.mode = s.pdm.mode
  queue : t.queue = s.queue
  cnt : t.cnt = s.cnt
  outside : ∀ a : BitVec 11, n ≤ (a - s.pdm.pwi).toNat → readRing t.pdm.ring a = readRing s.pdm.ring a
  words : s.pdm.mode = .silence →
    ∀ a : BitVec 11, (a - s.pdm.pwi).toNat < n → readRing t.pdm.ring a = Config.silenceWord
  rest : s.pdm.mode = .silence →
    t.pdm.err1 = s.pdm.err1 ∧ t.pdm.err2 = s.pdm.err2 ∧ t.draws = s.draws ∧ t.ditherIn = s.ditherIn

/-- The word a chunk stores is either one of its decisions or the silence word. -/
theorem ring_produceChunk (s : State) :
    ∃ w, (produceChunk s).pdm.ring = writeRing s.pdm.ring s.pdm.pwi w
      ∧ (s.pdm.mode = .silence → w = Config.silenceWord) := by
  cases h : s.pdm.mode with
  | silence => exact ⟨_, by rw [produceChunk_of_silence h], fun _ => rfl⟩
  | modulate => exact ⟨_, by rw [produceChunk_of_modulate h rfl], nofun⟩

theorem chunkRun_produceChunk (s : State) : ChunkRun 1 s (produceChunk s) := by
  obtain ⟨w, hring, hword⟩ := ring_produceChunk s
  have hread : ∀ a, readRing (produceChunk s).pdm.ring a = if a = s.pdm.pwi then w else readRing s.pdm.ring a :=
    fun a => by rw [hring, readRing_writeRing]
  refine ⟨?_, by rw [produceChunk_shape], by rw [produceChunk_shape], by simp, by simp, fun a ha => ?_,
    fun hsilent a ha => ?_, fun hsilent => ?_⟩
  · obtain ⟨_, h⟩ | ⟨_, h⟩ := produceChunk_cases s <;> rw [h] <;> rfl
  · rw [hread, if_neg (by rintro rfl; simp at ha)]
  · rw [hread, if_pos (by bv_omega), hword hsilent]
  · rw [produceChunk_of_silence hsilent]
    exact ⟨rfl, rfl, rfl, rfl⟩

/-- What ends a chunk, the leak and the sequencer, is seen by no clause of a run of chunks but in a modulated sample. -/
theorem chunkRun_modChunk (c : Fin 8) (s : State) : ChunkRun 1 s (modChunk c s) := by
  obtain ⟨hpwi, hpri, hmode, hqueue, hcnt, houtside, hwords, hrest⟩ := chunkRun_produceChunk s
  obtain ⟨_, _, h⟩ | ⟨_, hmod, h⟩ | ⟨_, _, h⟩ := modChunk_cases c s <;> rw [h]
  · exact ⟨hpwi, hpri, hmode, hqueue, hcnt, houtside, hwords, hrest⟩
  · exact ⟨hpwi, hpri, hmode, hqueue, hcnt, houtside, hwords, fun hsilent => by simp [hmod] at hsilent⟩
  · exact ⟨hpwi, hpri, hmode, hqueue, hcnt, houtside, hwords, hrest⟩

/-- Runs of chunks compose while they do not meet in the ring. -/
theorem ChunkRun.cons {n : Nat} (hn : n < 2047) {s t u : State} (h : ChunkRun 1 s t) (h' : ChunkRun n t u) :
    ChunkRun (n + 1) s u := by
  have hpwi := h.pwi
  have hoff : ∀ a : BitVec 11, (a - t.pdm.pwi).toNat = ((a - s.pdm.pwi).toNat + 2047) % 2048 := by
    intro a
    rw [hpwi]
    bv_omega
  refine ⟨?_, h'.pri.trans h.pri, h'.mode.trans h.mode, h'.queue.trans h.queue, h'.cnt.trans h.cnt, fun a ha => ?_,
    fun hsilent a ha => ?_, fun hsilent => ?_⟩
  · rw [h'.pwi, hpwi, BitVec.add_assoc, BitVec.add_comm (BitVec.ofNat 11 1), BitVec.ofNat_add]
  · have hlt := (a - s.pdm.pwi).isLt
    rw [h'.outside a (by rw [hoff]; omega), h.outside a (by omega)]
  · by_cases hfirst : (a - s.pdm.pwi).toNat = 0
    · rw [h'.outside a (by rw [hoff]; omega), h.words hsilent a (by omega)]
    · have hlt := (a - s.pdm.pwi).isLt
      exact h'.words (h.mode.trans hsilent) a (by rw [hoff]; omega)
  · obtain ⟨he1, he2, hdraws, hdither⟩ := h.rest hsilent
    obtain ⟨he1', he2', hdraws', hdither'⟩ := h'.rest (h.mode.trans hsilent)
    exact ⟨he1'.trans he1, he2'.trans he2, hdraws'.trans hdraws, hdither'.trans hdither⟩

/-- The chunks that are left of a sample, by their number: one turn each, and then MOD_START. -/
theorem turns_chunks (k : Nat) :
    ∀ (c : Fin 8) (s : State), c.val + (k + 1) = 8 → s.modSeq = .chunk c →
      ∃ t, turns .pdmMod (k + 1) s = .next t ∧ t.modSeq = .start ∧ ChunkRun (k + 1) s t := by
  induction k with
  | zero =>
    intro c s hc hseq
    refine ⟨_, turns_one_of_next (agentStep_pdmMod_of_chunk hseq), ?_, chunkRun_modChunk c s⟩
    obtain ⟨c', hc', _⟩ | ⟨_, _, h⟩ | ⟨_, _, h⟩ := modChunk_cases c s
    · omega
    · rw [h]
    · rw [h]
  | succ k ih =>
    intro c s hc hseq
    have hnext : (modChunk c s).modSeq = .chunk ⟨c.val + 1, by omega⟩ := by
      rw [modChunk_of_lt (c' := ⟨c.val + 1, by omega⟩) rfl]
    obtain ⟨t, hturns, hstart, hrun⟩ := ih _ _ (by dsimp only; omega) hnext
    exact ⟨t, (turns_succ_of_next (agentStep_pdmMod_of_chunk hseq) _).trans hturns, hstart,
      (chunkRun_modChunk c s).cons (by omega) hrun⟩

/-- Settles O50: the eight chunks from the first. -/
theorem sampleWritesEightWords : Obligations.SampleWritesEightWords := by
  intro s hseq
  obtain ⟨t, hturns, hstart, hrun⟩ := turns_chunks 7 0 s rfl hseq
  exact ⟨t, hturns, hstart, hrun.pwi, hrun.pri, hrun.queue, hrun.cnt, hrun.outside,
    fun hsilent => ⟨hrun.words hsilent, hrun.rest hsilent⟩⟩

end Sys2Proof.Machine
end

section
/-! PROOFS. The modulator's loop stays bounded while its target is held (45_pdm.md section 4, R359). -/

namespace Sys2Proof.Machine

/-! The loop over the integers. With target `t` a decision takes the first integrator by `t - 65535` while the second is not
negative, and by `t` while it is negative; the second takes the new first, less the feedback. On each side a quadratic in the
two integrators is conserved, and one bound for both is kept by the change of side and by the leak. -/

/-- The two quadratics of the loop, bounded: the one of the positive side everywhere, the one of the negative side there. -/
structure LoopBounded (t e1 e2 : Int) : Prop where
  upper : 2 * (65535 - t) * e2 + (e1 - 65535) * (e1 - 65535 - (65535 - t)) ≤ 5 * 65535 ^ 2
  lower : e2 < 0 → -(2 * t * e2) + e1 * (e1 + t) ≤ 5 * 65535 ^ 2

theorem loopBounded_rest {t : Int} (h : 0 ≤ t) : LoopBounded t 0 0 :=
  ⟨by nlinarith, by omega⟩

/-- A decision at a second integrator that is not negative keeps the first quadratic as it is. -/
theorem LoopBounded.feedback {t e1 e2 : Int} (h0 : 0 ≤ t) (h1 : t ≤ 65535) (h : LoopBounded t e1 e2) (he : 0 ≤ e2) :
    LoopBounded t (e1 + t - 65535) (e2 + (e1 + t - 65535) - 65535) := by
  have hupper := h.upper
  refine ⟨by linarith, fun hneg => ?_⟩
  obtain ⟨y, rfl⟩ : ∃ y, e1 = 65535 + (65535 - t) - y := ⟨65535 + (65535 - t) - e1, by ring⟩
  have hy : 0 < y := by linarith
  have hsq : y * y - (65535 - t) * y ≤ 5 * 65535 ^ 2 := by nlinarith
  have he2 : -(2 * t * (e2 + (65535 + (65535 - t) - y + t - 65535) - 65535)) ≤ 2 * t * y := by nlinarith
  by_cases hlarge : 65535 + t ≤ y
  · nlinarith
  · nlinarith

/-- A decision at a negative second integrator keeps the second quadratic as it is. -/
theorem LoopBounded.noFeedback {t e1 e2 : Int} (h0 : 0 < t) (h1 : t < 65535) (h : LoopBounded t e1 e2) (he : e2 < 0) :
    LoopBounded t (e1 + t) (e2 + (e1 + t)) := by
  have hlower := h.lower he
  have hupper := h.upper
  refine ⟨?_, fun _ => by linarith⟩
  obtain ⟨z, rfl⟩ : ∃ z, e1 = z - t := ⟨e1 + t, by ring⟩
  rw [sub_add_cancel]
  by_cases hz : 0 ≤ z
  · have hsq : z * z - t * z ≤ 5 * 65535 ^ 2 := by nlinarith
    have he2 : 2 * (65535 - t) * (e2 + z) ≤ 2 * (65535 - t) * z := by nlinarith
    by_cases hlarge : 65535 + (65535 - t) ≤ z
    · nlinarith
    · nlinarith
  · nlinarith

/-- One leak over the integers (R352). -/
def leakInt (v : Int) : Int := v - v / 65536

theorem leakInt_nonneg {v : Int} (h : 0 ≤ v) : 0 ≤ leakInt v ∧ leakInt v ≤ v := by
  unfold leakInt
  omega

theorem leakInt_neg {v : Int} (h : v < 0) : v < leakInt v ∧ leakInt v ≤ 0 := by
  unfold leakInt
  omega

/-- The leak keeps the quadratic of the negative side: what the second integrator's leak takes off it exceeds what the first
one's can add. -/
theorem LoopBounded.leak_lower {t e1 e2 : Int} (h0 : 0 < t) (h1 : t < 65535) (h : LoopBounded t e1 e2) (he : leakInt e2 < 0) :
    -(2 * t * leakInt e2) + leakInt e1 * (leakInt e1 + t) ≤ 5 * 65535 ^ 2 := by
  have he2 : e2 < 0 := by
    by_contra hn
    exact absurd (leakInt_nonneg (not_lt.mp hn)).1 (not_le.mpr he)
  have hlower := h.lower he2
  have hleak := leakInt_neg he2
  have hsecond : -(2 * t * leakInt e2) + 2 * t ≤ -(2 * t * e2) := by nlinarith
  by_cases hz : 0 ≤ e1
  · have hfirst := leakInt_nonneg hz
    nlinarith
  · obtain ⟨d, hd⟩ : ∃ d, leakInt e1 = e1 + d := ⟨leakInt e1 - e1, by ring⟩
    have hsmall : 0 < d ∧ (d = 1 ∨ 2 * e1 + d + t ≤ 0) := by
      unfold leakInt at hd
      omega
    have hfirst : d * (2 * e1 + d + t) ≤ 2 * t := by
      obtain ⟨hpos, rfl | hnonpos⟩ := hsmall
      · linarith
      · nlinarith
    rw [hd]
    linarith

/-- Where neither integrator is negative, the leak keeps the first quadratic: only a leak of 1 can add to the first
integrator's part, and the second one's leak takes off more, or its part is far below the bound. -/
theorem LoopBounded.leak_upper_of_nonneg {t e1 e2 : Int} (h0 : 1638 ≤ t) (h1 : t ≤ 63897) (h : LoopBounded t e1 e2)
    (hz : 0 ≤ e1) (he : 0 ≤ e2) :
    2 * (65535 - t) * leakInt e2 + (leakInt e1 - 65535) * (leakInt e1 - 65535 - (65535 - t)) ≤ 5 * 65535 ^ 2 := by
  have hupper := h.upper
  have hleak := leakInt_nonneg he
  have hsecond : 2 * (65535 - t) * leakInt e2 ≤ 2 * (65535 - t) * e2 := by nlinarith
  obtain ⟨d, hd⟩ : ∃ d, leakInt e1 = e1 - d := ⟨e1 - leakInt e1, by ring⟩
  rw [hd]
  by_cases hfirst : d * (d + (65535 - t) - 2 * (e1 - 65535)) ≤ 0
  · linarith
  · have hone : d = 1 ∧ 65536 ≤ e1 ∧ e1 - 1 - 65535 ≤ 65535 - t := by
      unfold leakInt at hd
      have hsum : 0 < d + (65535 - t) - 2 * (e1 - 65535) := by
        by_contra hn
        exact hfirst (mul_nonpos_of_nonneg_of_nonpos (by omega) (not_lt.mp hn))
      have hd0 : d ≠ 0 := by
        rintro rfl
        simp at hfirst
      omega
    obtain ⟨rfl, he1, hle⟩ := hone
    by_cases hlarge : 65536 ≤ e2
    · have hdrop : leakInt e2 ≤ e2 - 1 := by
        unfold leakInt
        omega
      nlinarith
    · nlinarith

/-- At a negative first integrator the leak keeps the first quadratic: it scales both parts by 65535 / 65536, up to what the
bound leaves room for. -/
theorem LoopBounded.leak_upper_of_neg {t e1 e2 : Int} (h0 : 1638 ≤ t) (h1 : t ≤ 63897) (h : LoopBounded t e1 e2)
    (hz : e1 < 0) :
    2 * (65535 - t) * leakInt e2 + (leakInt e1 - 65535) * (leakInt e1 - 65535 - (65535 - t)) ≤ 5 * 65535 ^ 2 := by
  have hupper := h.upper
  obtain ⟨d, hd⟩ : ∃ d, leakInt e1 = e1 + d := ⟨leakInt e1 - e1, by ring⟩
  have hfirst : 0 < d ∧ d ≤ -e1 ∧ -e1 ≤ 65536 * d := by
    unfold leakInt at hd
    omega
  have hsecond : 65536 * leakInt e2 ≤ 65535 * e2 + 65535 := by
    unfold leakInt
    omega
  obtain ⟨hpos, hle, hge⟩ := hfirst
  have hscaled : 2 * (65535 - t) * (65536 * leakInt e2) ≤ 2 * (65535 - t) * (65535 * e2 + 65535) := by nlinarith
  have hslope : -e1 * (2 * (65535 - e1) + (65535 - t) - d) ≤ 65536 * d * (2 * (65535 - e1) + (65535 - t) - d) :=
    mul_le_mul_of_nonneg_right hge (by linarith)
  have hrest : -e1 * (d + e1) ≤ 0 := by nlinarith
  rw [hd]
  nlinarith

/-- The leak keeps the quadratic of the positive side. -/
theorem LoopBounded.leak_upper {t e1 e2 : Int} (h0 : 1638 ≤ t) (h1 : t ≤ 63897) (h : LoopBounded t e1 e2) :
    2 * (65535 - t) * leakInt e2 + (leakInt e1 - 65535) * (leakInt e1 - 65535 - (65535 - t)) ≤ 5 * 65535 ^ 2 := by
  by_cases hz : e1 < 0
  · exact h.leak_upper_of_neg h0 h1 hz
  by_cases he : 0 ≤ e2
  · exact h.leak_upper_of_nonneg h0 h1 (not_lt.mp hz) he
  have hlower := h.lower (not_le.mp he)
  have hleak := leakInt_neg (not_le.mp he)
  have hfirst := leakInt_nonneg (not_lt.mp hz)
  have hsecond : 2 * (65535 - t) * leakInt e2 ≤ 0 := by nlinarith
  have hsq : leakInt e1 * (leakInt e1 + t) ≤ 5 * 65535 ^ 2 := by nlinarith
  by_cases hlarge : 65535 ≤ leakInt e1
  · nlinarith
  · nlinarith

theorem LoopBounded.leak {t e1 e2 : Int} (h0 : 1638 ≤ t) (h1 : t ≤ 63897) (h : LoopBounded t e1 e2) :
    LoopBounded t (leakInt e1) (leakInt e2) :=
  ⟨h.leak_upper h0 h1, h.leak_lower (by omega) (by omega)⟩

/-- What the two quadratics say of each integrator. -/
theorem LoopBounded.bounds {t e1 e2 : Int} (h0 : 1638 ≤ t) (h1 : t ≤ 63897) (h : LoopBounded t e1 e2) :
    (-(2 ^ 23) ≤ e1 ∧ e1 ≤ 2 ^ 23) ∧ -(2 ^ 23) ≤ e2 ∧ e2 ≤ 2 ^ 23 := by
  have hupper := h.upper
  by_cases he : 0 ≤ e2
  · have hprod : 0 ≤ (65535 - t) * e2 := by nlinarith
    refine ⟨⟨?_, ?_⟩, by omega, ?_⟩
    · nlinarith
    · nlinarith
    · nlinarith [sq_nonneg (2 * (e1 - 65535) - (65535 - t))]
  · have hlower := h.lower (not_le.mp he)
    have hprod : t * e2 ≤ 0 := by nlinarith
    refine ⟨⟨?_, ?_⟩, ?_, by omega⟩
    · nlinarith
    · nlinarith
    · nlinarith [sq_nonneg (2 * e1 + t)]

/-! The modulator's loop is this one, since its words never wrap. -/

/-- The two integrators of the machine as the loop over the integers has them. -/
def heldWithin (target : BitVec 16) (e1 e2 : Word) : Prop := LoopBounded target.toNat e1.toInt e2.toInt

/-- One decision without dither, from integrators that the loop's bound holds for. -/
theorem heldWithin_decision {target : BitVec 16} (h0 : 1638 ≤ target.toNat) (h1 : target.toNat ≤ 63897) {e1 e2 : Word}
    (h : heldWithin target e1 e2) :
    heldWithin target (nextErr1 target e1 (comparator e2 0)) (nextErr2 target e1 e2 (comparator e2 0)) := by
  obtain ⟨⟨hl1, hu1⟩, hl2, hu2⟩ := h.bounds (by omega) (by omega)
  have hfb : feedback (comparator e2 0) = if 0 ≤ e2.toInt then 65535 else 0 := by
    split
    · exact feedback_comparator_of_nonneg (by omega)
    · exact feedback_comparator_of_neg (by omega)
  have h1' : (nextErr1 target e1 (comparator e2 0)).toInt = e1.toInt + target.toNat - feedback (comparator e2 0) := by
    rw [nextErr1, hfb, wrap32_toInt] <;> split <;> omega
  have h2' : (nextErr2 target e1 e2 (comparator e2 0)).toInt
      = e2.toInt + (e1.toInt + target.toNat - feedback (comparator e2 0)) - feedback (comparator e2 0) := by
    rw [nextErr2, h1', hfb, wrap32_toInt] <;> split <;> omega
  rw [heldWithin, h2', h1', hfb]
  by_cases he : 0 ≤ e2.toInt
  · rw [if_pos he]
    exact h.feedback (by omega) (by omega) he
  · rw [if_neg he, sub_zero, sub_zero]
    exact h.noFeedback (by omega) (by omega) (not_le.mp he)

theorem heldWithin_decisions {target : BitVec 16} (h0 : 1638 ≤ target.toNat) (h1 : target.toNat ≤ 63897) (b : Nat) :
    ∀ {e1 e2 : Word}, heldWithin target e1 e2 →
      heldWithin target (decisions target 0 b e1 e2).err1 (decisions target 0 b e1 e2).err2 := by
  induction b with
  | zero => exact fun h => h
  | succ b ih =>
    intro e1 e2 h
    rw [decisions_succ]
    exact ih (heldWithin_decision h0 h1 h)

theorem heldWithin_leak {target : BitVec 16} (h0 : 1638 ≤ target.toNat) (h1 : target.toNat ≤ 63897) {e1 e2 : Word}
    (h : heldWithin target e1 e2) : heldWithin target (leakValue e1) (leakValue e2) := by
  rw [heldWithin, leakValue_toInt, leakValue_toInt]
  exact LoopBounded.leak (by omega) (by omega) h

theorem heldWithin_heldSamples {target : BitVec 16} (h0 : 1638 ≤ target.toNat) (h1 : target.toNat ≤ 63897) (n : Nat) :
    heldWithin target (heldSamples target n).1 (heldSamples target n).2 := by
  induction n with
  | zero => exact loopBounded_rest (by omega)
  | succ n ih =>
    rw [heldSamples_succ, heldSample]
    exact heldWithin_leak h0 h1 (heldWithin_decisions h0 h1 256 ih)

/-- The boundedness of R359 for every target that CLIP at most 31129 can give. -/
theorem boundedWhileHeld_of_target {target : BitVec 16} (h0 : 1638 ≤ target.toNat) (h1 : target.toNat ≤ 63897) :
    boundedWhileHeld target (2 ^ 23) := by
  rintro n b _ d rfl
  obtain ⟨⟨hl1, hu1⟩, hl2, hu2⟩ :=
    (heldWithin_decisions h0 h1 b (heldWithin_heldSamples h0 h1 n)).bounds (by omega) (by omega)
  exact ⟨hl1, hu1, hl2, hu2⟩

/-! The modulator's turns on a held sample. -/

/-- What one chunk of a modulated sample without dither leaves for the next. -/
theorem produceChunk_held {s : State} (hmode : s.pdm.mode = .modulate) (hdither : s.par.ditherMax = 0) {d : Decisions}
    (hd : d = decisions s.pdm.target 0 32 s.pdm.err1 s.pdm.err2) :
    (produceChunk s).pdm.err1 = d.err1 ∧ (produceChunk s).pdm.err2 = d.err2
      ∧ (produceChunk s).pdm.target = s.pdm.target ∧ (produceChunk s).pdm.mode = .modulate := by
  rw [← ditherValue_eq_zero hdither] at hd
  rw [produceChunk_of_modulate hmode hd]
  exact ⟨rfl, rfl, rfl, hmode⟩

/-- The chunks that are left of a modulated sample without dither: their decisions in one run, and the leak. -/
theorem turns_chunks_held (k : Nat) :
    ∀ (c : Fin 8) (s : State), c.val + (k + 1) = 8 → s.modSeq = .chunk c → s.pdm.mode = .modulate → s.par.ditherMax = 0 →
      ∃ t, turns .pdmMod (k + 1) s = .next t ∧ t.pdm.target = s.pdm.target
        ∧ t.pdm.err1 = leakValue (decisions s.pdm.target 0 (32 * (k + 1)) s.pdm.err1 s.pdm.err2).err1
        ∧ t.pdm.err2 = leakValue (decisions s.pdm.target 0 (32 * (k + 1)) s.pdm.err1 s.pdm.err2).err2 := by
  induction k with
  | zero =>
    intro c s hc hseq hmode hdither
    have hstep := agentStep_pdmMod_of_chunk hseq
    rw [modChunk_of_last_modulate (by omega) hmode] at hstep
    refine ⟨_, turns_one_of_next hstep, ?_⟩
    rw [Nat.zero_add, Nat.mul_one]
    generalize hd : decisions s.pdm.target 0 32 s.pdm.err1 s.pdm.err2 = d
    obtain ⟨h1, h2, htarget, _⟩ := produceChunk_held hmode hdither hd.symm
    exact ⟨htarget, congrArg leakValue h1, congrArg leakValue h2⟩
  | succ k ih =>
    intro c s hc hseq hmode hdither
    have hstep := agentStep_pdmMod_of_chunk hseq
    rw [modChunk_of_lt (c' := ⟨c.val + 1, by omega⟩) rfl] at hstep
    rw [turns_succ_of_next hstep, show 32 * (k + 1 + 1) = 32 + 32 * (k + 1) by omega, decisions_add]
    generalize hd : decisions s.pdm.target 0 32 s.pdm.err1 s.pdm.err2 = d
    obtain ⟨h1, h2, htarget, hmode'⟩ := produceChunk_held hmode hdither hd.symm
    have hnext := ih ⟨c.val + 1, by omega⟩ { produceChunk s with modSeq := .chunk ⟨c.val + 1, by omega⟩ }
      (by dsimp only; omega) rfl hmode' (by simpa using hdither)
    dsimp only at hnext
    rwa [h1, h2, htarget] at hnext

/-- Settles O51: the loop's bound for every held input, and the eight turns as one held sample. -/
theorem integratorsStayBoundedWhileHeld : Obligations.IntegratorsStayBoundedWhileHeld := by
  refine ⟨fun p sample hclip => ?_, fun s hseq hmode hdither => ?_⟩
  · obtain ⟨hlo, hhi⟩ := targetOf_range (p := p) sample (by omega)
    exact boundedWhileHeld_of_target (by omega) (by omega)
  · obtain ⟨t, hturns, htarget, h1, h2⟩ := turns_chunks_held 7 0 s rfl hseq hmode hdither
    exact ⟨t, hturns, htarget, Prod.ext h1 h2⟩

end Sys2Proof.Machine
end
